-- ==== Sys2Proof/Word.lean ====
section
/-! DEFINITION. The plain data of the block: symbols, node indices, op words, bit-strings, ports, units (00_scope.md R6, R8; 30_encoding.md R50).

The widths of the block are parameters (00_scope.md R4), all its numbers are unsigned and no operation wraps (R8, R81), so numbers
are `Nat` and their ranges are an invariant (log 5). -/

namespace Sys2Proof

/-- A Symbol: an unsigned SYM_W-bit value, compared for equality and used as an index of CT (00_scope.md R4, R9). -/
abbrev Symbol := Nat

/-- The index of a node in TM, NODE_AW bits (10_state.md R14). -/
abbrev NodeIdx := Nat

/-- The word that carries an op, or an output event, on its port (30_encoding.md R50). -/
abbrev OpWord := Nat

/-- A bit-string, first element first (00_scope.md R8). `false` is 0 ("go left"), `true` is 1 ("go right"). -/
abbrev BitString := List Bool

/-- The three input ports (30_encoding.md R50). -/
inductive Port where
  | cfg   -- table and control ops for both units
  | es    -- ENCSYM, ENCEND
  | db    -- DECBIT, DECEND
deriving DecidableEq, Repr

/-- The two units, which share no state (00_scope.md R6). -/
inductive BlockUnit where
  | enc
  | dec
deriving DecidableEq, Repr

end Sys2Proof
end

