-- ==== Sys2Proof/Config.lean ====
section
/-! DEFINITION. What is fixed when a block is built: the parameters SYM_W and LEN_MAX and the sizes derived from them (00_scope.md R4, R5).

LEAF_ORDER, the third parameter of R4, is read by no hardware rule (10_state.md R19); it is an argument of the TreeBuilder in
Machine/HostTables.lean (log 2). No value of the block is left undefined by the spec, so there is no free value here. -/

namespace Sys2Proof

/-- The hardware parameters of 00_scope.md R4. -/
structure Params where
  /-- SYM_W, the width of a Symbol in bits. -/
  symW : Nat
  /-- LEN_MAX, the greatest length of a Code the code table can hold. -/
  lenMax : Nat
deriving DecidableEq, Repr

/-- The constraints of R4: SYM_W >= 1 and 1 <= LEN_MAX. -/
def Params.ok (p : Params) : Bool := decide (1 ≤ p.symW) && decide (1 ≤ p.lenMax)

/-- The defaults of R4: SYM_W = 8, LEN_MAX = 2^SYM_W - 1. -/
def Params.default : Params where
  symW := 8
  lenMax := 255

/-- LEN_W: the least w with 2^w > LEN_MAX, for LEN_MAX >= 1 (R5). -/
def Params.lenW (p : Params) : Nat := Nat.log2 p.lenMax + 1

/-- NODE_AW, the width of a node index (R5). -/
def Params.nodeAw (p : Params) : Nat := p.symW + 1

/-- NODE_N, the number of tree memory entries (R5). -/
def Params.nodeN (p : Params) : Nat := 2 ^ p.nodeAw

/-- CT_N, the number of code table entries (R5). -/
def Params.ctN (p : Params) : Nat := 2 ^ p.symW

/-- The width of each input port's op word (30_encoding.md R50): CFG_W is the width of the widest CFG op. -/
def Params.portWidth (p : Params) : Port → Nat
  | .cfg => 3 + max (p.symW + p.lenW + p.lenMax) (3 * p.nodeAw)
  | .es  => 1 + p.symW
  | .db  => 2

end Sys2Proof
end

