-- ==== Sys2Proof/Syntax.lean ====
section
/-! DEFINITION. The ops of the block, one constructor per row of spec/opcode_table.json (30_encoding.md R51 to R54), and their
assembler form (R60). The encoder's internal step SHIFT has no op word (R52), so it is no constructor here: it is a step of the machine. -/

namespace Sys2Proof

/-- One op. Operands are unsigned numbers (30_encoding.md R57). -/
inductive Instr where
  | clrenc
  | ldcode (sym : Symbol) (len code : Nat)
  | reserved010
  | reserved011
  | clrdec
  | ldleaf (idx : NodeIdx) (sym : Symbol)
  | ldint (idx left right : NodeIdx)
  | setroot (idx : NodeIdx)
  | encsym (sym : Symbol)
  | encend
  | decbit (b : Bool)
  | decend
deriving DecidableEq, Repr

/-- The port the op is presented on (30_encoding.md R52). -/
def Instr.port : Instr → Port
  | .clrenc => .cfg
  | .ldcode _ _ _ => .cfg
  | .reserved010 => .cfg
  | .reserved011 => .cfg
  | .clrdec => .cfg
  | .ldleaf _ _ => .cfg
  | .ldint _ _ _ => .cfg
  | .setroot _ => .cfg
  | .encsym _ => .es
  | .encend => .es
  | .decbit _ => .db
  | .decend => .db

/-- The unit the op is for (30_encoding.md R52). -/
def Instr.unit : Instr → BlockUnit
  | .clrenc => .enc
  | .ldcode _ _ _ => .enc
  | .reserved010 => .enc
  | .reserved011 => .enc
  | .clrdec => .dec
  | .ldleaf _ _ => .dec
  | .ldint _ _ _ => .dec
  | .setroot _ => .dec
  | .encsym _ => .enc
  | .encend => .enc
  | .decbit _ => .dec
  | .decend => .dec

/-- The mnemonic of spec/opcode_table.json. -/
def Instr.mnemonic : Instr → String
  | .clrenc => "CLRENC"
  | .ldcode _ _ _ => "LDCODE"
  | .reserved010 => "RESERVED_010"
  | .reserved011 => "RESERVED_011"
  | .clrdec => "CLRDEC"
  | .ldleaf _ _ => "LDLEAF"
  | .ldint _ _ _ => "LDINT"
  | .setroot _ => "SETROOT"
  | .encsym _ => "ENCSYM"
  | .encend => "ENCEND"
  | .decbit _ => "DECBIT"
  | .decend => "DECEND"

/-- The operands in the order of the assembler syntax (30_encoding.md R60). -/
def Instr.operands : Instr → List Nat
  | .clrenc => []
  | .ldcode sym len code => [sym, len, code]
  | .reserved010 => []
  | .reserved011 => []
  | .clrdec => []
  | .ldleaf idx sym => [idx, sym]
  | .ldint idx left right => [idx, left, right]
  | .setroot idx => [idx]
  | .encsym sym => [sym]
  | .encend => []
  | .decbit b => [b.toNat]
  | .decend => []

/-- The op as R60 writes it, operands in decimal. The reserved opcodes have no mnemonic there; the table's names stand for them. -/
def Instr.asm (i : Instr) : String :=
  String.intercalate " " (i.mnemonic :: if i.operands = [] then [] else [String.intercalate ", " (i.operands.map toString)])

end Sys2Proof
end

