-- ==== Sys2Proof/WellFormed.lean ====
section
/-! DEFINITION. Which ops an op word can carry: every operand fits its field (30_encoding.md R51, R53, R57).

The legal range of LDCODE's `len` (1 .. LEN_MAX) is no condition here: a word with another len exists and faults when it is
performed (41_config_ops.md R87). -/

namespace Sys2Proof

/-- `v` fits a field of `width` bits. -/
def fits (v width : Nat) : Bool := decide (v < 2 ^ width)

/-- Every operand of the op fits its field. -/
def Instr.wellFormed (p : Params) : Instr → Bool
  | .clrenc => true
  | .ldcode sym len code => fits sym p.symW && fits len p.lenW && fits code p.lenMax
  | .reserved010 => true
  | .reserved011 => true
  | .clrdec => true
  | .ldleaf idx sym => fits idx p.nodeAw && fits sym p.symW
  | .ldint idx left right => fits idx p.nodeAw && fits left p.nodeAw && fits right p.nodeAw
  | .setroot idx => fits idx p.nodeAw
  | .encsym sym => fits sym p.symW
  | .encend => true
  | .decbit _ => true
  | .decend => true

end Sys2Proof
end

