-- ==== Sys2Proof/Decode.lean ====
section
/-! DEFINITION. From op words to ops and back (30_encoding.md R50 to R58), and the opcode map as a table.

`decode` is total on the words of a port; a number that is no word of the port (a bit set at or above the port's width) is rejected
by name (log 11). Ignored bits are discarded (R58). -/

namespace Sys2Proof

/-- `w[lo+width-1 : lo]`, an unsigned field (00_scope.md R8). -/
def field (w lo width : Nat) : Nat := (w >>> lo) % 2 ^ width

/-- Why a number is no op word. -/
inductive DecodeError where
  /-- A bit is set at or above the width of the port: no such word exists on it (30_encoding.md R50). -/
  | tooWide (port : Port)
deriving DecidableEq, Repr

/-- CFG words (30_encoding.md R51): the opcode is bits [2:0], operands packed upward from bit 3 in assembler order. -/
def decodeCfg (p : Params) (w : OpWord) : Instr :=
  match w.testBit 2, w.testBit 1, w.testBit 0 with
  | false, false, false => .clrenc
  | false, false, true =>
    .ldcode (field w 3 p.symW) (field w (p.symW + 3) p.lenW) (field w (p.symW + p.lenW + 3) p.lenMax)
  | false, true, false => .reserved010
  | false, true, true => .reserved011
  | true, false, false => .clrdec
  | true, false, true => .ldleaf (field w 3 p.nodeAw) (field w (p.nodeAw + 3) p.symW)
  | true, true, false =>
    .ldint (field w 3 p.nodeAw) (field w (p.nodeAw + 3) p.nodeAw) (field w (2 * p.nodeAw + 3) p.nodeAw)
  | true, true, true => .setroot (field w 3 p.nodeAw)

/-- ES words (30_encoding.md R53): bit 0 is the opcode, bits [SYM_W:1] the symbol. -/
def decodeEs (p : Params) (w : OpWord) : Instr :=
  if w.testBit 0 then .encend else .encsym (field w 1 p.symW)

/-- DB words (30_encoding.md R54): bit 0 is the opcode, bit 1 the bit. -/
def decodeDb (w : OpWord) : Instr :=
  if w.testBit 0 then .decend else .decbit (w.testBit 1)

/-- The op a word of a port carries (30_encoding.md R52). -/
def decodeWord (p : Params) (port : Port) (w : OpWord) : Instr :=
  match port with
  | .cfg => decodeCfg p w
  | .es => decodeEs p w
  | .db => decodeDb w

/-- The decoder of a port: a number with a bit at or above the port's width is rejected, every word of the port is an op. -/
def decode (p : Params) (port : Port) (w : OpWord) : Except DecodeError Instr :=
  if w >>> p.portWidth port ≠ 0 then .error (.tooWide port) else .ok (decodeWord p port w)

/-- The op word of an op on its port, ignored bits 0 (30_encoding.md R51, R53, R54). -/
def encode (p : Params) : Instr → OpWord
  | .clrenc => 0
  | .ldcode sym len code => 1 + sym <<< 3 + len <<< (p.symW + 3) + code <<< (p.symW + p.lenW + 3)
  | .reserved010 => 2
  | .reserved011 => 3
  | .clrdec => 4
  | .ldleaf idx sym => 5 + idx <<< 3 + sym <<< (p.nodeAw + 3)
  | .ldint idx left right => 6 + idx <<< 3 + left <<< (p.nodeAw + 3) + right <<< (2 * p.nodeAw + 3)
  | .setroot idx => 7 + idx <<< 3
  | .encsym sym => sym <<< 1
  | .encend => 1
  | .decbit b => b.toNat <<< 1
  | .decend => 1

/-- How many low bits of its word an op reads; the bits above them are the ignored bits (30_encoding.md R51, R53, R54, R58). -/
def opBits (p : Params) : Instr → Nat
  | .clrenc => 3
  | .ldcode _ _ _ => p.symW + p.lenW + p.lenMax + 3
  | .reserved010 => 3
  | .reserved011 => 3
  | .clrdec => 3
  | .ldleaf _ _ => p.nodeAw + p.symW + 3
  | .ldint _ _ _ => 3 * p.nodeAw + 3
  | .setroot _ => p.nodeAw + 3
  | .encsym _ => p.symW + 1
  | .encend => 1
  | .decbit _ => 2
  | .decend => 1

/-- One row of the opcode map (30_encoding.md R52). -/
structure OpcodeRow where
  port : Port
  mask : Nat
  pattern : Nat
  mnemonic : String
  unit : BlockUnit
deriving DecidableEq, Repr

/-- The row's pattern is what the mask leaves of the word. -/
def OpcodeRow.selects (r : OpcodeRow) (port : Port) (w : OpWord) : Bool :=
  decide (r.port = port) && decide (w &&& r.mask = r.pattern)

/-- The opcode map of 30_encoding.md R52, row by row. -/
def opcodeMap : List OpcodeRow :=
  [⟨.cfg, 0x7, 0x0, "CLRENC", .enc⟩,
   ⟨.cfg, 0x7, 0x1, "LDCODE", .enc⟩,
   ⟨.cfg, 0x7, 0x2, "RESERVED_010", .enc⟩,
   ⟨.cfg, 0x7, 0x3, "RESERVED_011", .enc⟩,
   ⟨.cfg, 0x7, 0x4, "CLRDEC", .dec⟩,
   ⟨.cfg, 0x7, 0x5, "LDLEAF", .dec⟩,
   ⟨.cfg, 0x7, 0x6, "LDINT", .dec⟩,
   ⟨.cfg, 0x7, 0x7, "SETROOT", .dec⟩,
   ⟨.es, 0x1, 0x0, "ENCSYM", .enc⟩,
   ⟨.es, 0x1, 0x1, "ENCEND", .enc⟩,
   ⟨.db, 0x1, 0x0, "DECBIT", .dec⟩,
   ⟨.db, 0x1, 0x1, "DECEND", .dec⟩]

/-- The port a bare number of `nbits` bits is taken to be a word of. The opcode table gives three ports the same small numbers and the
port is no part of a word (30_encoding.md R52), so the width must say it (log 12): the width of a DB word, the width of an ES word (also
in whole bytes, and the one opcode bit alone), and CFG for every other. -/
def tablePort (nbits : Nat) : Port :=
  if nbits = Params.default.portWidth .db then .db
  else if nbits = 1 ∨ nbits = Params.default.portWidth .es ∨ nbits = 16 then .es
  else .cfg

/-- The op `decode` reads from a word of the opcode table, with the default parameters. -/
def decodeTableWord (nbits w : Nat) : Option Instr :=
  match decode Params.default (tablePort nbits) w with
  | .ok i => some i
  | .error _ => none

end Sys2Proof
end

