-- ==== Sys2Proof/Machine/State.lean ====
section
/-! DEFINITION. The state of the block, plain data: the architectural state of 10_state.md R10, the observation of the
output ports (00_scope.md R8), and the model's own fields (the parameters, what the host has presented, and the schedule). -/

namespace Sys2Proof.Machine

/-- The fault causes (60_exceptions.md R130). A fault is recorded in a register and is a next state of the machine (log 18). -/
inductive FaultCode where
  | argument       -- 1: a bad argument; ENC, DEC
  | unknownSymbol  -- 2: a symbol with no entry in CT; ENC only
  | malformed      -- 3: the message ended with the pointer not at the root; DEC only
  | tableBusy      -- 4: a table or root write while a message is in progress; ENC, DEC
  | illegalOp      -- 5: a reserved CFG opcode; ENC only
deriving DecidableEq, Repr

/-- A valid CT entry (v = 1): the Code is the `len` low bits of `code`, most significant first (10_state.md R11, 30_encoding.md R48). -/
structure CtEntry where
  len : Nat
  code : Nat
deriving DecidableEq, Repr

/-- A valid TM entry (v = 1), the document's tagged node: a Leaf or an Internal node (10_state.md R14, 30_encoding.md R49). -/
inductive TmEntry where
  | leaf (sym : Symbol)
  | internal (left right : NodeIdx)
deriving DecidableEq, Repr

/-- A table: the entries with v = 1, by index, indices strictly rising. An index not listed has v = 0, as after reset (10_state.md R23). -/
abbrev Memory (α : Type) := List (Nat × α)

/-- The events of EB (00_scope.md R8). -/
inductive EbEvent where
  | bit (b : Bool)
  | done   -- the End event
deriving DecidableEq, Repr

/-- The events of DS (00_scope.md R8). -/
inductive DsEvent where
  | sym (s : Symbol)
  | done   -- the End event
deriving DecidableEq, Repr

/-- What cleared a unit: its CLR op or a reset step (60_exceptions.md R135). -/
inductive Mark where
  | clr
  | reset
deriving DecidableEq, Repr

/-- An entry of the log of an output port: an event emitted on it, or a mark where its unit was cleared. The framing of messages needs
the marks (42_encoder.md R100, 43_decoder.md R115, 70_reset_and_hazards.md R156, R164; log 14). -/
inductive LogEntry (ε : Type) where
  | event (e : ε)
  | mark (m : Mark)
deriving DecidableEq, Repr

/-- Which step is taken next: the acceptance of the op at the head of a port, the encoder's own SHIFT, or a reset step
(00_scope.md R6, 20_memory.md R37, 70_reset_and_hazards.md R155). -/
inductive Turn where
  | accept (port : Port)
  | shift
  | rst
deriving DecidableEq, Repr

structure State where
  /-- SYM_W and LEN_MAX, fixed when the block is built (00_scope.md R4, 10_state.md R19; log 1). -/
  params : Params
  /-- CT, the code table (10_state.md R11). -/
  ct : Memory CtEntry
  /-- ENC_SR, the code being serialised (R12). -/
  encSr : Nat
  /-- ENC_CNT, how many bits of ENC_SR are still to be sent (R12). -/
  encCnt : Nat
  /-- ENC_ACTIVE (R13). -/
  encActive : Bool
  /-- ENC_ERR: none is 0, or the code of the first fault (R13, R24). -/
  encErr : Option FaultCode
  /-- TM, the tree memory (R14). -/
  tm : Memory TmEntry
  /-- ROOT_V (R15). -/
  rootV : Bool
  /-- ROOT_IDX (R15). -/
  rootIdx : NodeIdx
  /-- DEC_PTR (R16). -/
  decPtr : NodeIdx
  /-- DEC_ACTIVE (R17). -/
  decActive : Bool
  /-- DEC_ERR: none is 0, or the code of the first fault (R17, R24). -/
  decErr : Option FaultCode
  /-- The log of EB: every event emitted on it, and where the encoder was cleared, oldest first (observation, no hardware state). EB_HIST
  is read from it (Machine/Operands.lean). -/
  ebLog : List (LogEntry EbEvent)
  /-- The log of DS: every event emitted on it, and where the decoder was cleared, oldest first (observation, no hardware state). DS_HIST
  is read from it. -/
  dsLog : List (LogEntry DsEvent)
  /-- The op words waiting at CFG, first in line first. They are the host's until accepted (10_state.md R19; log 6). -/
  cfgIn : List OpWord
  /-- The op words waiting at ES. -/
  esIn : List OpWord
  /-- The op words waiting at DB. -/
  dbIn : List OpWord
  /-- The turns to come, first one first: the interleaving that 20_memory.md R37 to R40 leave open (log 7). -/
  sched : List Turn
deriving DecidableEq, Repr

/-- What stops the machine for good: NOTHING. Every fault of the block is recorded in ENC_ERR or DEC_ERR and the machine goes on
(60_exceptions.md R133, R134), and every op has exactly one outcome in every state, so the type has no constructor (log 18). Safe or unsafe: safe. -/
inductive Fault where
deriving DecidableEq, Repr

/-- What the model does not give a meaning. -/
inductive Refusal where
  /-- Raised by `exec`'s arm of an instruction that has no meaning yet. Safe. -/
  | notModelled (mnemonic : String)
  /-- Raised by the step that would accept a number at `port` that is no word of the port, a bit being set at or above its width: the
  hardware has no wire for it (30_encoding.md R50; log 11). Safe: no run of the hardware does it. -/
  | notAnOpWord (port : Port)
deriving DecidableEq, Repr

/-- The machine after reset (10_state.md R23, 70_reset_and_hazards.md R156), with the default parameters (00_scope.md R4), nothing
presented and an empty schedule (the model's own fields: DESIGN CHOICE, log 1, 6, 7). -/
def State.reset : State where
  params := Params.default
  ct := []
  encSr := 0
  encCnt := 0
  encActive := false
  encErr := none
  tm := []
  rootV := false
  rootIdx := 0
  decPtr := 0
  decActive := false
  decErr := none
  ebLog := []
  dsLog := []
  cfgIn := []
  esIn := []
  dbIn := []
  sched := []

end Sys2Proof.Machine
end

