-- ==== Sys2Proof/Machine/Ops.lean ====
section
/-! DEFINITION. The shared operations: table access (20_memory.md R30, R34), emitting events (00_scope.md R8), taking a fault and
returning from one (60_exceptions.md R133, R135), reset (70_reset_and_hazards.md R155, R156), and the input ports. -/

namespace Sys2Proof.Machine

/-- The canonical form: indices strictly rising, so that equal tables are equal lists. -/
abbrev Memory.wf {α : Type} (m : Memory α) : Prop := m.Pairwise fun a b => a.1 < b.1

/-- Read one whole entry; `none` is an entry with v = 0 (20_memory.md R34). -/
def Memory.read {α : Type} : Memory α → Nat → Option α
  | [], _ => none
  | (k, e) :: m, a => if a = k then some e else Memory.read m a

/-- Write one whole entry and make it valid; a valid entry is replaced (20_memory.md R34, 92_eei_decisions.md D20). -/
def Memory.write {α : Type} : Memory α → Nat → α → Memory α
  | [], a, x => [(a, x)]
  | (k, e) :: m, a, x =>
    if a < k then (a, x) :: (k, e) :: m
    else if a = k then (a, x) :: m
    else (k, e) :: Memory.write m a x

/-- Every valid bit cleared in one step (20_memory.md R34). -/
def Memory.clear {α : Type} (_ : Memory α) : Memory α := []

/-- `emit EB, e`: appended to the port's history (00_scope.md R8). -/
def emitEb (e : EbEvent) (s : State) : State := { s with ebLog := s.ebLog ++ [.event e] }

/-- `emit DS, e`. -/
def emitDs (e : DsEvent) (s : State) : State := { s with dsLog := s.dsLog ++ [.event e] }

/-- Fault entry, `raise F(U)`: the unit's ERR register takes the code; for the encoder the pending bits are discarded; nothing else
changes (60_exceptions.md R133). -/
def takeFault (u : BlockUnit) (f : FaultCode) (s : State) : State :=
  match u with
  | .enc => { s with encErr := some f, encCnt := 0 }
  | .dec => { s with decErr := some f }

/-- Return from a fault, the effect of the unit's CLR op and of reset: the unit's reset state (60_exceptions.md R135, 41_config_ops.md
R86, R89). Nothing is emitted and what was emitted stays; the log of the unit's output port is marked (70_reset_and_hazards.md R164). -/
def clearUnit (u : BlockUnit) (m : Mark) (s : State) : State :=
  match u with
  | .enc =>
    { s with ct := s.ct.clear, encSr := 0, encCnt := 0, encActive := false, encErr := none, ebLog := s.ebLog ++ [.mark m] }
  | .dec =>
    { s with
      tm := s.tm.clear, rootV := false, rootIdx := 0, decPtr := 0, decActive := false, decErr := none, dsLog := s.dsLog ++ [.mark m] }

/-- The reset step: both units at once in their reset states, EB_HIST and DS_HIST begun anew by the marks (70_reset_and_hazards.md R155
to R157, 10_state.md R23). The parameters stay; the ops waiting at the ports are the host's and stay with it (10_state.md R19; log 15). -/
def resetStep (s : State) : State := clearUnit .dec .reset (clearUnit .enc .reset s)

/-- The op words waiting at a port. -/
def State.input (s : State) : Port → List OpWord
  | .cfg => s.cfgIn
  | .es => s.esIn
  | .db => s.dbIn

/-- The state with other op words waiting at a port. -/
def State.withInput (s : State) (port : Port) (ws : List OpWord) : State :=
  match port with
  | .cfg => { s with cfgIn := ws }
  | .es => { s with esIn := ws }
  | .db => { s with dbIn := ws }

/-- The state with another schedule. -/
def State.withSched (s : State) (ts : List Turn) : State := { s with sched := ts }

/-- The host presents one op word at the head of a port and its acceptance is the next turn (log 13). -/
def presentNow (port : Port) (w : OpWord) (s : State) : State :=
  (s.withInput port (w :: s.input port)).withSched (.accept port :: s.sched)

end Sys2Proof.Machine
end

