-- ==== Sys2Proof/Machine/Operands.lean ====
section
/-! DEFINITION. Operand assembly (30_encoding.md R48, R57), the serializer's bits (10_state.md R12), the null-root predicate
(43_decoder.md R116), the hold of the ES port (00_scope.md R8), and the output words (30_encoding.md R55, R56). -/

namespace Sys2Proof.Machine

/-- `bits_of(n, c)`: the n low bits of c, most significant first (00_scope.md R8). -/
def bitsOf : Nat → Nat → BitString
  | 0, _ => []
  | n + 1, c => c.testBit n :: bitsOf n c

/-- `val(x)`: the bit-string read as a binary numeral (00_scope.md R8). -/
def val (x : BitString) : Nat := x.foldl (fun v b => 2 * v + b.toNat) 0

/-- The Code a CT entry holds (30_encoding.md R48). -/
def CtEntry.bits (e : CtEntry) : BitString := bitsOf e.len e.code

/-- The pending bits of the serializer, next one first (10_state.md R12). -/
def State.pending (s : State) : BitString := bitsOf s.encCnt s.encSr

/-- ROOT_NULL: no root was set, or the root index points at no node (43_decoder.md R116). -/
def State.rootNull (s : State) : Bool := !s.rootV || (s.tm.read s.rootIdx).isNone

/-- The child a bit selects: left on 0, right on 1 (43_decoder.md R117). -/
def childIdx (b : Bool) (left right : NodeIdx) : NodeIdx := if b then right else left

/-- `hold while`: the port does not accept the op in this state. Only ENCSYM and ENCEND hold, while ENC_CNT != 0 (42_encoder.md R101,
R103, 20_memory.md R38). -/
def held (i : Instr) (s : State) : Bool :=
  match i.port with
  | .es => decide (s.encCnt ≠ 0)
  | .cfg => false
  | .db => false

/-- The EB output word: bit 0 the kind, bit 1 the bit (30_encoding.md R55). -/
def EbEvent.word : EbEvent → OpWord
  | .bit b => b.toNat <<< 1
  | .done => 1

/-- The DS output word: bit 0 the kind, bits [SYM_W:1] the symbol (30_encoding.md R56). -/
def DsEvent.word : DsEvent → OpWord
  | .sym s => s <<< 1
  | .done => 1

end Sys2Proof.Machine
end

