-- ==== Sys2Proof/Machine/Flags.lean ====
section
/-! DEFINITION. What the status pins show and the state a unit is in: functions of the registers (10_state.md R18, R21,
60_exceptions.md R130, R139). -/

namespace Sys2Proof.Machine

/-- The fault codes of 60_exceptions.md R130. -/
def FaultCode.code : FaultCode → BitVec 3
  | .argument => 1
  | .unknownSymbol => 2
  | .malformed => 3
  | .tableBusy => 4
  | .illegalOp => 5

/-- What an ERR register reads as: 0 when there is no fault (60_exceptions.md R130). -/
def errCode : Option FaultCode → BitVec 3
  | none => 0
  | some f => f.code

/-- Where each fault can be raised (60_exceptions.md R130, column "raised in"). -/
def FaultCode.raisedIn : FaultCode → BlockUnit → Bool
  | .argument, _ => true
  | .unknownSymbol, u => decide (u = .enc)
  | .malformed, u => decide (u = .dec)
  | .tableBusy, _ => true
  | .illegalOp, u => decide (u = .enc)

/-- The busy flag: ENC_CNT != 0 (10_state.md R18). -/
def State.busy (s : State) : Bool := decide (s.encCnt ≠ 0)

/-- The pins ENC_STAT[4:0]: busy, ENC_ACTIVE, ENC_ERR (10_state.md R18). -/
def State.encStat (s : State) : BitVec 5 :=
  (BitVec.ofBool s.busy ++ BitVec.ofBool s.encActive : BitVec 2) ++ errCode s.encErr

/-- The pins DEC_STAT[3:0]: DEC_ACTIVE, DEC_ERR (10_state.md R18). -/
def State.decStat (s : State) : BitVec 4 := BitVec.ofBool s.decActive ++ errCode s.decErr

/-- The level-sensitive fault request a platform may take from a unit's pins (60_exceptions.md R139). -/
def State.faultPending (s : State) : BlockUnit → Bool
  | .enc => s.encErr.isSome
  | .dec => s.decErr.isSome

/-- The three states of a unit (10_state.md R21). -/
inductive UnitState where
  | idle
  | active
  | faulted
deriving DecidableEq, Repr

/-- FAULTED when the ERR register is not 0, otherwise ACTIVE when the ACTIVE bit is 1, otherwise IDLE (10_state.md R21). -/
def unitStateOf (err : Option FaultCode) (active : Bool) : UnitState :=
  match err, active with
  | some _, _ => .faulted
  | none, true => .active
  | none, false => .idle

/-- The state of a unit of the block. -/
def State.unitState (s : State) : BlockUnit → UnitState
  | .enc => unitStateOf s.encErr s.encActive
  | .dec => unitStateOf s.decErr s.decActive

end Sys2Proof.Machine
end

