-- ==== Sys2Proof/Machine/ConfigDec.lean ====
section
/-! DEFINITION. The CFG ops of the decoder unit (41_config_ops.md R85, R89 to R92): CLRDEC, LDLEAF, LDINT, SETROOT. -/

namespace Sys2Proof.Machine

/-- CLRDEC (41_config_ops.md R89): accepted in every state; the decoder's reset state. -/
def execClrdec (s : State) : Host.Outcome State Fault Refusal := .next (clearUnit .dec .clr s)

/-- What LDLEAF, LDINT and SETROOT have in common (41_config_ops.md R90 to R92): dropped when FAULTED, TableBusy during a message, else
the write. -/
def loadTree (write : State → State) (s : State) : Host.Outcome State Fault Refusal :=
  if s.decErr.isSome then .next s
  else if s.decActive then .next (takeFault .dec .tableBusy s)
  else .next (write s)

/-- TM[idx] becomes a valid entry (20_memory.md R31, R34). -/
def writeNode (idx : NodeIdx) (e : TmEntry) (s : State) : State := { s with tm := s.tm.write idx e }

/-- The root is named and the pointer put at it (41_config_ops.md R92). -/
def nameRoot (idx : NodeIdx) (s : State) : State := { s with rootV := true, rootIdx := idx, decPtr := idx }

/-- LDLEAF idx, sym (41_config_ops.md R90). -/
def execLdleaf (idx : NodeIdx) (sym : Symbol) (s : State) : Host.Outcome State Fault Refusal :=
  loadTree (writeNode idx (.leaf sym)) s

/-- LDINT idx, left, right (41_config_ops.md R91). -/
def execLdint (idx left right : NodeIdx) (s : State) : Host.Outcome State Fault Refusal :=
  loadTree (writeNode idx (.internal left right)) s

/-- SETROOT idx (41_config_ops.md R92): it does not look at TM. -/
def execSetroot (idx : NodeIdx) (s : State) : Host.Outcome State Fault Refusal :=
  loadTree (nameRoot idx) s

end Sys2Proof.Machine
end

