-- ==== Sys2Proof/Machine/ConfigEnc.lean ====
section
/-! DEFINITION. The CFG ops of the encoder unit (41_config_ops.md R85 to R88): CLRENC, LDCODE, the two reserved opcodes. -/

namespace Sys2Proof.Machine

/-- CLRENC (41_config_ops.md R86): accepted in every state; the encoder's reset state. -/
def execClrenc (s : State) : Host.Outcome State Fault Refusal := .next (clearUnit .enc .clr s)

/-- LDCODE sym, len, code (41_config_ops.md R87), its conditions in the order of the rule. -/
def execLdcode (sym : Symbol) (len code : Nat) (s : State) : Host.Outcome State Fault Refusal :=
  if s.encErr.isSome then .next s
  else if s.encActive then .next (takeFault .enc .tableBusy s)
  else if len = 0 ∨ s.params.lenMax < len then .next (takeFault .enc .argument s)
  else .next { s with ct := s.ct.write sym ⟨len, code⟩ }

/-- A reserved CFG opcode (41_config_ops.md R88): IllegalOp in the encoder unless it is FAULTED. -/
def illegalOp (s : State) : Host.Outcome State Fault Refusal :=
  if s.encErr.isSome then .next s
  else .next (takeFault .enc .illegalOp s)

/-- CFG opcode 0b010 (41_config_ops.md R88). -/
def execReserved010 (s : State) : Host.Outcome State Fault Refusal := illegalOp s

/-- CFG opcode 0b011 (41_config_ops.md R88). -/
def execReserved011 (s : State) : Host.Outcome State Fault Refusal := illegalOp s

end Sys2Proof.Machine
end

