-- ==== Sys2Proof/Machine/Decoder.lean ====
section
/-! DEFINITION. The decoder unit (43_decoder.md R115 to R123): DECBIT, DECEND. -/

namespace Sys2Proof.Machine

/-- One step down the tree from an Internal root (43_decoder.md R117, the else branch): the current entry must be a valid Internal one
and the selected child valid; a Leaf emits its symbol and returns the pointer to the root. -/
def walkEdge (b : Bool) (s : State) : State :=
  match s.tm.read s.decPtr with
  | none => takeFault .dec .argument s
  | some (.leaf _) => takeFault .dec .argument s
  | some (.internal left right) =>
    match s.tm.read (childIdx b left right) with
    | none => takeFault .dec .argument s
    | some (.leaf sym) => { emitDs (.sym sym) s with decPtr := s.rootIdx, decActive := true }
    | some (.internal _ _) => { s with decPtr := childIdx b left right, decActive := true }

/-- DECBIT b (43_decoder.md R117): the null root first (R116), then the singleton case (R119), then the walk. -/
def execDecbit (b : Bool) (s : State) : Host.Outcome State Fault Refusal :=
  if s.decErr.isSome then .next s
  else if s.rootNull then .next (takeFault .dec .argument s)
  else
    match s.tm.read s.rootIdx with
    | some (.leaf sym) => .next { emitDs (.sym sym) s with decActive := true }
    | some (.internal _ _) => .next (walkEdge b s)
    | none => .next (takeFault .dec .argument s)

/-- DECEND (43_decoder.md R118): the null root before the pointer test. -/
def execDecend (s : State) : Host.Outcome State Fault Refusal :=
  if s.decErr.isSome then .next s
  else if s.rootNull then .next (takeFault .dec .argument s)
  else if s.decPtr ≠ s.rootIdx then .next (takeFault .dec .malformed s)
  else .next { emitDs .done s with decActive := false }

end Sys2Proof.Machine
end

