-- ==== Sys2Proof/Machine/Encoder.lean ====
section
/-! DEFINITION. The encoder unit (42_encoder.md R100 to R107): ENCSYM, the internal step SHIFT, ENCEND. -/

namespace Sys2Proof.Machine

/-- ENCSYM sym (42_encoder.md R101). While ENC_CNT != 0 the port holds it and nothing happens; the step then leaves it at the port
(Machine/Turn.lean, log 10). -/
def execEncsym (sym : Symbol) (s : State) : Host.Outcome State Fault Refusal :=
  if s.encCnt ≠ 0 then .next s
  else if s.encErr.isSome then .next s
  else
    match s.ct.read sym with
    | none => .next (takeFault .enc .unknownSymbol s)
    | some e => .next { s with encSr := e.code, encCnt := e.len, encActive := true }

/-- SHIFT (42_encoder.md R102): enabled iff ENC_CNT != 0; when it is not enabled nothing happens (log 9). -/
def shift (s : State) : State :=
  if s.encCnt = 0 then s
  else { emitEb (.bit (s.encSr.testBit (s.encCnt - 1))) s with encCnt := s.encCnt - 1 }

/-- ENCEND (42_encoder.md R103), held like ENCSYM. -/
def execEncend (s : State) : Host.Outcome State Fault Refusal :=
  if s.encCnt ≠ 0 then .next s
  else if s.encErr.isSome then .next s
  else .next { emitEb .done s with encActive := false }

end Sys2Proof.Machine
end

