-- ==== Sys2Proof/Machine/Dispatch.lean ====
section
/-! DEFINITION. One arm per op, each a direct call of its meaning. -/

namespace Sys2Proof.Machine

def exec (i : Instr) (s : State) : Host.Outcome State Fault Refusal :=
  match i with
  | .clrenc => Sys2Proof.Machine.execClrenc s
  | .ldcode sym len code => Sys2Proof.Machine.execLdcode sym len code s
  | .reserved010 => Sys2Proof.Machine.execReserved010 s
  | .reserved011 => Sys2Proof.Machine.execReserved011 s
  | .clrdec => Sys2Proof.Machine.execClrdec s
  | .ldleaf idx sym => Sys2Proof.Machine.execLdleaf idx sym s
  | .ldint idx left right => Sys2Proof.Machine.execLdint idx left right s
  | .setroot idx => Sys2Proof.Machine.execSetroot idx s
  | .encsym sym => Sys2Proof.Machine.execEncsym sym s
  | .encend => Sys2Proof.Machine.execEncend s
  | .decbit b => Sys2Proof.Machine.execDecbit b s
  | .decend => Sys2Proof.Machine.execDecend s

end Sys2Proof.Machine
end

