-- ==== Sys2Proof/Machine/Turn.lean ====
section
/-! DEFINITION. One step of the block (00_scope.md R6, 20_memory.md R37 to R40): the acceptance of one op, one SHIFT, or a reset step.

Which of them comes next is the schedule's to say, so that a claim about every schedule is a claim about every allowed interleaving
(R37, R39; log 7). -/

namespace Sys2Proof.Machine

/-- The head of a port is offered to the block: it is decoded; while the port holds it nothing happens and it stays at the head, so it
blocks the ops behind it (20_memory.md R38); otherwise it is accepted, leaves the port and is performed. With nothing waiting nothing
happens (log 9, 10). -/
def acceptFrom (port : Port) (s : State) : Host.Outcome State Fault Refusal :=
  match s.input port with
  | [] => .next s
  | w :: ws =>
    match decode s.params port w with
    | .error (.tooWide q) => .refused (.notAnOpWord q)
    | .ok i => if held i s then .next s else exec i (s.withInput port ws)

/-- One turn. -/
def takeTurn (t : Turn) (s : State) : Host.Outcome State Fault Refusal :=
  match t with
  | .accept port => acceptFrom port s
  | .shift => .next (shift s)
  | .rst => .next (resetStep s)

/-- The turn the model takes when the schedule says nothing: the first of CFG, ES, DB, SHIFT that can act, the order of 20_memory.md R39
among steps of one moment; none when nothing is waiting that can be accepted and no bit is pending (log 8). -/
def defaultTurn (s : State) : Option Turn :=
  if s.cfgIn ≠ [] then some (.accept .cfg)
  else if s.esIn ≠ [] ∧ s.encCnt = 0 then some (.accept .es)
  else if s.dbIn ≠ [] then some (.accept .db)
  else if s.encCnt ≠ 0 then some .shift
  else none

/-- One step: the schedule's next turn, or the default turn when the schedule is empty; with no turn to take the block rests
(60_exceptions.md R143: "a unit with nothing to do simply has no enabled step"). -/
def nextStep (s : State) : Host.Outcome State Fault Refusal :=
  match s.sched with
  | t :: ts => takeTurn t (s.withSched ts)
  | [] =>
    match defaultTurn s with
    | some t => takeTurn t s
    | none => .next s

/-- The host presents the opcode-table word `w` on the port its width names, to be accepted by the very next step (log 12, 13). -/
def presentTableWord (nbits w : Nat) (s : State) : State := presentNow (tablePort nbits) w s

end Sys2Proof.Machine
end

