-- ==== Sys2Proof/Machine/Step.lean ====
section
/-! DEFINITION. The step of the machine, and the host's way to place a word of the opcode table before it. -/

namespace Sys2Proof.Machine

/-- One step of the block (Machine/Turn.lean). -/
def step (s : State) : Host.Outcome State Fault Refusal := nextStep s

/-- The state in which the op word `w` stands where the next step takes its op from (log 12, 13). -/
def State.withFetchWord (s : State) (nbits w : Nat) : State := presentTableWord nbits w s

end Sys2Proof.Machine
end

