-- ==== Sys2Proof/Machine/Framing.lean ====
section
/-! DEFINITION. What is read from the log of an output port: the history of 00_scope.md R8, and the messages a consumer takes from it
(42_encoder.md R100, 43_decoder.md R115, 70_reset_and_hazards.md R164). Observation only: no step reads it. -/

namespace Sys2Proof.Machine

/-- One entry more for a history: an event is added, a reset begins it anew, a CLR op changes nothing (R8 "since reset"; U16). -/
def historyEntry {ε : Type} (h : List ε) (x : LogEntry ε) : List ε :=
  match x with
  | .event e => h ++ [e]
  | .mark .clr => h
  | .mark .reset => []

/-- The events of a log since the last reset, oldest first. -/
def history {ε : Type} (log : List (LogEntry ε)) : List ε := log.foldl historyEntry []

/-- EB_HIST (00_scope.md R8). -/
def State.ebHist (s : State) : List EbEvent := history s.ebLog

/-- DS_HIST (00_scope.md R8). -/
def State.dsHist (s : State) : List DsEvent := history s.dsLog

/-- A log read as messages: the ones an End closed, and the items since the last End or mark, which no End closes yet. -/
structure Framing (α : Type) where
  results : List (List α)
  unfinished : List α
deriving DecidableEq, Repr

/-- The items no End closes yet are discarded; a result stays. -/
def Framing.abandon {α : Type} (f : Framing α) : Framing α := { f with unfinished := [] }

/-- One entry more: an item is added to the unfinished message, an End makes that message a result, and a mark abandons it. `item` is
what an event carries, none for End. -/
def frameEntry {ε α : Type} (item : ε → Option α) (f : Framing α) (x : LogEntry ε) : Framing α :=
  match x with
  | .event e =>
    match item e with
    | some a => { f with unfinished := f.unfinished ++ [a] }
    | none => ⟨f.results ++ [f.unfinished], []⟩
  | .mark _ => f.abandon

/-- A whole log read as messages. -/
def frame {ε α : Type} (item : ε → Option α) (log : List (LogEntry ε)) : Framing α := log.foldl (frameEntry item) ⟨[], []⟩

/-- The bit an EB event carries. -/
def EbEvent.item : EbEvent → Option Bool
  | .bit b => some b
  | .done => none

/-- The symbol a DS event carries. -/
def DsEvent.item : DsEvent → Option Symbol
  | .sym s => some s
  | .done => none

/-- The encoded bit-strings on EB (42_encoder.md R100). A fault abandons the unfinished one: no End follows it before the CLR op or reset
that marks the log, and the host sees the fault on the status pins (70_reset_and_hazards.md R164). -/
def State.ebMessages (s : State) : Framing Bool :=
  if s.encErr.isSome then (frame EbEvent.item s.ebLog).abandon else frame EbEvent.item s.ebLog

/-- The decoded symbol sequences on DS (43_decoder.md R115), read the same way. -/
def State.dsMessages (s : State) : Framing Symbol :=
  if s.decErr.isSome then (frame DsEvent.item s.dsLog).abandon else frame DsEvent.item s.dsLog

end Sys2Proof.Machine
end

