-- ==== Sys2Proof/Machine/HostTables.lean ====
section
/-! DEFINITION. The host-side reference procedures of 40_table_construction.md: no hardware, but the only definition of a well-formed
table and of what encoding and decoding compute (R65 to R81). Weights and counts are natural numbers without bound (R81).

The TreeBuilder's insertion sequence number is kept in each node, because it is also the node's index in TM (R77; log 20). -/

namespace Sys2Proof.Machine

/-- The document's error taxonomy, as the procedures fail with it (00_scope.md R9). -/
inductive HostError where
  | emptyInput
  | argument
  | unknownSymbol
  | malformed
deriving DecidableEq, Repr

/-- A TreeNode: a Leaf or an Internal node, with its weight and its insertion sequence number (00_scope.md R9, R66). -/
inductive TreeNode where
  | leaf (sym : Symbol) (weight seq : Nat)
  | internal (weight seq : Nat) (left right : TreeNode)
deriving DecidableEq, Repr

def TreeNode.weight : TreeNode → Nat
  | .leaf _ w _ => w
  | .internal w _ _ _ => w

def TreeNode.seq : TreeNode → Nat
  | .leaf _ _ q => q
  | .internal _ q _ _ => q

/-- `freqTable(S)`: the number of occurrences of each symbol that occurs (R65). Kept by symbol, so it holds no order of occurrence. -/
def freqTable : List Symbol → Memory Nat
  | [] => []
  | s :: rest => Memory.write (freqTable rest) s ((Memory.read (freqTable rest) s).getD 0 + 1)

/-- The default LEAF_ORDER: the distinct symbols in the order of their first occurrence (00_scope.md R4, 92_eei_decisions.md D8). -/
def firstOccurrence : List Symbol → List Symbol
  | [] => []
  | s :: rest => s :: (firstOccurrence rest).filter (fun x => decide (x ≠ s))

/-- `order` is a LEAF_ORDER for `S`: it holds each distinct symbol of `S` once (00_scope.md R4). -/
def IsLeafOrder (order S : List Symbol) : Prop := order.Nodup ∧ ∀ s, s ∈ order ↔ s ∈ S

/-- The queue's order: least weight first, ties by insertion order (R67). -/
def comesFirst (a b : TreeNode) : Bool :=
  decide (a.weight < b.weight ∨ (a.weight = b.weight ∧ a.seq < b.seq))

/-- `removeMin(Q)`: the first node in that order and the rest of the queue (R67). -/
def removeMin : List TreeNode → Option (TreeNode × List TreeNode)
  | [] => none
  | t :: ts =>
    match removeMin ts with
    | none => some (t, [])
    | some (m, rest) => if comesFirst m t then some (m, t :: rest) else some (t, ts)

/-- The initial leaves, numbered in the order they are inserted (R66 step 1). -/
def leavesFrom : Nat → List (Symbol × Nat) → List TreeNode
  | _, [] => []
  | k, (s, w) :: es => .leaf s w k :: leavesFrom (k + 1) es

/-- The merge loop (R66 steps 2 and 3). `fuel` counts the nodes in the queue; `seq` is the next sequence number. -/
def mergeLoop : (fuel seq : Nat) → List TreeNode → Option TreeNode
  | 0, _, _ => none
  | fuel + 1, seq, q =>
    match removeMin q with
    | none => none
    | some (a, q1) =>
      match removeMin q1 with
      | none => some a
      | some (b, q2) => mergeLoop fuel (seq + 1) (q2 ++ [.internal (a.weight + b.weight) seq a b])

/-- The TreeBuilder on frequency entries in the order their leaves are inserted (R66 to R70): no entry fails EmptyInputError, a count
of 0 fails ArgumentError. -/
def treeBuilder (entries : List (Symbol × Nat)) : Except HostError TreeNode :=
  if entries.any (fun e => decide (e.2 = 0)) then .error .argument
  else
    match mergeLoop entries.length entries.length (leavesFrom 0 entries) with
    | some t => .ok t
    | none => .error .emptyInput

/-- `buildTree(S)` with a given LEAF_ORDER (R66, R69). -/
def buildTreeIn (order S : List Symbol) : Except HostError TreeNode :=
  if S = [] then .error .emptyInput
  else treeBuilder (order.map fun s => (s, (Memory.read (freqTable S) s).getD 0))

/-- `buildTree(S)` with the default LEAF_ORDER (R66). -/
def buildTree (S : List Symbol) : Except HostError TreeNode := buildTreeIn (firstOccurrence S) S

/-- `walk(node, acc)` of the CodeMapper: 0 appended going left, 1 going right, left before right (R71). -/
def recordCodes : TreeNode → BitString → Memory BitString → Memory BitString
  | .leaf s _ _, acc, m => Memory.write m s acc
  | .internal _ _ l r, acc, m => recordCodes r (acc ++ [true]) (recordCodes l (acc ++ [false]) m)

/-- `buildCodeMapping(root)`: a null root fails ArgumentError (R73), a lone Leaf gets the convention Code "0" (R72), and every call
starts from a new empty mapping (R71, R80). -/
def buildCodeMapping : Option TreeNode → Except HostError (Memory BitString)
  | none => .error .argument
  | some (.leaf s _ _) => .ok [(s, [false])]
  | some (.internal w q l r) => .ok (recordCodes (.internal w q l r) [] [])

/-- `encode(S, M)`: the Codes of the symbols, one after the other (R74). -/
def refEncode (M : Memory BitString) : List Symbol → Except HostError BitString
  | [] => .ok []
  | s :: rest =>
    match M.read s with
    | none => .error .unknownSymbol
    | some c =>
      match refEncode M rest with
      | .ok x => .ok (c ++ x)
      | .error e => .error e

/-- One bit of the reference decoder at an Internal node `p`: the symbol emitted, if any, and the next pointer (R75). The pointer of R75
never rests on a Leaf. -/
def walkBit (root p : TreeNode) (b : Bool) : Option Symbol × TreeNode :=
  match p with
  | .leaf _ _ _ => (none, p)
  | .internal _ _ l r =>
    match if b then r else l with
    | .leaf s _ _ => (some s, root)
    | .internal w q l' r' => (none, .internal w q l' r')

/-- The loop of R75 from the pointer `p`: the symbols of the Codes completed, and where the pointer ends. -/
def walkBits (root : TreeNode) : TreeNode → BitString → List Symbol × TreeNode
  | p, [] => ([], p)
  | p, b :: bs =>
    let next := walkBit root p b
    let rest := walkBits root next.2 bs
    (next.1.toList ++ rest.1, rest.2)

/-- `decode(B, root)` (R75): null root ArgumentError, lone Leaf one symbol a bit, pointer not back at the root MalformedEncodingError. -/
def refDecode (B : BitString) : Option TreeNode → Except HostError (List Symbol)
  | none => .error .argument
  | some (.leaf s _ _) => .ok (List.replicate B.length s)
  | some (.internal w q l r) =>
    let root := TreeNode.internal w q l r
    if (walkBits root root B).2 = root then .ok (walkBits root root B).1 else .error .malformed

/-- `ctImage(M)`: the CT contents that hold the mapping; it exists only when every Code has length 1 .. LEN_MAX (R76). -/
def ctImage (p : Params) (M : Memory BitString) : Option (Memory CtEntry) :=
  if M.all (fun e => decide (1 ≤ e.2.length) && decide (e.2.length ≤ p.lenMax)) then
    some (M.map fun e => (e.1, ⟨e.2.length, val e.2⟩))
  else none

/-- A node as a TM entry, its children named by their sequence numbers (R77). -/
def TreeNode.entry : TreeNode → TmEntry
  | .leaf s _ _ => .leaf s
  | .internal _ _ l r => .internal l.seq r.seq

/-- All nodes of a tree, children before parents. -/
def TreeNode.nodes : TreeNode → List TreeNode
  | .leaf s w q => [.leaf s w q]
  | .internal w q l r => l.nodes ++ r.nodes ++ [.internal w q l r]

/-- `tmImage(root)`: the TM contents that hold the tree, each node at its sequence number; the root register then holds `root.seq` (R77). -/
def tmImage (root : TreeNode) : Memory TmEntry :=
  root.nodes.foldl (fun m n => Memory.write m n.seq n.entry) []

/-- The symbols of the leaves, with the path from the root to each: 0 for left, 1 for right (30_encoding.md R45). -/
def TreeNode.paths : TreeNode → List (Symbol × BitString)
  | .leaf s _ _ => [(s, [])]
  | .internal _ _ l r =>
    l.paths.map (fun e => (e.1, false :: e.2)) ++ r.paths.map (fun e => (e.1, true :: e.2))

/-- The symbols of the leaves, left before right. -/
def TreeNode.symbols (t : TreeNode) : List Symbol := t.paths.map (·.1)

/-- The indices of the nodes. -/
def TreeNode.indices (t : TreeNode) : List NodeIdx := t.nodes.map TreeNode.seq

/-- Every Internal node's weight is the sum of its children's (R66, R79 weight invariant). -/
def TreeNode.WeightsAdd : TreeNode → Prop
  | .leaf _ _ _ => True
  | .internal w _ l r => w = l.weight + r.weight ∧ l.WeightsAdd ∧ r.WeightsAdd

/-- The Code a CodeMapper gives a path: the path itself, or the convention "0" when the root is itself the Leaf (R71, R72). -/
def codeOfPath (path : BitString) : BitString := if path = [] then [false] else path

/-- TM holds the tree: every node stands at its index (R77). -/
def TreeNode.HeldBy (tm : Memory TmEntry) (t : TreeNode) : Prop := ∀ n ∈ t.nodes, tm.read n.seq = some n.entry

/-- `WF_TM` with its tree named (R78 (a)): from the root register the valid entries form the finite tree `t`, no entry is reached by two
paths, and distinct leaves hold distinct symbols. The weights of `t` are not in TM and are free. -/
def WfTmAs (s : State) (t : TreeNode) : Prop :=
  s.rootV = true ∧ s.rootIdx = t.seq ∧ t.HeldBy s.tm ∧ t.indices.Nodup ∧ t.symbols.Nodup

/-- `WF_TM` (R78 (a)). -/
def WfTm (s : State) : Prop := ∃ t, WfTmAs s t

/-- `WF_CT` (R78 (b)): every valid entry has 1 <= len <= LEN_MAX, and there is exactly one valid entry or no valid entry's Code is a
prefix of another's. -/
def WfCt (s : State) : Prop :=
  (∀ e ∈ s.ct, 1 ≤ e.2.len ∧ e.2.len ≤ s.params.lenMax) ∧
  (s.ct.length = 1 ∨ ∀ a ∈ s.ct, ∀ b ∈ s.ct, a.1 ≠ b.1 → ¬ a.2.bits <+: b.2.bits)

/-- `CONSISTENT(CT, TM)` with its tree named (R78 (c)): CT holds exactly the leaves' symbols, each with its path as its Code. -/
def ConsistentAs (s : State) (t : TreeNode) : Prop :=
  WfTmAs s t ∧ WfCt s ∧
  (∀ sym, (s.ct.read sym).isSome = true ↔ sym ∈ t.symbols) ∧
  (∀ e ∈ t.paths, ∀ c, s.ct.read e.1 = some c → c.bits = codeOfPath e.2)

/-- `CONSISTENT(CT, TM)` (R78 (c)). -/
def Consistent (s : State) : Prop := ∃ t, ConsistentAs s t

/-- The total encoded length of a message with the frequencies `F` under a code: the sum of freq(s) * len(code(s)) (R79). -/
def encodedLength (F : Memory Nat) (C : Memory BitString) : Nat := (F.map fun e => e.2 * ((C.read e.1).getD []).length).sum

/-- A code for the symbols of `F`: each has a non-empty Code (R72), and no Code is a prefix of another symbol's (R46). -/
def IsCodeFor (F : Memory Nat) (C : Memory BitString) : Prop :=
  (∀ e ∈ F, ∃ c, C.read e.1 = some c ∧ c ≠ []) ∧
  ∀ e ∈ F, ∀ f ∈ F, e.1 ≠ f.1 → ∀ c d, C.read e.1 = some c → C.read f.1 = some d → ¬ c <+: d

/-- `n` is the theoretical minimum of the total encoded length for the frequencies `F`: some code reaches it and none is below it (R79). -/
def IsLeastEncodedLength (F : Memory Nat) (n : Nat) : Prop :=
  (∃ C, IsCodeFor F C ∧ encodedLength F C = n) ∧ ∀ C, IsCodeFor F C → n ≤ encodedLength F C

/-- `len(text) * 8`, the fixed-width baseline (R79). -/
def fixedWidthLength (S : List Symbol) : Nat := S.length * 8

/-- The known example "abracadabra" of R79, as ASCII values (log 22). -/
def abracadabra : List Symbol := [0x61, 0x62, 0x72, 0x61, 0x63, 0x61, 0x64, 0x61, 0x62, 0x72, 0x61]

/-- The mapping CT holds: M[s] = bits_of(CT[s].len, CT[s].code) (42_encoder.md R104). -/
def mappingOf (ct : Memory CtEntry) : Memory BitString := ct.map fun e => (e.1, e.2.bits)

end Sys2Proof.Machine
end

