-- ==== Sys2Proof/Machine/HostMacros.lean ====
section
/-! DEFINITION. The macro-ops of 30_encoding.md R61 as op sequences, and how the host presents them. -/

namespace Sys2Proof.Machine

/-- `LOADMAP M` (30_encoding.md R61); the LDCODE ops in the order of the mapping's symbols (any order does, log 21). -/
def loadMap (M : Memory BitString) : List Instr :=
  .clrenc :: M.map fun e => .ldcode e.1 e.2.length (val e.2)

/-- The op that loads one node at its index. -/
def loadNode : TreeNode → Instr
  | .leaf s _ q => .ldleaf q s
  | .internal _ q l r => .ldint q l.seq r.seq

/-- `LOADTREE T` (30_encoding.md R61); children before parents (any order does, log 21). -/
def loadTreeOps (root : TreeNode) : List Instr :=
  .clrdec :: (root.nodes.map loadNode ++ [.setroot root.seq])

/-- `ENCODE S` (30_encoding.md R61). -/
def encodeOps (S : List Symbol) : List Instr := S.map .encsym ++ [.encend]

/-- `DECODE B` (30_encoding.md R61). -/
def decodeOps (B : BitString) : List Instr := B.map .decbit ++ [.decend]

/-- Ops performed one after the other. -/
def execAll : List Instr → State → Host.Outcome State Fault Refusal
  | [], s => .next s
  | i :: is, s =>
    match exec i s with
    | .next t => execAll is t
    | .fault r => .fault r
    | .refused r => .refused r

/-- The host presents ops on a port, behind those already waiting there. -/
def present (port : Port) (is : List Instr) (s : State) : State :=
  s.withInput port (s.input port ++ is.map (encode s.params))

/-- The loop-back wiring: each EB word presented unchanged on DB (20_memory.md R41, 30_encoding.md R55). -/
def loopBack (events : List EbEvent) (s : State) : State :=
  s.withInput .db (s.dbIn ++ events.map EbEvent.word)

end Sys2Proof.Machine
end

