-- ==== Sys2Proof/Safety.lean ====
section
/-! DEFINITION. What claims are stated in: the end of a run and a good end (70_reset_and_hazards.md R159), and the invariants of the
reachable states (10_state.md R22). -/

namespace Sys2Proof.Machine

/-- `k` steps of the machine, through the host's interface. -/
def run (k : Nat) (s : State) : Host.Outcome State Fault Refusal := Host.Core.run Sys2Proof.core k s

/-- A run is over: every presented op has been accepted and no bit is pending (70_reset_and_hazards.md R159). -/
def State.runOver (s : State) : Bool :=
  s.cfgIn.isEmpty && s.esIn.isEmpty && s.dbIn.isEmpty && decide (s.encCnt = 0)

/-- A final state is good when no unit is FAULTED and no message is open (70_reset_and_hazards.md R159). -/
def State.good (s : State) : Bool :=
  s.encErr.isNone && s.decErr.isNone && !s.encActive && !s.decActive

/-- 10_state.md R22 (a), with its contrapositive (b): a pending bit means a message in progress and no fault. -/
def PendingOnlyWhileActive (s : State) : Prop :=
  s.encCnt ≠ 0 → s.encErr = none ∧ s.encActive = true

/-- 10_state.md R22 (c): ENC_CNT <= LEN_MAX, and every pending bit comes from one valid CT entry. -/
def PendingFromTable (s : State) : Prop :=
  s.encCnt ≤ s.params.lenMax ∧
  (s.encCnt ≠ 0 → ∃ sym e, s.ct.read sym = some e ∧ s.encSr = e.code ∧ s.encCnt ≤ e.len)

/-- 10_state.md R22 (d): between messages, with a root set and no fault, the pointer is at the root. -/
def IdleAtRoot (s : State) : Prop :=
  s.rootV = true ∧ s.decActive = false ∧ s.decErr = none → s.decPtr = s.rootIdx

/-- 10_state.md R22 (e): with no root set no message is in progress, or the unit is FAULTED. -/
def NoMessageWithoutRoot (s : State) : Prop :=
  s.rootV = false → s.decActive = false ∨ s.decErr ≠ none

/-- 10_state.md R22 (f): during a message the root entry is a Leaf and the pointer is at it, or it is Internal and the pointer is at a
valid Internal entry. -/
def PointerOnTree (s : State) : Prop :=
  s.decErr = none ∧ s.decActive = true →
    (∃ sym, s.tm.read s.rootIdx = some (.leaf sym) ∧ s.decPtr = s.rootIdx) ∨
    (∃ l r l' r', s.tm.read s.rootIdx = some (.internal l r) ∧ s.tm.read s.decPtr = some (.internal l' r'))

/-- The tables are in canonical form. -/
def TablesWf (s : State) : Prop := Memory.wf s.ct ∧ Memory.wf s.tm

/-- Every CT entry has a length LDCODE accepts: 1 .. LEN_MAX (10_state.md R11, 41_config_ops.md R87). -/
def CodeLengthsLegal (s : State) : Prop := ∀ e ∈ s.ct, 1 ≤ e.2.len ∧ e.2.len ≤ s.params.lenMax

/-- The node's fields fit (10_state.md R14). -/
def TmEntry.fits (p : Params) : TmEntry → Prop
  | .leaf sym => sym < p.ctN
  | .internal l r => l < p.nodeN ∧ r < p.nodeN

/-- Every register and table entry is within its width (10_state.md R10 to R17, 20_memory.md R30). -/
def WidthsHold (s : State) : Prop :=
  (∀ e ∈ s.ct, e.1 < s.params.ctN ∧ e.2.code < 2 ^ s.params.lenMax) ∧
  s.encSr < 2 ^ s.params.lenMax ∧
  (∀ e ∈ s.tm, e.1 < s.params.nodeN ∧ e.2.fits s.params) ∧
  s.rootIdx < s.params.nodeN ∧ s.decPtr < s.params.nodeN

/-- Each unit holds only fault codes raised in it (60_exceptions.md R130). -/
def FaultsInPlace (s : State) : Prop :=
  (∀ f, s.encErr = some f → f.raisedIn .enc = true) ∧ (∀ f, s.decErr = some f → f.raisedIn .dec = true)

/-- Items that no End has closed yet are there only while a message is in progress (42_encoder.md R100, 43_decoder.md R115,
70_reset_and_hazards.md R164). -/
def UnfinishedOnlyWhileActive (s : State) : Prop :=
  (s.encActive = false → s.ebMessages.unfinished = []) ∧ (s.decActive = false → s.dsMessages.unfinished = [])

/-- The invariant of the block: everything above together. -/
structure State.Inv (s : State) : Prop where
  pendingOnlyWhileActive : PendingOnlyWhileActive s
  pendingFromTable : PendingFromTable s
  idleAtRoot : IdleAtRoot s
  noMessageWithoutRoot : NoMessageWithoutRoot s
  pointerOnTree : PointerOnTree s
  tablesWf : TablesWf s
  codeLengthsLegal : CodeLengthsLegal s
  widthsHold : WidthsHold s
  faultsInPlace : FaultsInPlace s
  unfinishedOnlyWhileActive : UnfinishedOnlyWhileActive s

/-- The hardware fields of the encoder unit stand as in `s` (10_state.md R10, first five rows). -/
def SameEncoder (s t : State) : Prop :=
  t.ct = s.ct ∧ t.encSr = s.encSr ∧ t.encCnt = s.encCnt ∧ t.encActive = s.encActive ∧ t.encErr = s.encErr

/-- The hardware fields of the decoder unit stand as in `s` (10_state.md R10, the other six rows). -/
def SameDecoder (s t : State) : Prop :=
  t.tm = s.tm ∧ t.rootV = s.rootV ∧ t.rootIdx = s.rootIdx ∧ t.decPtr = s.decPtr ∧ t.decActive = s.decActive ∧ t.decErr = s.decErr

/-- The encoder unit is in its reset state (10_state.md R23). -/
def EncoderReset (s : State) : Prop :=
  s.ct = [] ∧ s.encSr = 0 ∧ s.encCnt = 0 ∧ s.encActive = false ∧ s.encErr = none

/-- The decoder unit is in its reset state (10_state.md R23). -/
def DecoderReset (s : State) : Prop :=
  s.tm = [] ∧ s.rootV = false ∧ s.rootIdx = 0 ∧ s.decPtr = 0 ∧ s.decActive = false ∧ s.decErr = none

end Sys2Proof.Machine
end

