-- ==== Sys2Proof/Certificates/Slice0/Obligations.lean ====
section
/-! DEFINITION. The statements for the provers. Each formalises the rules its docstring names; where a clause rests on a choice of the
model it says so. No statement depends on the schedule's value: a schedule is quantified over wherever it matters. -/

open Sys2Proof Sys2Proof.Machine

/-! ### Encodings -/

/-- Every well-formed op is read back from its word, with every operand (30_encoding.md R51, R53, R54), for all parameters. -/
def Obligations.DecodeEncodeAgree : Prop :=
  ∀ (p : Params) (i : Instr), i.wellFormed p = true → decode p i.port (encode p i) = .ok i

/-- What is read from a port is an op of that port whose operands fit their fields (30_encoding.md R52, R57). -/
def Obligations.DecodedOpsAreWellFormed : Prop :=
  ∀ (p : Params) (port : Port) (w : OpWord) (i : Instr), decode p port w = .ok i → i.wellFormed p = true ∧ i.port = port

/-- Ignored bits may hold anything without effect (30_encoding.md R58). -/
def Obligations.IgnoredBitsHaveNoEffect : Prop :=
  ∀ (p : Params) (port : Port) (w w' : OpWord) (i : Instr), decode p port w = .ok i → w' < 2 ^ p.portWidth port →
    (∀ k, k < opBits p i → w'.testBit k = w.testBit k) → decode p port w' = .ok i

/-- Exactly one row of the opcode map matches a word of a port, and it names the op decoded and its unit (30_encoding.md R52). -/
def Obligations.EveryWordMatchesOneRow : Prop :=
  ∀ (p : Params) (port : Port) (w : OpWord) (i : Instr), decode p port w = .ok i →
    ∃ r, opcodeMap.filter (fun r => r.selects port w) = [r] ∧ r.mnemonic = i.mnemonic ∧ r.unit = i.unit

/-- What a word of each port is read as: the opcode bits choose the op, the operands are the contiguous unsigned fields above them, packed
upward without gaps in assembler order, and no other bit matters; bit 2 of a CFG word is the unit (30_encoding.md R51, R53, R54). -/
def Obligations.WordsAreReadByFields : Prop :=
  ∀ (p : Params) (w : OpWord),
    (w < 2 ^ p.portWidth .cfg →
      (∀ i, decode p .cfg w = .ok i → i.unit = if w.testBit 2 then .dec else .enc) ∧
      (w % 8 = 0 → decode p .cfg w = .ok .clrenc) ∧
      (w % 8 = 1 → decode p .cfg w = .ok (.ldcode (w / 2 ^ 3 % 2 ^ p.symW) (w / 2 ^ (p.symW + 3) % 2 ^ p.lenW)
        (w / 2 ^ (p.symW + p.lenW + 3) % 2 ^ p.lenMax))) ∧
      (w % 8 = 2 → decode p .cfg w = .ok .reserved010) ∧
      (w % 8 = 3 → decode p .cfg w = .ok .reserved011) ∧
      (w % 8 = 4 → decode p .cfg w = .ok .clrdec) ∧
      (w % 8 = 5 → decode p .cfg w = .ok (.ldleaf (w / 2 ^ 3 % 2 ^ p.nodeAw) (w / 2 ^ (p.nodeAw + 3) % 2 ^ p.symW))) ∧
      (w % 8 = 6 → decode p .cfg w = .ok (.ldint (w / 2 ^ 3 % 2 ^ p.nodeAw) (w / 2 ^ (p.nodeAw + 3) % 2 ^ p.nodeAw)
        (w / 2 ^ (2 * p.nodeAw + 3) % 2 ^ p.nodeAw))) ∧
      (w % 8 = 7 → decode p .cfg w = .ok (.setroot (w / 2 ^ 3 % 2 ^ p.nodeAw)))) ∧
    (w < 2 ^ (1 + p.symW) →
      (w % 2 = 0 → decode p .es w = .ok (.encsym (w / 2 % 2 ^ p.symW))) ∧ (w % 2 = 1 → decode p .es w = .ok .encend)) ∧
    decode p .db 0b00 = .ok (.decbit false) ∧ decode p .db 0b10 = .ok (.decbit true) ∧
    decode p .db 0b01 = .ok .decend ∧ decode p .db 0b11 = .ok .decend

/-- Words written out in the spec's rules and vectors decode to the ops they stand for (30_encoding.md R51 to R54, 95_test_vectors.md). -/
def Obligations.SpecWordsDecode : Prop :=
  decode Params.default .cfg 0x0 = .ok .clrenc ∧
  decode Params.default .cfg 0x301B11 = .ok (.ldcode 0x62 3 6) ∧
  decode Params.default .cfg 0x2 = .ok .reserved010 ∧
  decode Params.default .cfg 0xFFFFF3 = .ok .reserved011 ∧
  decode Params.default .cfg 0x4 = .ok .clrdec ∧
  decode Params.default .cfg 0x61005 = .ok (.ldleaf 0 0x61) ∧
  decode Params.default .cfg 0xE00046 = .ok (.ldint 8 0 7) ∧
  decode Params.default .cfg 0x47 = .ok (.setroot 8) ∧
  decode Params.default .es 0x0C2 = .ok (.encsym 0x61) ∧
  decode Params.default .es 0x001 = .ok .encend ∧
  decode Params.default .db 0b10 = .ok (.decbit true) ∧
  decode Params.default .db 0b11 = .ok .decend

/-- The words of EB and DS: bit 0 the kind, the bit or the symbol above it, 0 there for End, within the port's width. An EB word is bit
for bit the DB word of the same bit or end, and a DS word the ES word of the same symbol or end, and they decode to them, so EB can be
wired to DB (30_encoding.md R55, R56). -/
def Obligations.OutputWordsAreInputWords : Prop :=
  EbEvent.word (.bit false) = 0b00 ∧ EbEvent.word (.bit true) = 0b10 ∧ EbEvent.word .done = 0b01 ∧ DsEvent.word .done = 0b01 ∧
  ∀ p : Params,
    (∀ b : Bool, EbEvent.word (.bit b) = encode p (.decbit b) ∧ decode p .db (EbEvent.word (.bit b)) = .ok (.decbit b)) ∧
    EbEvent.word .done = encode p .decend ∧ decode p .db (EbEvent.word .done) = .ok .decend ∧
    (∀ sym, sym < 2 ^ p.symW →
      DsEvent.word (.sym sym) = 2 * sym ∧ DsEvent.word (.sym sym) < 2 ^ (1 + p.symW) ∧
      DsEvent.word (.sym sym) = encode p (.encsym sym) ∧ decode p .es (DsEvent.word (.sym sym)) = .ok (.encsym sym)) ∧
    DsEvent.word .done = encode p .encend ∧ decode p .es (DsEvent.word .done) = .ok .encend

/-- The Code of a CT entry is `bits_of(len, code)`: element k is bit len-1-k of the code field, bits at and above len are ignored, and
`val` is its inverse (30_encoding.md R48, 00_scope.md R8). -/
def Obligations.CodeFieldHoldsTheCode : Prop :=
  (∀ e : CtEntry, e.bits.length = e.len ∧ ∀ k, k < e.len → e.bits[k]? = some (e.code.testBit (e.len - 1 - k))) ∧
  (∀ len code : Nat, (CtEntry.mk len code).bits = (CtEntry.mk len (code % 2 ^ len)).bits) ∧
  (∀ c : BitString, (CtEntry.mk c.length (val c)).bits = c ∧ val c < 2 ^ c.length)

/-! ### What each op does -/

/-- CLRENC is accepted in every state and leaves the encoder's reset state, every symbol unknown and ENC_STAT 0, without an event; it is
the only op that leaves the FAULTED state of the encoder (41_config_ops.md R86). The mark in the
log is the model's, not the rule's (log 14). -/
def Obligations.ClrencClearsEncoder : Prop :=
  (∀ s : State, held .clrenc s = false ∧
    ∃ t, exec .clrenc s = .next t ∧
      t = { s with
        ct := [], encSr := 0, encCnt := 0, encActive := false, encErr := none, ebLog := s.ebLog ++ [.mark .clr] } ∧
      t.ebHist = s.ebHist ∧ t.encStat = 0 ∧ (∀ sym, t.ct.read sym = none) ∧ EncoderReset t) ∧
  (∀ (i : Instr) (s t : State), exec i s = .next t → s.encErr ≠ none → t.encErr = none → i = .clrenc)

/-- LDCODE: dropped when FAULTED, then TableBusy during a message, then Argument for a length outside 1 .. LEN_MAX, else the entry is
written, replacing an old one, and no other entry and no other register changes (41_config_ops.md R87). -/
def Obligations.LdcodeLoadsOrFaults : Prop :=
  ∀ (sym : Symbol) (len code : Nat) (s : State),
    (s.encErr ≠ none → exec (.ldcode sym len code) s = .next s) ∧
    (s.encErr = none → s.encActive = true →
      exec (.ldcode sym len code) s = .next { s with encErr := some .tableBusy, encCnt := 0 }) ∧
    (s.encErr = none → s.encActive = false → len = 0 ∨ s.params.lenMax < len →
      exec (.ldcode sym len code) s = .next { s with encErr := some .argument, encCnt := 0 }) ∧
    (s.encErr = none → s.encActive = false → 1 ≤ len → len ≤ s.params.lenMax →
      ∃ t, exec (.ldcode sym len code) s = .next t ∧ t.ct.read sym = some ⟨len, code⟩ ∧
        (∀ a, a ≠ sym → t.ct.read a = s.ct.read a) ∧ t = { s with ct := t.ct })

/-- The reserved opcodes always raise IllegalOp in the encoder, unless it is already FAULTED (41_config_ops.md R88). -/
def Obligations.ReservedOpcodesRaiseIllegalOp : Prop :=
  ∀ s : State,
    (s.encErr ≠ none → exec .reserved010 s = .next s ∧ exec .reserved011 s = .next s) ∧
    (s.encErr = none →
      exec .reserved010 s = .next { s with encErr := some .illegalOp, encCnt := 0 } ∧
      exec .reserved011 s = .next { s with encErr := some .illegalOp, encCnt := 0 })

/-- CLRDEC is accepted in every state and leaves the decoder's reset state, the tree empty, the root null and DEC_STAT 0, without an
event; it is the only op that leaves the FAULTED state of the decoder (41_config_ops.md R89). The mark in the
log is the model's, not the rule's (log 14). -/
def Obligations.ClrdecClearsDecoder : Prop :=
  (∀ s : State, held .clrdec s = false ∧
    ∃ t, exec .clrdec s = .next t ∧
      t = { s with
        tm := [], rootV := false, rootIdx := 0, decPtr := 0, decActive := false, decErr := none,
        dsLog := s.dsLog ++ [.mark .clr] } ∧
      t.dsHist = s.dsHist ∧ t.decStat = 0 ∧ t.rootNull = true ∧ (∀ i, t.tm.read i = none) ∧ DecoderReset t) ∧
  (∀ (i : Instr) (s t : State), exec i s = .next t → s.decErr ≠ none → t.decErr = none → i = .clrdec)

/-- LDLEAF: dropped when FAULTED, TableBusy during a message, else TM[idx] becomes the Leaf, replacing an old entry, and nothing else
changes (41_config_ops.md R90). -/
def Obligations.LdleafWritesLeaf : Prop :=
  ∀ (idx : NodeIdx) (sym : Symbol) (s : State),
    (s.decErr ≠ none → exec (.ldleaf idx sym) s = .next s) ∧
    (s.decErr = none → s.decActive = true → exec (.ldleaf idx sym) s = .next { s with decErr := some .tableBusy }) ∧
    (s.decErr = none → s.decActive = false →
      ∃ t, exec (.ldleaf idx sym) s = .next t ∧ t.tm.read idx = some (.leaf sym) ∧
        (∀ a, a ≠ idx → t.tm.read a = s.tm.read a) ∧ t = { s with tm := t.tm })

/-- LDINT: dropped when FAULTED, TableBusy during a message, else TM[idx] becomes the Internal node, whether or not its children are
loaded, and nothing else changes (41_config_ops.md R91). -/
def Obligations.LdintWritesInternal : Prop :=
  ∀ (idx left right : NodeIdx) (s : State),
    (s.decErr ≠ none → exec (.ldint idx left right) s = .next s) ∧
    (s.decErr = none → s.decActive = true → exec (.ldint idx left right) s = .next { s with decErr := some .tableBusy }) ∧
    (s.decErr = none → s.decActive = false →
      ∃ t, exec (.ldint idx left right) s = .next t ∧ t.tm.read idx = some (.internal left right) ∧
        (∀ a, a ≠ idx → t.tm.read a = s.tm.read a) ∧ t = { s with tm := t.tm })

/-- SETROOT: dropped when FAULTED, TableBusy during a message, else the root and the pointer are set without a look at TM
(41_config_ops.md R92). -/
def Obligations.SetrootNamesRoot : Prop :=
  ∀ (idx : NodeIdx) (s : State),
    (s.decErr ≠ none → exec (.setroot idx) s = .next s) ∧
    (s.decErr = none → s.decActive = true → exec (.setroot idx) s = .next { s with decErr := some .tableBusy }) ∧
    (s.decErr = none → s.decActive = false →
      exec (.setroot idx) s = .next { s with rootV := true, rootIdx := idx, decPtr := idx })

/-- ENCSYM: held while a bit is pending, then dropped when FAULTED, then UnknownSymbol for a symbol with no entry, else the Code goes to
the serializer and the message is open; it emits nothing itself (42_encoder.md R101). -/
def Obligations.EncsymTakesSymbol : Prop :=
  ∀ (sym : Symbol) (s : State),
    (s.encCnt ≠ 0 → held (.encsym sym) s = true ∧ exec (.encsym sym) s = .next s) ∧
    (s.encCnt = 0 → held (.encsym sym) s = false) ∧
    (s.encCnt = 0 → s.encErr ≠ none → exec (.encsym sym) s = .next s) ∧
    (s.encCnt = 0 → s.encErr = none → s.ct.read sym = none →
      exec (.encsym sym) s = .next { s with encErr := some .unknownSymbol }) ∧
    (∀ e, s.encCnt = 0 → s.encErr = none → s.ct.read sym = some e →
      exec (.encsym sym) s = .next { s with encSr := e.code, encCnt := e.len, encActive := true })

/-- SHIFT is enabled iff ENC_CNT != 0; it emits bit ENC_CNT-1 of ENC_SR, the next pending bit, takes 1 from ENC_CNT and changes nothing
else; a SHIFT turn when it is not enabled does nothing (42_encoder.md R102; that such a turn exists is the model's, log 9). -/
def Obligations.ShiftSendsOneBit : Prop :=
  ∀ (s : State) (ts : List Turn), s.sched = .shift :: ts →
    (s.encCnt = 0 → step s = .next { s with sched := ts }) ∧
    (s.encCnt ≠ 0 →
      ∃ t, step s = .next t ∧
        t = { s with sched := ts, ebLog := s.ebLog ++ [.event (.bit (s.encSr.testBit (s.encCnt - 1)))], encCnt := s.encCnt - 1 } ∧
        s.pending = s.encSr.testBit (s.encCnt - 1) :: t.pending)

/-- ENCEND: held while a bit is pending, then dropped when FAULTED, else it emits End, also for an empty message, and closes the message;
CT is not touched (42_encoder.md R103). -/
def Obligations.EncendClosesMessage : Prop :=
  ∀ s : State,
    (s.encCnt ≠ 0 → held .encend s = true ∧ exec .encend s = .next s) ∧
    (s.encCnt = 0 → held .encend s = false) ∧
    (s.encCnt = 0 → s.encErr ≠ none → exec .encend s = .next s) ∧
    (s.encCnt = 0 → s.encErr = none → exec .encend s = .next { s with ebLog := s.ebLog ++ [.event .done], encActive := false })

/-- DECBIT: never held; dropped when FAULTED; Argument and nothing else when the root is null; one Sym of the root's symbol when the root
is a Leaf; from an Internal root the child the bit selects: Argument and nothing else when it is absent, or when the current entry is no
valid Internal one; a Leaf emits its symbol and returns the pointer to the root; an Internal one becomes the pointer (43_decoder.md R117). -/
def Obligations.DecbitWalksTree : Prop :=
  ∀ (b : Bool) (s : State),
    held (.decbit b) s = false ∧
    (s.decErr ≠ none → exec (.decbit b) s = .next s) ∧
    (s.decErr = none → s.rootV = false ∨ s.tm.read s.rootIdx = none →
      exec (.decbit b) s = .next { s with decErr := some .argument }) ∧
    (∀ sym, s.decErr = none → s.rootV = true → s.tm.read s.rootIdx = some (.leaf sym) →
      exec (.decbit b) s = .next { s with dsLog := s.dsLog ++ [.event (.sym sym)], decActive := true }) ∧
    (∀ l r, s.decErr = none → s.rootV = true → s.tm.read s.rootIdx = some (.internal l r) →
      (s.tm.read s.decPtr = none ∨ (∃ sym, s.tm.read s.decPtr = some (.leaf sym)) →
        exec (.decbit b) s = .next { s with decErr := some .argument }) ∧
      (∀ left right, s.tm.read s.decPtr = some (.internal left right) →
        (s.tm.read (if b then right else left) = none →
          exec (.decbit b) s = .next { s with decErr := some .argument }) ∧
        (∀ sym, s.tm.read (if b then right else left) = some (.leaf sym) →
          exec (.decbit b) s = .next { s with dsLog := s.dsLog ++ [.event (.sym sym)], decPtr := s.rootIdx, decActive := true }) ∧
        (∀ l' r', s.tm.read (if b then right else left) = some (.internal l' r') →
          exec (.decbit b) s = .next { s with decPtr := if b then right else left, decActive := true })))

/-- DECEND: never held; dropped when FAULTED; Argument when the root is null, before Malformed when the pointer is not at the root; else
it emits End, also for an empty message, and closes the message; a fault changes nothing else (43_decoder.md R118, R123). -/
def Obligations.DecendClosesMessage : Prop :=
  ∀ s : State,
    held .decend s = false ∧
    (s.decErr ≠ none → exec .decend s = .next s) ∧
    (s.decErr = none → s.rootV = false ∨ s.tm.read s.rootIdx = none →
      exec .decend s = .next { s with decErr := some .argument }) ∧
    (∀ e, s.decErr = none → s.rootV = true → s.tm.read s.rootIdx = some e → s.decPtr ≠ s.rootIdx →
      exec .decend s = .next { s with decErr := some .malformed }) ∧
    (∀ e, s.decErr = none → s.rootV = true → s.tm.read s.rootIdx = some e → s.decPtr = s.rootIdx →
      exec .decend s = .next { s with dsLog := s.dsLog ++ [.event .done], decActive := false })

/-- Singleton alphabet: when the root is a Leaf, k bits of any value decode to k copies of its symbol, the pointer never moves and
nothing faults (43_decoder.md R119). -/
def Obligations.SingletonDecodesEveryBit : Prop :=
  ∀ (B : BitString) (s : State) (sym : Symbol),
    s.decErr = none → s.rootV = true → s.tm.read s.rootIdx = some (.leaf sym) →
      ∃ t, execAll (B.map .decbit) s = .next t ∧
        t = { s with dsLog := s.dsLog ++ List.replicate B.length (.event (.sym sym)), decActive := s.decActive || !B.isEmpty }

/-! ### Faults, pins, reset -/

/-- The pins are views of the registers: bits 2:0 the code, then ACTIVE, then (encoder) busy (10_state.md R18). -/
def Obligations.StatusPinsShowRegisters : Prop :=
  ∀ s : State,
    s.encStat.extractLsb' 0 3 = errCode s.encErr ∧ s.encStat.getLsbD 3 = s.encActive ∧
    s.encStat.getLsbD 4 = decide (s.encCnt ≠ 0) ∧
    s.decStat.extractLsb' 0 3 = errCode s.decErr ∧ s.decStat.getLsbD 3 = s.decActive

/-- The fault codes 0 to 5 by name, 6 and 7 never, and the unit a fault is raised in (60_exceptions.md R130). -/
def Obligations.FaultCodesAreNumbered : Prop :=
  errCode none = 0 ∧ errCode (some .argument) = 1 ∧ errCode (some .unknownSymbol) = 2 ∧ errCode (some .malformed) = 3 ∧
  errCode (some .tableBusy) = 4 ∧ errCode (some .illegalOp) = 5 ∧
  (∀ (i : Instr) (s t : State) (f : FaultCode), exec i s = .next t → s.encErr = none → t.encErr = some f →
    f = .argument ∨ f = .unknownSymbol ∨ f = .tableBusy ∨ f = .illegalOp) ∧
  (∀ (i : Instr) (s t : State) (f : FaultCode), exec i s = .next t → s.decErr = none → t.decErr = some f →
    f = .argument ∨ f = .malformed ∨ f = .tableBusy)

/-- Every cause of a fault with the op that raises it, tested in the rule's order, and nothing else raises one: SHIFT and reset do not,
and no op without a cause does. A held ENCSYM is not performed (60_exceptions.md R131). -/
def Obligations.FaultsHaveTheirCauses : Prop :=
  (∀ (i : Instr) (s t : State), exec i s = .next t →
    (s.encErr = none → ∀ f, t.encErr = some f ↔
      (∃ sym len code, i = .ldcode sym len code ∧ s.encActive = true ∧ f = .tableBusy) ∨
      (∃ sym len code, i = .ldcode sym len code ∧ s.encActive = false ∧ (len = 0 ∨ s.params.lenMax < len) ∧ f = .argument) ∨
      ((i = .reserved010 ∨ i = .reserved011) ∧ f = .illegalOp) ∨
      (∃ sym, i = .encsym sym ∧ s.encCnt = 0 ∧ s.ct.read sym = none ∧ f = .unknownSymbol)) ∧
    (s.decErr = none → ∀ f, t.decErr = some f ↔
      (((∃ idx sym, i = .ldleaf idx sym) ∨ (∃ idx l r, i = .ldint idx l r) ∨ ∃ idx, i = .setroot idx) ∧
        s.decActive = true ∧ f = .tableBusy) ∨
      (((∃ b, i = .decbit b) ∨ i = .decend) ∧ s.rootNull = true ∧ f = .argument) ∨
      (∃ b l r, i = .decbit b ∧ s.rootNull = false ∧ s.tm.read s.rootIdx = some (.internal l r) ∧
        ((∀ l' r', s.tm.read s.decPtr ≠ some (.internal l' r')) ∨
         ∃ l' r', s.tm.read s.decPtr = some (.internal l' r') ∧ s.tm.read (if b then r' else l') = none) ∧ f = .argument) ∨
      (i = .decend ∧ s.rootNull = false ∧ s.decPtr ≠ s.rootIdx ∧ f = .malformed))) ∧
  (∀ s : State, (shift s).encErr = s.encErr ∧ (shift s).decErr = s.decErr ∧
    (resetStep s).encErr = none ∧ (resetStep s).decErr = none)

/-- Fault entry: whichever op raises a fault, the unit's ERR register takes the code, for the encoder ENC_CNT becomes 0, and the op
writes nothing else and emits nothing (60_exceptions.md R133). -/
def Obligations.FaultEntryChangesOnlyTheRegister : Prop :=
  ∀ (i : Instr) (s t : State) (f : FaultCode), exec i s = .next t →
    (s.encErr = none → t.encErr = some f → t = { s with encErr := some f, encCnt := 0 }) ∧
    (s.decErr = none → t.decErr = some f → t = { s with decErr := some f })

/-- A FAULTED unit: every op for it but its CLR op is accepted at once and dropped, with no change of state, no event and no new fault,
and SHIFT is not enabled. The premise is the invariant 10_state.md R22 (a) (60_exceptions.md R134). -/
def Obligations.FaultedUnitDropsEveryOp : Prop :=
  ∀ (i : Instr) (s : State), PendingOnlyWhileActive s →
    (s.encErr ≠ none → s.encCnt = 0) ∧
    (s.encErr ≠ none → i.unit = .enc → i ≠ .clrenc → held i s = false ∧ exec i s = .next s) ∧
    (s.decErr ≠ none → i.unit = .dec → i ≠ .clrdec → held i s = false ∧ exec i s = .next s)

/-- The only ways out of FAULTED are a reset step and the acceptance of the unit's CLR op from CFG; both leave the unit's reset state, and
until then the first code stays (60_exceptions.md R135, R134). -/
def Obligations.OnlyClrOrResetLeavesFaulted : Prop :=
  ∀ (s t : State) (f : FaultCode), step s = .next t →
    (s.encErr = some f → t.encErr = some f ∨
      (EncoderReset t ∧
        (s.sched.head? = some .rst ∨ ∃ w, s.cfgIn = w :: t.cfgIn ∧ decode s.params .cfg w = .ok .clrenc))) ∧
    (s.decErr = some f → t.decErr = some f ∨
      (DecoderReset t ∧
        (s.sched.head? = some .rst ∨ ∃ w, s.cfgIn = w :: t.cfgIn ∧ decode s.params .cfg w = .ok .clrdec)))

/-- The states IDLE, ACTIVE, FAULTED of a unit change only as 10_state.md R21 says, whatever the op. -/
def Obligations.UnitStatesChangeOnlyByNamedOps : Prop :=
  ∀ (i : Instr) (s t : State), exec i s = .next t →
    (s.unitState .enc = .idle → t.unitState .enc = .active → ∃ sym e, i = .encsym sym ∧ s.ct.read sym = some e) ∧
    (s.unitState .enc = .active → t.unitState .enc = .idle → i = .encend ∨ i = .clrenc) ∧
    (s.unitState .enc = .faulted → t.unitState .enc ≠ .faulted → i = .clrenc ∧ t.unitState .enc = .idle) ∧
    (t.unitState .enc = .faulted → t.encActive = s.encActive) ∧
    (s.unitState .dec = .idle → t.unitState .dec = .active → ∃ b, i = .decbit b) ∧
    (s.unitState .dec = .active → t.unitState .dec = .idle → i = .decend ∨ i = .clrdec) ∧
    (s.unitState .dec = .faulted → t.unitState .dec ≠ .faulted → i = .clrdec ∧ t.unitState .dec = .idle) ∧
    (t.unitState .dec = .faulted → t.decActive = s.decActive)

/-- A reset step takes the place of every other step and puts both units in the reset state, also in the middle of a message: pending bits
are discarded, no event is emitted, events already emitted stay in the logs, the histories since reset are empty and both unfinished
messages are abandoned (70_reset_and_hazards.md R155 to R157). That the host's waiting ops stay is the model's (log 15), and so is the
mark in the logs (log 14). -/
def Obligations.ResetStepResetsBlock : Prop :=
  ∀ (s : State) (ts : List Turn), s.sched = .rst :: ts →
    ∃ t, step s = .next t ∧
      t = { State.reset with
        params := s.params, cfgIn := s.cfgIn, esIn := s.esIn, dbIn := s.dbIn, sched := ts,
        ebLog := s.ebLog ++ [.mark .reset], dsLog := s.dsLog ++ [.mark .reset] } ∧
      t.ebHist = [] ∧ t.dsHist = [] ∧ t.ebMessages = s.ebMessages.abandon ∧ t.dsMessages = s.dsMessages.abandon

/-- The reset values: every valid bit 0, the root null, every register 0, both units IDLE, the pins 0, the histories empty
(10_state.md R23). -/
def Obligations.ResetStateHasResetValues : Prop :=
  EncoderReset State.reset ∧ DecoderReset State.reset ∧
  (∀ a, State.reset.ct.read a = none) ∧ (∀ a, State.reset.tm.read a = none) ∧
  State.reset.encStat = 0 ∧ State.reset.decStat = 0 ∧
  State.reset.unitState .enc = .idle ∧ State.reset.unitState .dec = .idle ∧
  State.reset.ebHist = [] ∧ State.reset.dsHist = [] ∧ State.reset.ebLog = [] ∧ State.reset.dsLog = []

/-! ### The step and the ports -/

/-- When the schedule names a port whose head word decodes to an op it does not hold, the step is that op's meaning with the word taken
from the port and the turn from the schedule (20_memory.md R38, 00_scope.md R6, R8). With an empty schedule the step takes the first of
CFG, ES, DB and SHIFT that can act, and none when none can: the model's choice (log 8), in the order 20_memory.md R39 and
60_exceptions.md R138 give the steps of one moment. -/
def Obligations.StepRunsDecodedOp : Prop :=
  (∀ (s : State) (port : Port) (w : OpWord) (ws : List OpWord) (i : Instr),
    s.input port = w :: ws → decode s.params port w = .ok i → held i s = false →
    (∀ ts, s.sched = .accept port :: ts → step s = exec i ((s.withSched ts).withInput port ws)) ∧
    (s.sched = [] →
      (port = .cfg → step s = exec i (s.withInput port ws)) ∧
      (port = .es → s.cfgIn = [] → step s = exec i (s.withInput port ws)) ∧
      (port = .db → s.cfgIn = [] → s.esIn = [] ∨ s.encCnt ≠ 0 → step s = exec i (s.withInput port ws)))) ∧
  (∀ s : State, s.sched = [] → s.cfgIn = [] → s.dbIn = [] →
    (s.encCnt ≠ 0 → step s = .next (shift s)) ∧
    (s.encCnt = 0 → s.esIn = [] → step s = .next s))

/-- A held op waits at its port and nothing happens; it blocks the ops behind it (20_memory.md R38, 00_scope.md R8). -/
def Obligations.HeldOpWaitsAtPort : Prop :=
  ∀ (s : State) (port : Port) (w : OpWord) (ws : List OpWord) (i : Instr) (ts : List Turn),
    s.input port = w :: ws → decode s.params port w = .ok i → held i s = true → s.sched = .accept port :: ts →
    port = .es ∧ s.encCnt ≠ 0 ∧ step s = .next (s.withSched ts)

/-- A word of the opcode table placed for the next step is performed by it, and by nothing else (the model's, log 12, 13). -/
def Obligations.TableWordRunsNext : Prop :=
  ∀ (s : State) (nbits w : Nat) (i : Instr), decode s.params (tablePort nbits) w = .ok i → held i s = false →
    step (s.withFetchWord nbits w) = exec i s

/-- Every op has exactly one outcome in every state, a next state, and emits at most one event, on its own unit's port
(00_scope.md R6, 43_decoder.md R122). -/
def Obligations.EveryOpHasOneOutcome : Prop :=
  ∀ (i : Instr) (s : State), ∃ t, exec i s = .next t ∧
    ((t.ebHist = s.ebHist ∧ t.dsHist = s.dsHist) ∨
     (∃ e, i.unit = .enc ∧ t.ebHist = s.ebHist ++ [e] ∧ t.dsHist = s.dsHist) ∨
     (∃ e, i.unit = .dec ∧ t.dsHist = s.dsHist ++ [e] ∧ t.ebHist = s.ebHist))

/-- A step never faults, and it refuses only a number that is no word of the port it stands at (the model's, log 11, 18). -/
def Obligations.StepStopsOnlyOnOverwideWords : Prop :=
  ∀ s : State, (∃ t, step s = .next t) ∨
    ∃ port w ws, s.input port = w :: ws ∧ 2 ^ s.params.portWidth port ≤ w ∧ step s = .refused (.notAnOpWord port)

/-- A port loses at most its head, and only one port does, in one step; the parameters never change (20_memory.md R38, 10_state.md R19). -/
def Obligations.PortsAreFifo : Prop :=
  ∀ s t : State, step s = .next t →
    t.params = s.params ∧
    ((∀ port, t.input port = s.input port) ∨
     ∃ port w, s.input port = w :: t.input port ∧ ∀ q, q ≠ port → t.input q = s.input q)

/-- No step of one unit writes state or events of the other, nor the host's side (20_memory.md R41). -/
def Obligations.UnitsShareNoState : Prop :=
  (∀ (i : Instr) (s t : State), exec i s = .next t →
    (i.unit = .enc → SameDecoder s t ∧ t.dsLog = s.dsLog) ∧
    (i.unit = .dec → SameEncoder s t ∧ t.ebLog = s.ebLog) ∧
    t.params = s.params ∧ t.cfgIn = s.cfgIn ∧ t.esIn = s.esIn ∧ t.dbIn = s.dbIn ∧ t.sched = s.sched) ∧
  (∀ s : State, SameDecoder s (shift s) ∧ (shift s).dsLog = s.dsLog)

/-- Steps of different units commute (20_memory.md R41). -/
def Obligations.StepsOfDifferentUnitsCommute : Prop :=
  (∀ (i j : Instr) (s t u : State), i.unit ≠ j.unit → exec i s = .next t → exec j t = .next u →
    ∃ v, exec j s = .next v ∧ exec i v = .next u) ∧
  (∀ (j : Instr) (s u : State), j.unit = .dec → exec j (shift s) = .next u →
    ∃ v, exec j s = .next v ∧ shift v = u)

/-- During a message, and while FAULTED, no step changes the unit's table, nor the decoder's root, unless it puts the unit in its reset
state (70_reset_and_hazards.md R160). -/
def Obligations.TablesFrozenDuringMessage : Prop :=
  ∀ s t : State, step s = .next t →
    (s.encActive = true ∨ s.encErr ≠ none → t.ct = s.ct ∨ EncoderReset t) ∧
    (s.decActive = true ∨ s.decErr ≠ none →
      (t.tm = s.tm ∧ t.rootV = s.rootV ∧ t.rootIdx = s.rootIdx) ∨ DecoderReset t)

/-- Against CLRENC the order of SHIFT is free: for every k up to ENC_CNT there is an execution in which exactly the first k pending bits
are emitted and the rest discarded (20_memory.md R40; the mark behind them is log 14). -/
def Obligations.AnyNumberOfBitsBeforeClear : Prop :=
  ∀ (s : State) (k : Nat), k ≤ s.encCnt →
    ∃ t, run (k + 1) { s with sched := List.replicate k .shift ++ [.accept .cfg], cfgIn := [encode s.params .clrenc] } = .next t ∧
      t.ebLog = s.ebLog ++ ((s.pending.take k).map fun b => .event (.bit b)) ++ [.mark .clr] ∧ EncoderReset t ∧ SameDecoder s t ∧ t.cfgIn = []

/-! ### Invariants -/

/-- The invariant of the block holds after reset. -/
def Obligations.InvariantHoldsAtReset : Prop := State.reset.Inv

/-- The invariants of 10_state.md R22 (a) to (f), with legal code lengths, canonical tables, registers within their widths and fault
codes in their unit and no unfinished message outside an open one, are kept by every step from every state that has them, whatever the schedule. -/
def Obligations.EveryStepKeepsInvariant : Prop :=
  ∀ s t : State, s.Inv → step s = .next t → t.Inv

/-- Tables in the model's canonical form that read the same are the same data (the form is the model's, log 3). -/
def Obligations.EqualReadsEqualTables : Prop :=
  (∀ a b : Memory CtEntry, a.wf → b.wf → (∀ i, a.read i = b.read i) → a = b) ∧
  (∀ a b : Memory TmEntry, a.wf → b.wf → (∀ i, a.read i = b.read i) → a = b)

/-! ### Loading tables -/

/-- `LOADMAP M` from any state, its LDCODE ops in any order, leaves the encoder IDLE with CT = ctImage(M) and nothing else changed, and the
mapping CT then holds is M (40_table_construction.md R76, 30_encoding.md R61; the mark in the log is log 14). -/
def Obligations.LoadmapLeavesCtImage : Prop :=
  ∀ (s : State) (M M' : Memory BitString) (ct : Memory CtEntry), M.wf → ctImage s.params M = some ct → M'.Perm M →
    execAll (loadMap M') s = .next { s with
      ct := ct, encSr := 0, encCnt := 0, encActive := false, encErr := none, ebLog := s.ebLog ++ [.mark .clr] } ∧
    mappingOf ct = M

/-- `LOADTREE T` from any state leaves the decoder IDLE at the root with TM = tmImage(T) and nothing else changed; when the indices of T
are distinct TM then holds T, and the loads in any other order leave the same state (40_table_construction.md R77, 30_encoding.md R61; the
mark in the log is log 14). -/
def Obligations.LoadtreeLeavesTmImage : Prop :=
  ∀ (s : State) (root : TreeNode),
    execAll (loadTreeOps root) s = .next { s with
      tm := tmImage root, rootV := true, rootIdx := root.seq, decPtr := root.seq, decActive := false, decErr := none,
      dsLog := s.dsLog ++ [.mark .clr] } ∧
    (root.indices.Nodup → root.HeldBy (tmImage root) ∧
      ∀ loads : List Instr, loads.Perm (root.nodes.map loadNode) →
        execAll (.clrdec :: (loads ++ [.setroot root.seq])) s = execAll (loadTreeOps root) s)

/-! ### Messages -/

/-- One step and the messages on EB and DS: nothing logged is ever retracted; an End makes the unfinished message a result, in a unit that
is not FAULTED; a fault, a CLR op and a reset abandon the unfinished message and leave the results; a FAULTED unit emits nothing. So
events count as a result only when an End follows them with no fault, CLR or reset of the unit between (70_reset_and_hazards.md R164,
42_encoder.md R100, 43_decoder.md R115). The premise is the invariant 10_state.md R22 (a); the marks are the model's (log 14). -/
def Obligations.MessagesEndOrAreAbandoned : Prop :=
  ∀ s t : State, PendingOnlyWhileActive s → step s = .next t →
    s.ebLog <+: t.ebLog ∧ s.dsLog <+: t.dsLog ∧
    ((t.ebLog = s.ebLog ∧ t.ebMessages.results = s.ebMessages.results) ∨
     (∃ b, s.encErr = none ∧ t.ebLog = s.ebLog ++ [.event (.bit b)] ∧
       t.ebMessages = ⟨s.ebMessages.results, s.ebMessages.unfinished ++ [b]⟩) ∨
     (s.encErr = none ∧ t.ebLog = s.ebLog ++ [.event .done] ∧
       t.ebMessages = ⟨s.ebMessages.results ++ [s.ebMessages.unfinished], []⟩) ∨
     (∃ m, EncoderReset t ∧ t.ebLog = s.ebLog ++ [.mark m] ∧ t.ebMessages = s.ebMessages.abandon)) ∧
    (s.encErr = none → t.encErr = none → t.ebLog = s.ebLog → t.ebMessages = s.ebMessages) ∧
    (t.encErr ≠ none → t.ebLog = s.ebLog ∧ t.ebMessages = s.ebMessages.abandon) ∧
    ((t.dsLog = s.dsLog ∧ t.dsMessages.results = s.dsMessages.results) ∨
     (∃ a, s.decErr = none ∧ t.dsLog = s.dsLog ++ [.event (.sym a)] ∧
       t.dsMessages = ⟨s.dsMessages.results, s.dsMessages.unfinished ++ [a]⟩) ∨
     (s.decErr = none ∧ t.dsLog = s.dsLog ++ [.event .done] ∧
       t.dsMessages = ⟨s.dsMessages.results ++ [s.dsMessages.unfinished], []⟩) ∨
     (∃ m, DecoderReset t ∧ t.dsLog = s.dsLog ++ [.mark m] ∧ t.dsMessages = s.dsMessages.abandon)) ∧
    (s.decErr = none → t.decErr = none → t.dsLog = s.dsLog → t.dsMessages = s.dsMessages) ∧
    (t.decErr ≠ none → t.dsLog = s.dsLog ∧ t.dsMessages = s.dsMessages.abandon)

/-- `ENCODE S` from an IDLE encoder, under every schedule without reset and with no CFG op for the encoder waiting. When every symbol has an
entry: at every moment what EB has emitted is the beginning of encode(S, M) followed by End; once the ENCEND is accepted it is all of it,
one message more is a result, and the unit is IDLE; there is no fault. When `z` is the first symbol with no entry: at every moment EB has
emitted a beginning of the bits of the symbols before it; once every ES op is accepted exactly those bits, no End and no result, and
ENC_ERR is UnknownSymbol. CT is unchanged (42_encoder.md R104). -/
def Obligations.EncodedMessageIsExact : Prop :=
  ∀ (s t : State) (S : List Symbol) (k : Nat),
    s.encErr = none → s.encActive = false → s.encCnt = 0 →
    s.esIn = (encodeOps S).map (encode s.params) → (∀ a ∈ S, a < 2 ^ s.params.symW) →
    (∀ w ∈ s.cfgIn, w.testBit 2 = true) → .rst ∉ s.sched → run k s = .next t →
    (∀ x, refEncode (mappingOf s.ct) S = .ok x →
      ∃ y : List EbEvent, t.ebLog = s.ebLog ++ y.map .event ∧ t.ebHist = s.ebHist ++ y ∧ y <+: x.map .bit ++ [.done] ∧
        t.encErr = none ∧ t.ct = s.ct ∧
        (t.esIn = [] → y = x.map .bit ++ [.done] ∧ t.encActive = false ∧ t.encCnt = 0 ∧
          t.ebMessages = ⟨s.ebMessages.results ++ [s.ebMessages.unfinished ++ x], []⟩)) ∧
    (∀ S₁ z S₂ x, S = S₁ ++ z :: S₂ → refEncode (mappingOf s.ct) S₁ = .ok x → s.ct.read z = none →
      ∃ y : List EbEvent, t.ebLog = s.ebLog ++ y.map .event ∧ t.ebHist = s.ebHist ++ y ∧ y <+: x.map .bit ∧ t.ct = s.ct ∧
        (t.esIn = [] → y = x.map .bit ∧ t.encErr = some .unknownSymbol ∧ t.encCnt = 0 ∧
          t.ebMessages = ⟨s.ebMessages.results, []⟩))

/-- A message of L symbols with an m-bit bit-string takes L + m + 1 steps of the encoder, and the run is over then and not before
(42_encoder.md R107). With nothing else waiting every step is the encoder's, the schedule being empty (the model's, log 8). -/
def Obligations.EncodedMessageStepCount : Prop :=
  ∀ (s : State) (S : List Symbol) (x : BitString),
    s.encErr = none → s.encActive = false → s.encCnt = 0 →
    s.esIn = (encodeOps S).map (encode s.params) → (∀ a ∈ S, a < 2 ^ s.params.symW) →
    s.cfgIn = [] → s.dbIn = [] → s.sched = [] → refEncode (mappingOf s.ct) S = .ok x →
    (∃ t, run (S.length + x.length + 1) s = .next t ∧ t.runOver = true ∧
      t.ebHist = s.ebHist ++ x.map .bit ++ [.done] ∧ t.encErr = none ∧ t.encActive = false ∧ t.ct = s.ct ∧
      SameDecoder s t ∧ t.dsLog = s.dsLog) ∧
    (∀ k t, k < S.length + x.length + 1 → run k s = .next t → t.runOver = false)

/-- `DECODE B` from an IDLE decoder whose TM holds the tree `T` well-formed, under every schedule without reset and with no CFG op for the
decoder waiting. If decode(B, T) succeeds, DS emits exactly its symbols and End, and the unit ends IDLE at the root; if it fails with
MalformedEncodingError, DS emits the symbols of the Codes completed and no End, and DEC_ERR is Malformed; no DECBIT faults. TM is unchanged and at every
moment what DS has emitted is a beginning of that (43_decoder.md R120). -/
def Obligations.DecodedMessageIsExact : Prop :=
  ∀ (s t : State) (T : TreeNode) (B : BitString) (k : Nat),
    WfTmAs s T → s.decErr = none → s.decActive = false → s.decPtr = s.rootIdx →
    s.dbIn = (decodeOps B).map (encode s.params) → (∀ w ∈ s.cfgIn, w.testBit 2 = false) → .rst ∉ s.sched →
    run k s = .next t →
    t.tm = s.tm ∧ t.rootV = s.rootV ∧ t.rootIdx = s.rootIdx ∧
    ∃ y : List DsEvent, t.dsLog = s.dsLog ++ y.map .event ∧ t.dsHist = s.dsHist ++ y ∧
      (∀ out, refDecode B (some T) = .ok out →
        y <+: out.map .sym ++ [.done] ∧ t.decErr = none ∧
        (t.dbIn = [] → y = out.map .sym ++ [.done] ∧ t.decActive = false ∧ t.decPtr = t.rootIdx ∧
          t.dsMessages = ⟨s.dsMessages.results ++ [s.dsMessages.unfinished ++ out], []⟩)) ∧
      (refDecode B (some T) = .error .malformed →
        y <+: (walkBits T T B).1.map .sym ∧ (t.dbIn ≠ [] → t.decErr = none) ∧
        (t.dbIn = [] → y = (walkBits T T B).1.map .sym ∧ t.decErr = some .malformed ∧
          t.dsMessages = ⟨s.dsMessages.results, []⟩))

/-- Round trip through the block: with consistent tables, both units IDLE and nothing else waiting, any S of symbols with entries is
encoded without fault, and when the words EB emitted are presented unchanged on DB, DS emits exactly S and End, with no fault, whatever
the two schedules, as long as they hold no reset (43_decoder.md R121). -/
def Obligations.RoundTripThroughBlock : Prop :=
  ∀ (s u v : State) (S : List Symbol) (k m : Nat) (ts : List Turn),
    Consistent s → s.good = true → s.encCnt = 0 → s.decPtr = s.rootIdx →
    s.esIn = (encodeOps S).map (encode s.params) → (∀ a ∈ S, a < 2 ^ s.params.symW) →
    (∀ a ∈ S, (s.ct.read a).isSome = true) → s.cfgIn = [] → s.dbIn = [] → .rst ∉ s.sched → .rst ∉ ts →
    run k s = .next u → u.esIn = [] →
    run m (loopBack (u.ebHist.drop s.ebHist.length) (u.withSched ts)) = .next v → v.dbIn = [] →
    u.encErr = none ∧ v.encErr = none ∧ v.decErr = none ∧ v.good = true ∧
    v.dsHist = s.dsHist ++ S.map .sym ++ [.done]

/-- Every presented op is accepted in the end and no bit stays pending, whatever the schedule, which is finite and followed by turns for
whatever can act: no step waits on the host. Whether a bit was sent by SHIFT or discarded by a step that sets ENC_CNT to 0 is not said
(70_reset_and_hazards.md R171, 42_encoder.md R102 (b); the turns after the schedule are the model's, log 8). -/
def Obligations.EveryPresentedOpIsAccepted : Prop :=
  ∀ s : State, (∀ port, ∀ w ∈ s.input port, w < 2 ^ s.params.portWidth port) →
    ∃ k t, run k s = .next t ∧ t.runOver = true ∧ t.sched = []

/-- When the run is over and no turn is scheduled the block rests (70_reset_and_hazards.md R159, 60_exceptions.md R143). That it does not
rest before the run is over is the model's default turn (log 8), and that resting is a step to the same state is the model's too (log 9). -/
def Obligations.FinishedRunRests : Prop :=
  ∀ s : State, s.sched = [] → (s.runOver = true ↔ step s = .next s)

/-! ### The host-side procedures -/

/-- `freqTable(S)` counts the occurrences of exactly the symbols that occur, so every count is at least 1 and the counts sum to the
length, and it does not depend on the order of occurrence; on the empty sequence it is empty (40_table_construction.md R65). -/
def Obligations.FreqTableCounts : Prop :=
  freqTable [] = [] ∧
  (∀ S : List Symbol, (freqTable S).wf ∧
    (∀ a, (freqTable S).read a = if a ∈ S then some (S.count a) else none) ∧
    (∀ e ∈ freqTable S, 1 ≤ e.2) ∧ ((freqTable S).map (·.2)).sum = S.length) ∧
  (∀ S S' : List Symbol, S.Perm S' → freqTable S = freqTable S')

/-- `removeMin` answers exactly on a non-empty queue: a node with the least pair (weight, insertion number) in lexicographic order, and the
rest of the queue (40_table_construction.md R67). -/
def Obligations.RemoveMinTakesFirst : Prop :=
  removeMin [] = none ∧
  ∀ q : List TreeNode, q ≠ [] →
    ∃ m rest, removeMin q = some (m, rest) ∧ q.Perm (m :: rest) ∧ rest.Sublist q ∧
      ∀ n ∈ rest, m.weight < n.weight ∨ (m.weight = n.weight ∧ m.seq ≤ n.seq)

/-- `buildTree` merges the two nodes of least (weight, insertion number), the first to the left, and inserts the new node with the next
number, until one node is left. On n >= 1 distinct symbols it gives n leaves, one for each symbol, numbered in insertion order and weighing its count, n-1
Internal nodes numbered after them, every weight the sum of the children's, the root numbered last and weighing len(S); on the empty
sequence EmptyInputError (40_table_construction.md R66, R68, R69, R77). -/
def Obligations.BuildTreeGivesHuffmanTree : Prop :=
  (∀ (fuel seq : Nat) (t : TreeNode), mergeLoop (fuel + 1) seq [t] = some t) ∧
  (∀ (fuel seq : Nat) (q : List TreeNode), 2 ≤ q.length →
    ∃ a b rest, q.Perm (a :: b :: rest) ∧ rest.Sublist q ∧
      (a.weight < b.weight ∨ (a.weight = b.weight ∧ a.seq ≤ b.seq)) ∧
      (∀ n ∈ rest, b.weight < n.weight ∨ (b.weight = n.weight ∧ b.seq ≤ n.seq)) ∧
      mergeLoop (fuel + 1) seq q = mergeLoop fuel (seq + 1) (rest ++ [.internal (a.weight + b.weight) seq a b])) ∧
  (∀ order, buildTreeIn order [] = .error .emptyInput) ∧
  ∀ (order S : List Symbol), IsLeafOrder order S → S ≠ [] →
    ∃ t, buildTreeIn order S = .ok t ∧ t.symbols.Perm order ∧
      t.indices.Perm (List.range (2 * order.length - 1)) ∧ t.seq = 2 * order.length - 2 ∧
      t.WeightsAdd ∧ t.weight = S.length ∧
      (∀ a w q, .leaf a w q ∈ t.nodes → w = S.count a ∧ order[q]? = some a)

/-- `buildCodeMapping` gives each leaf's symbol its path, a lone Leaf "0", and no other symbol a Code; a null root fails ArgumentError
(40_table_construction.md R71 to R73). -/
def Obligations.CodeMappingIsPaths : Prop :=
  buildCodeMapping none = .error .argument ∧
  ∀ t : TreeNode, t.symbols.Nodup →
    ∃ M, buildCodeMapping (some t) = .ok M ∧ M.wf ∧
      (∀ e ∈ t.paths, M.read e.1 = some (codeOfPath e.2)) ∧ (∀ a, a ∉ t.symbols → M.read a = none)

/-- No leaf's path is a prefix of another leaf's, and for n leaves the paths have 1 to n-1 elements, none for n = 1
(30_encoding.md R46). -/
def Obligations.PathsArePrefixFree : Prop :=
  ∀ t : TreeNode,
    (∀ e ∈ t.paths, ∀ f ∈ t.paths, e.1 ≠ f.1 → ¬ e.2 <+: f.2) ∧
    (∀ e ∈ t.paths, e.2.length + 1 ≤ t.symbols.length ∧ (e.2 = [] ↔ t.symbols.length = 1))

/-- The document's round trip of the reference procedures: decode(encode(S, map(tree(S))), tree(S)) = S for every non-empty S and every
LEAF_ORDER (40_table_construction.md R79). -/
def Obligations.ReferenceRoundTrip : Prop :=
  ∀ (order S : List Symbol), IsLeafOrder order S → S ≠ [] →
    ∃ t M x, buildTreeIn order S = .ok t ∧ buildCodeMapping (some t) = .ok M ∧ refEncode M S = .ok x ∧
      refDecode x (some t) = .ok S

/-- Optimality: for every non-empty S and every LEAF_ORDER the code of buildTree is a prefix-free code of non-empty Codes for S, the encoded
message has the code's total length, and no such code for S has a smaller one. The known example: "abracadabra" (ASCII values, log 22)
round-trips and is encoded in 23 bits, less than the fixed-width baseline of 8 bits a symbol (40_table_construction.md R79). -/
def Obligations.HuffmanCodeIsOptimal : Prop :=
  (∀ (order S : List Symbol), IsLeafOrder order S → S ≠ [] →
    ∃ t M x, buildTreeIn order S = .ok t ∧ buildCodeMapping (some t) = .ok M ∧ refEncode M S = .ok x ∧
      x.length = encodedLength (freqTable S) M ∧ IsLeastEncodedLength (freqTable S) (encodedLength (freqTable S) M)) ∧
  (∃ t M x, buildTree abracadabra = .ok t ∧ buildCodeMapping (some t) = .ok M ∧ refEncode M abracadabra = .ok x ∧
    refDecode x (some t) = .ok abracadabra ∧ x.length = 23 ∧ x.length < fixedWidthLength abracadabra)

/-- The images of what the procedures build from a non-empty S are CONSISTENT, and the CT image exists when LEN_MAX is at least 1 and n-1
(40_table_construction.md R78, R76). -/
def Obligations.BuiltImagesAreConsistent : Prop :=
  ∀ (order S : List Symbol) (t : TreeNode) (M : Memory BitString) (p : Params), IsLeafOrder order S → S ≠ [] →
    buildTreeIn order S = .ok t → buildCodeMapping (some t) = .ok M →
    (1 ≤ p.lenMax → order.length ≤ p.lenMax + 1 → ∃ ct, ctImage p M = some ct) ∧
    (∀ (s : State) (ct : Memory CtEntry), s.params = p → ctImage p M = some ct → s.ct = ct → s.tm = tmImage t →
      s.rootV = true → s.rootIdx = t.seq → ConsistentAs s t)
end

