-- ==== Sys2Proof/Laws/Decode.lean ====
section
/-! SUPPORT. The laws of fields: a field is within its width, is read back from where it was packed, and depends on its own bits only. -/

namespace Sys2Proof

theorem field_lt (w lo width : Nat) : field w lo width < 2 ^ width := Nat.mod_lt _ (Nat.two_pow_pos _)

theorem field_eq_div (w lo width : Nat) : field w lo width = w / 2 ^ lo % 2 ^ width := by
  rw [field, Nat.shiftRight_eq_div_pow]

theorem testBit_field (w lo width k : Nat) : (field w lo width).testBit k = (decide (k < width) && w.testBit (lo + k)) := by
  simp [field, Nat.testBit_mod_two_pow, Nat.testBit_shiftRight]

/-- A field is read back from above what is packed below it and below what is packed above it. -/
theorem field_packed {low v lo width : Nat} (hl : low < 2 ^ lo) (hv : v < 2 ^ width) (high : Nat) :
    field (low + v <<< lo + high <<< (lo + width)) lo width = v := by
  have hp := Nat.two_pow_pos lo
  have : low + v <<< lo + high <<< (lo + width) = low + 2 ^ lo * (v + 2 ^ width * high) := by
    rw [Nat.shiftLeft_eq, Nat.shiftLeft_eq, Nat.pow_add]
    ring
  rw [field_eq_div, this, Nat.add_mul_div_left _ _ hp, Nat.div_eq_of_lt hl, Nat.zero_add, Nat.add_mul_mod_self_left,
    Nat.mod_eq_of_lt hv]

/-- The topmost field is read back from above what is packed below it. -/
theorem field_packed_top {low v lo width : Nat} (hl : low < 2 ^ lo) (hv : v < 2 ^ width) :
    field (low + v <<< lo) lo width = v := by
  simpa using field_packed hl hv 0

/-- Packing one more field on top of a word stays within the sum of the widths. -/
theorem packed_lt {low v lo width : Nat} (hl : low < 2 ^ lo) (hv : v < 2 ^ width) : low + v <<< lo < 2 ^ (lo + width) := by
  rw [Nat.shiftLeft_eq, Nat.pow_add]
  calc low + v * 2 ^ lo < 2 ^ lo + v * 2 ^ lo := by omega
    _ = (v + 1) * 2 ^ lo := by ring
    _ ≤ 2 ^ width * 2 ^ lo := Nat.mul_le_mul_right _ hv
    _ = 2 ^ lo * 2 ^ width := Nat.mul_comm _ _

/-- A field depends on the bits it spans and on no other. -/
theorem field_congr {w v lo width : Nat} (h : ∀ k, lo ≤ k → k < lo + width → w.testBit k = v.testBit k) :
    field w lo width = field v lo width := by
  apply Nat.eq_of_testBit_eq
  intro k
  rw [testBit_field, testBit_field]
  by_cases hk : k < width
  · rw [h (lo + k) (by omega) (by omega)]
  · simp [hk]

theorem shiftRight_eq_zero_iff_lt {w n : Nat} : w >>> n = 0 ↔ w < 2 ^ n := by
  rw [Nat.shiftRight_eq_div_pow, Nat.div_eq_zero_iff]
  have := Nat.two_pow_pos n
  omega

/-- What `decode` answers on a word of the port. -/
theorem decode_of_lt {p : Params} {port : Port} {w : OpWord} (h : w < 2 ^ p.portWidth port) :
    decode p port w = .ok (decodeWord p port w) :=
  if_neg (by simpa using shiftRight_eq_zero_iff_lt.mpr h)

/-- What `decode` answers on a number that is no word of the port. -/
theorem decode_of_le {p : Params} {port : Port} {w : OpWord} (h : 2 ^ p.portWidth port ≤ w) :
    decode p port w = .error (.tooWide port) :=
  if_pos (mt shiftRight_eq_zero_iff_lt.mp (Nat.not_lt.mpr h))

/-- `decode` answers an op exactly on the words of the port. -/
theorem decode_ok_iff {p : Params} {port : Port} {w : OpWord} {i : Instr} :
    decode p port w = .ok i ↔ w < 2 ^ p.portWidth port ∧ decodeWord p port w = i := by
  rcases Nat.lt_or_ge w (2 ^ p.portWidth port) with h | h
  · simp [decode_of_lt h, h]
  · simp [decode_of_le h, Nat.not_lt.mpr h]

/-- A field packed at or above bit 3 leaves the opcode bits alone. -/
theorem packed_mod_eight (low v n : Nat) : (low + v <<< (n + 3)) % 8 = low % 8 := by
  rw [Nat.shiftLeft_eq, Nat.pow_add, ← Nat.mul_assoc]
  exact Nat.add_mul_mod_self_right _ _ _

/-- The opcode bits of a CFG word. -/
theorem testBit_mod_eight (w k : Nat) (h : k < 3) : w.testBit k = (w % 8).testBit k := by
  have := Nat.testBit_mod_two_pow w 3 k
  simpa [h] using this.symm

/-- LEN_W is the least width that holds LEN_MAX (00_scope.md R5). -/
theorem lenW_least {p : Params} (h : 1 ≤ p.lenMax) (w : Nat) : p.lenMax < 2 ^ w ↔ p.lenW ≤ w := by
  unfold Params.lenW
  rw [← Nat.log2_lt (by omega)]
  omega

/-- A word of a port decodes to an op of that port. -/
theorem decodeWord_port (p : Params) (port : Port) (w : OpWord) : (decodeWord p port w).port = port := by
  cases port
  · unfold decodeWord decodeCfg
    simp only
    split <;> rfl
  · simp only [decodeWord, decodeEs]
    split <;> rfl
  · simp only [decodeWord, decodeDb]
    split <;> rfl

/-- Bit 2 of a CFG word names the unit (30_encoding.md R52). -/
theorem decodeCfg_unit (p : Params) (w : OpWord) : (decodeCfg p w).unit = if w.testBit 2 then .dec else .enc := by
  unfold decodeCfg
  split <;> simp_all [Instr.unit]

theorem decodeEs_unit (p : Params) (w : OpWord) : (decodeEs p w).unit = .enc := by
  unfold decodeEs
  split <;> rfl

theorem decodeDb_unit (w : OpWord) : (decodeDb w).unit = .dec := by
  unfold decodeDb
  split <;> rfl

end Sys2Proof
end

