-- ==== Sys2Proof/Laws/Memory.lean ====
section
/-! SUPPORT. The laws of table access (20_memory.md R34): a read after a write, and the canonical form kept by every operation. -/

namespace Sys2Proof.Machine

variable {α : Type}

@[simp] theorem Memory.read_nil (a : Nat) : Memory.read ([] : Memory α) a = none := rfl

@[simp] theorem Memory.clear_eq (m : Memory α) : m.clear = [] := rfl

theorem Memory.read_cons (k : Nat) (e : α) (m : Memory α) (a : Nat) :
    Memory.read ((k, e) :: m) a = if a = k then some e else Memory.read m a := rfl

/-- An index below every listed one reads as an invalid entry. -/
theorem Memory.read_none_of_lt {m : Memory α} {a : Nat} (h : ∀ b ∈ m, a < b.1) : m.read a = none := by
  induction m with
  | nil => rfl
  | cons b m ih =>
    have hb := h b (by simp)
    rw [Memory.read_cons, if_neg (by omega)]
    exact ih fun c hc => h c (by simp [hc])

/-- A read after a write: the written entry at its index, the old one elsewhere. -/
theorem Memory.read_write (m : Memory α) (a : Nat) (x : α) (b : Nat) :
    (m.write a x).read b = if b = a then some x else m.read b := by
  induction m with
  | nil => simp [Memory.write, Memory.read_cons]
  | cons c m ih =>
    obtain ⟨k, e⟩ := c
    simp only [Memory.write]
    split
    · simp only [Memory.read_cons]
    · split
      · simp only [Memory.read_cons]
        split
        · rfl
        · rw [if_neg (by omega)]
      · simp only [Memory.read_cons, ih]
        split
        · rw [if_neg (by omega)]
        · rfl

@[simp] theorem Memory.read_write_same (m : Memory α) (a : Nat) (x : α) : (m.write a x).read a = some x := by
  simp [Memory.read_write]

theorem Memory.read_write_other (m : Memory α) {a b : Nat} (h : b ≠ a) (x : α) : (m.write a x).read b = m.read b := by
  simp [Memory.read_write, h]

/-- What a write lists: the new entry and old ones. -/
theorem Memory.mem_write {m : Memory α} {a : Nat} {x : α} {c : Nat × α} (h : c ∈ m.write a x) : c = (a, x) ∨ c ∈ m := by
  induction m with
  | nil => simpa [Memory.write] using h
  | cons b m ih =>
    obtain ⟨k, e⟩ := b
    simp only [Memory.write] at h
    split at h
    · simpa using h
    · split at h
      · simp only [List.mem_cons] at h ⊢
        tauto
      · simp only [List.mem_cons] at h ⊢
        rcases h with h | h
        · exact Or.inr (Or.inl h)
        · rcases ih h with h | h
          · exact Or.inl h
          · exact Or.inr (Or.inr h)

/-- A write keeps the canonical form. -/
theorem Memory.wf_write {m : Memory α} (h : m.wf) (a : Nat) (x : α) : (m.write a x).wf := by
  induction m with
  | nil => simp [Memory.write]
  | cons b m ih =>
    obtain ⟨k, e⟩ := b
    obtain ⟨hk, hm⟩ := List.pairwise_cons.mp h
    simp only [Memory.write]
    split
    · refine List.pairwise_cons.mpr ⟨fun c hc => ?_, h⟩
      rcases List.mem_cons.mp hc with rfl | hc
      · assumption
      · have := hk c hc
        simp only at *
        omega
    · split
      · subst_vars
        exact List.pairwise_cons.mpr ⟨hk, hm⟩
      · refine List.pairwise_cons.mpr ⟨fun c hc => ?_, ih hm⟩
        rcases Memory.mem_write hc with rfl | hc
        · simp only
          omega
        · exact hk c hc

/-- Clearing keeps the canonical form. -/
theorem Memory.wf_clear (m : Memory α) : m.clear.wf := List.Pairwise.nil

/-- What is read is listed. -/
theorem Memory.mem_of_read {m : Memory α} {a : Nat} {e : α} (h : m.read a = some e) : (a, e) ∈ m := by
  induction m with
  | nil => simp at h
  | cons c m ih =>
    obtain ⟨k, x⟩ := c
    rw [Memory.read_cons] at h
    split at h
    · simp_all
    · exact List.mem_cons_of_mem _ (ih h)

/-- In canonical form what is listed is read. -/
theorem Memory.read_of_mem {m : Memory α} (hm : m.wf) {a : Nat} {e : α} (h : (a, e) ∈ m) : m.read a = some e := by
  induction m with
  | nil => simp at h
  | cons c m ih =>
    obtain ⟨k, x⟩ := c
    obtain ⟨hk, hm⟩ := List.pairwise_cons.mp hm
    rw [Memory.read_cons]
    rcases List.mem_cons.mp h with h | h
    · simp_all
    · rw [if_neg (by have := hk _ h; simp only at this; omega)]
      exact ih hm h

end Sys2Proof.Machine
end

