-- ==== Sys2Proof/Laws/State.lean ====
section
/-! SUPPORT. One lemma per field per update of State, so that no later proof unfolds a record update; and the laws of the input ports. -/

namespace Sys2Proof.Machine

@[simp] theorem emitEb_params (e : EbEvent) (s : State) : (emitEb e s).params = s.params := rfl
@[simp] theorem emitEb_ct (e : EbEvent) (s : State) : (emitEb e s).ct = s.ct := rfl
@[simp] theorem emitEb_encSr (e : EbEvent) (s : State) : (emitEb e s).encSr = s.encSr := rfl
@[simp] theorem emitEb_encCnt (e : EbEvent) (s : State) : (emitEb e s).encCnt = s.encCnt := rfl
@[simp] theorem emitEb_encActive (e : EbEvent) (s : State) : (emitEb e s).encActive = s.encActive := rfl
@[simp] theorem emitEb_encErr (e : EbEvent) (s : State) : (emitEb e s).encErr = s.encErr := rfl
@[simp] theorem emitEb_tm (e : EbEvent) (s : State) : (emitEb e s).tm = s.tm := rfl
@[simp] theorem emitEb_rootV (e : EbEvent) (s : State) : (emitEb e s).rootV = s.rootV := rfl
@[simp] theorem emitEb_rootIdx (e : EbEvent) (s : State) : (emitEb e s).rootIdx = s.rootIdx := rfl
@[simp] theorem emitEb_decPtr (e : EbEvent) (s : State) : (emitEb e s).decPtr = s.decPtr := rfl
@[simp] theorem emitEb_decActive (e : EbEvent) (s : State) : (emitEb e s).decActive = s.decActive := rfl
@[simp] theorem emitEb_decErr (e : EbEvent) (s : State) : (emitEb e s).decErr = s.decErr := rfl
@[simp] theorem emitEb_ebLog (e : EbEvent) (s : State) : (emitEb e s).ebLog = s.ebLog ++ [.event e] := rfl
@[simp] theorem emitEb_dsLog (e : EbEvent) (s : State) : (emitEb e s).dsLog = s.dsLog := rfl
@[simp] theorem emitEb_cfgIn (e : EbEvent) (s : State) : (emitEb e s).cfgIn = s.cfgIn := rfl
@[simp] theorem emitEb_esIn (e : EbEvent) (s : State) : (emitEb e s).esIn = s.esIn := rfl
@[simp] theorem emitEb_dbIn (e : EbEvent) (s : State) : (emitEb e s).dbIn = s.dbIn := rfl
@[simp] theorem emitEb_sched (e : EbEvent) (s : State) : (emitEb e s).sched = s.sched := rfl

@[simp] theorem emitDs_params (e : DsEvent) (s : State) : (emitDs e s).params = s.params := rfl
@[simp] theorem emitDs_ct (e : DsEvent) (s : State) : (emitDs e s).ct = s.ct := rfl
@[simp] theorem emitDs_encSr (e : DsEvent) (s : State) : (emitDs e s).encSr = s.encSr := rfl
@[simp] theorem emitDs_encCnt (e : DsEvent) (s : State) : (emitDs e s).encCnt = s.encCnt := rfl
@[simp] theorem emitDs_encActive (e : DsEvent) (s : State) : (emitDs e s).encActive = s.encActive := rfl
@[simp] theorem emitDs_encErr (e : DsEvent) (s : State) : (emitDs e s).encErr = s.encErr := rfl
@[simp] theorem emitDs_tm (e : DsEvent) (s : State) : (emitDs e s).tm = s.tm := rfl
@[simp] theorem emitDs_rootV (e : DsEvent) (s : State) : (emitDs e s).rootV = s.rootV := rfl
@[simp] theorem emitDs_rootIdx (e : DsEvent) (s : State) : (emitDs e s).rootIdx = s.rootIdx := rfl
@[simp] theorem emitDs_decPtr (e : DsEvent) (s : State) : (emitDs e s).decPtr = s.decPtr := rfl
@[simp] theorem emitDs_decActive (e : DsEvent) (s : State) : (emitDs e s).decActive = s.decActive := rfl
@[simp] theorem emitDs_decErr (e : DsEvent) (s : State) : (emitDs e s).decErr = s.decErr := rfl
@[simp] theorem emitDs_ebLog (e : DsEvent) (s : State) : (emitDs e s).ebLog = s.ebLog := rfl
@[simp] theorem emitDs_dsLog (e : DsEvent) (s : State) : (emitDs e s).dsLog = s.dsLog ++ [.event e] := rfl
@[simp] theorem emitDs_cfgIn (e : DsEvent) (s : State) : (emitDs e s).cfgIn = s.cfgIn := rfl
@[simp] theorem emitDs_esIn (e : DsEvent) (s : State) : (emitDs e s).esIn = s.esIn := rfl
@[simp] theorem emitDs_dbIn (e : DsEvent) (s : State) : (emitDs e s).dbIn = s.dbIn := rfl
@[simp] theorem emitDs_sched (e : DsEvent) (s : State) : (emitDs e s).sched = s.sched := rfl

@[simp] theorem takeFault_enc_params (f : FaultCode) (s : State) : (takeFault .enc f s).params = s.params := rfl
@[simp] theorem takeFault_enc_ct (f : FaultCode) (s : State) : (takeFault .enc f s).ct = s.ct := rfl
@[simp] theorem takeFault_enc_encSr (f : FaultCode) (s : State) : (takeFault .enc f s).encSr = s.encSr := rfl
@[simp] theorem takeFault_enc_encCnt (f : FaultCode) (s : State) : (takeFault .enc f s).encCnt = 0 := rfl
@[simp] theorem takeFault_enc_encActive (f : FaultCode) (s : State) : (takeFault .enc f s).encActive = s.encActive := rfl
@[simp] theorem takeFault_enc_encErr (f : FaultCode) (s : State) : (takeFault .enc f s).encErr = some f := rfl
@[simp] theorem takeFault_enc_tm (f : FaultCode) (s : State) : (takeFault .enc f s).tm = s.tm := rfl
@[simp] theorem takeFault_enc_rootV (f : FaultCode) (s : State) : (takeFault .enc f s).rootV = s.rootV := rfl
@[simp] theorem takeFault_enc_rootIdx (f : FaultCode) (s : State) : (takeFault .enc f s).rootIdx = s.rootIdx := rfl
@[simp] theorem takeFault_enc_decPtr (f : FaultCode) (s : State) : (takeFault .enc f s).decPtr = s.decPtr := rfl
@[simp] theorem takeFault_enc_decActive (f : FaultCode) (s : State) : (takeFault .enc f s).decActive = s.decActive := rfl
@[simp] theorem takeFault_enc_decErr (f : FaultCode) (s : State) : (takeFault .enc f s).decErr = s.decErr := rfl
@[simp] theorem takeFault_enc_ebLog (f : FaultCode) (s : State) : (takeFault .enc f s).ebLog = s.ebLog := rfl
@[simp] theorem takeFault_enc_dsLog (f : FaultCode) (s : State) : (takeFault .enc f s).dsLog = s.dsLog := rfl
@[simp] theorem takeFault_enc_cfgIn (f : FaultCode) (s : State) : (takeFault .enc f s).cfgIn = s.cfgIn := rfl
@[simp] theorem takeFault_enc_esIn (f : FaultCode) (s : State) : (takeFault .enc f s).esIn = s.esIn := rfl
@[simp] theorem takeFault_enc_dbIn (f : FaultCode) (s : State) : (takeFault .enc f s).dbIn = s.dbIn := rfl
@[simp] theorem takeFault_enc_sched (f : FaultCode) (s : State) : (takeFault .enc f s).sched = s.sched := rfl

@[simp] theorem takeFault_dec_params (f : FaultCode) (s : State) : (takeFault .dec f s).params = s.params := rfl
@[simp] theorem takeFault_dec_ct (f : FaultCode) (s : State) : (takeFault .dec f s).ct = s.ct := rfl
@[simp] theorem takeFault_dec_encSr (f : FaultCode) (s : State) : (takeFault .dec f s).encSr = s.encSr := rfl
@[simp] theorem takeFault_dec_encCnt (f : FaultCode) (s : State) : (takeFault .dec f s).encCnt = s.encCnt := rfl
@[simp] theorem takeFault_dec_encActive (f : FaultCode) (s : State) : (takeFault .dec f s).encActive = s.encActive := rfl
@[simp] theorem takeFault_dec_encErr (f : FaultCode) (s : State) : (takeFault .dec f s).encErr = s.encErr := rfl
@[simp] theorem takeFault_dec_tm (f : FaultCode) (s : State) : (takeFault .dec f s).tm = s.tm := rfl
@[simp] theorem takeFault_dec_rootV (f : FaultCode) (s : State) : (takeFault .dec f s).rootV = s.rootV := rfl
@[simp] theorem takeFault_dec_rootIdx (f : FaultCode) (s : State) : (takeFault .dec f s).rootIdx = s.rootIdx := rfl
@[simp] theorem takeFault_dec_decPtr (f : FaultCode) (s : State) : (takeFault .dec f s).decPtr = s.decPtr := rfl
@[simp] theorem takeFault_dec_decActive (f : FaultCode) (s : State) : (takeFault .dec f s).decActive = s.decActive := rfl
@[simp] theorem takeFault_dec_decErr (f : FaultCode) (s : State) : (takeFault .dec f s).decErr = some f := rfl
@[simp] theorem takeFault_dec_ebLog (f : FaultCode) (s : State) : (takeFault .dec f s).ebLog = s.ebLog := rfl
@[simp] theorem takeFault_dec_dsLog (f : FaultCode) (s : State) : (takeFault .dec f s).dsLog = s.dsLog := rfl
@[simp] theorem takeFault_dec_cfgIn (f : FaultCode) (s : State) : (takeFault .dec f s).cfgIn = s.cfgIn := rfl
@[simp] theorem takeFault_dec_esIn (f : FaultCode) (s : State) : (takeFault .dec f s).esIn = s.esIn := rfl
@[simp] theorem takeFault_dec_dbIn (f : FaultCode) (s : State) : (takeFault .dec f s).dbIn = s.dbIn := rfl
@[simp] theorem takeFault_dec_sched (f : FaultCode) (s : State) : (takeFault .dec f s).sched = s.sched := rfl

@[simp] theorem clearUnit_enc_params (m : Mark) (s : State) : (clearUnit .enc m s).params = s.params := rfl
@[simp] theorem clearUnit_enc_ct (m : Mark) (s : State) : (clearUnit .enc m s).ct = [] := rfl
@[simp] theorem clearUnit_enc_encSr (m : Mark) (s : State) : (clearUnit .enc m s).encSr = 0 := rfl
@[simp] theorem clearUnit_enc_encCnt (m : Mark) (s : State) : (clearUnit .enc m s).encCnt = 0 := rfl
@[simp] theorem clearUnit_enc_encActive (m : Mark) (s : State) : (clearUnit .enc m s).encActive = false := rfl
@[simp] theorem clearUnit_enc_encErr (m : Mark) (s : State) : (clearUnit .enc m s).encErr = none := rfl
@[simp] theorem clearUnit_enc_tm (m : Mark) (s : State) : (clearUnit .enc m s).tm = s.tm := rfl
@[simp] theorem clearUnit_enc_rootV (m : Mark) (s : State) : (clearUnit .enc m s).rootV = s.rootV := rfl
@[simp] theorem clearUnit_enc_rootIdx (m : Mark) (s : State) : (clearUnit .enc m s).rootIdx = s.rootIdx := rfl
@[simp] theorem clearUnit_enc_decPtr (m : Mark) (s : State) : (clearUnit .enc m s).decPtr = s.decPtr := rfl
@[simp] theorem clearUnit_enc_decActive (m : Mark) (s : State) : (clearUnit .enc m s).decActive = s.decActive := rfl
@[simp] theorem clearUnit_enc_decErr (m : Mark) (s : State) : (clearUnit .enc m s).decErr = s.decErr := rfl
@[simp] theorem clearUnit_enc_ebLog (m : Mark) (s : State) : (clearUnit .enc m s).ebLog = s.ebLog ++ [.mark m] := rfl
@[simp] theorem clearUnit_enc_dsLog (m : Mark) (s : State) : (clearUnit .enc m s).dsLog = s.dsLog := rfl
@[simp] theorem clearUnit_enc_cfgIn (m : Mark) (s : State) : (clearUnit .enc m s).cfgIn = s.cfgIn := rfl
@[simp] theorem clearUnit_enc_esIn (m : Mark) (s : State) : (clearUnit .enc m s).esIn = s.esIn := rfl
@[simp] theorem clearUnit_enc_dbIn (m : Mark) (s : State) : (clearUnit .enc m s).dbIn = s.dbIn := rfl
@[simp] theorem clearUnit_enc_sched (m : Mark) (s : State) : (clearUnit .enc m s).sched = s.sched := rfl

@[simp] theorem clearUnit_dec_params (m : Mark) (s : State) : (clearUnit .dec m s).params = s.params := rfl
@[simp] theorem clearUnit_dec_ct (m : Mark) (s : State) : (clearUnit .dec m s).ct = s.ct := rfl
@[simp] theorem clearUnit_dec_encSr (m : Mark) (s : State) : (clearUnit .dec m s).encSr = s.encSr := rfl
@[simp] theorem clearUnit_dec_encCnt (m : Mark) (s : State) : (clearUnit .dec m s).encCnt = s.encCnt := rfl
@[simp] theorem clearUnit_dec_encActive (m : Mark) (s : State) : (clearUnit .dec m s).encActive = s.encActive := rfl
@[simp] theorem clearUnit_dec_encErr (m : Mark) (s : State) : (clearUnit .dec m s).encErr = s.encErr := rfl
@[simp] theorem clearUnit_dec_tm (m : Mark) (s : State) : (clearUnit .dec m s).tm = [] := rfl
@[simp] theorem clearUnit_dec_rootV (m : Mark) (s : State) : (clearUnit .dec m s).rootV = false := rfl
@[simp] theorem clearUnit_dec_rootIdx (m : Mark) (s : State) : (clearUnit .dec m s).rootIdx = 0 := rfl
@[simp] theorem clearUnit_dec_decPtr (m : Mark) (s : State) : (clearUnit .dec m s).decPtr = 0 := rfl
@[simp] theorem clearUnit_dec_decActive (m : Mark) (s : State) : (clearUnit .dec m s).decActive = false := rfl
@[simp] theorem clearUnit_dec_decErr (m : Mark) (s : State) : (clearUnit .dec m s).decErr = none := rfl
@[simp] theorem clearUnit_dec_ebLog (m : Mark) (s : State) : (clearUnit .dec m s).ebLog = s.ebLog := rfl
@[simp] theorem clearUnit_dec_dsLog (m : Mark) (s : State) : (clearUnit .dec m s).dsLog = s.dsLog ++ [.mark m] := rfl
@[simp] theorem clearUnit_dec_cfgIn (m : Mark) (s : State) : (clearUnit .dec m s).cfgIn = s.cfgIn := rfl
@[simp] theorem clearUnit_dec_esIn (m : Mark) (s : State) : (clearUnit .dec m s).esIn = s.esIn := rfl
@[simp] theorem clearUnit_dec_dbIn (m : Mark) (s : State) : (clearUnit .dec m s).dbIn = s.dbIn := rfl
@[simp] theorem clearUnit_dec_sched (m : Mark) (s : State) : (clearUnit .dec m s).sched = s.sched := rfl

@[simp] theorem resetStep_params (s : State) : (resetStep s).params = s.params := rfl
@[simp] theorem resetStep_ct (s : State) : (resetStep s).ct = [] := rfl
@[simp] theorem resetStep_encSr (s : State) : (resetStep s).encSr = 0 := rfl
@[simp] theorem resetStep_encCnt (s : State) : (resetStep s).encCnt = 0 := rfl
@[simp] theorem resetStep_encActive (s : State) : (resetStep s).encActive = false := rfl
@[simp] theorem resetStep_encErr (s : State) : (resetStep s).encErr = none := rfl
@[simp] theorem resetStep_tm (s : State) : (resetStep s).tm = [] := rfl
@[simp] theorem resetStep_rootV (s : State) : (resetStep s).rootV = false := rfl
@[simp] theorem resetStep_rootIdx (s : State) : (resetStep s).rootIdx = 0 := rfl
@[simp] theorem resetStep_decPtr (s : State) : (resetStep s).decPtr = 0 := rfl
@[simp] theorem resetStep_decActive (s : State) : (resetStep s).decActive = false := rfl
@[simp] theorem resetStep_decErr (s : State) : (resetStep s).decErr = none := rfl
@[simp] theorem resetStep_ebLog (s : State) : (resetStep s).ebLog = s.ebLog ++ [.mark .reset] := rfl
@[simp] theorem resetStep_dsLog (s : State) : (resetStep s).dsLog = s.dsLog ++ [.mark .reset] := rfl
@[simp] theorem resetStep_cfgIn (s : State) : (resetStep s).cfgIn = s.cfgIn := rfl
@[simp] theorem resetStep_esIn (s : State) : (resetStep s).esIn = s.esIn := rfl
@[simp] theorem resetStep_dbIn (s : State) : (resetStep s).dbIn = s.dbIn := rfl
@[simp] theorem resetStep_sched (s : State) : (resetStep s).sched = s.sched := rfl

@[simp] theorem withSched_params (ts : List Turn) (s : State) : (s.withSched ts).params = s.params := rfl
@[simp] theorem withSched_ct (ts : List Turn) (s : State) : (s.withSched ts).ct = s.ct := rfl
@[simp] theorem withSched_encSr (ts : List Turn) (s : State) : (s.withSched ts).encSr = s.encSr := rfl
@[simp] theorem withSched_encCnt (ts : List Turn) (s : State) : (s.withSched ts).encCnt = s.encCnt := rfl
@[simp] theorem withSched_encActive (ts : List Turn) (s : State) : (s.withSched ts).encActive = s.encActive := rfl
@[simp] theorem withSched_encErr (ts : List Turn) (s : State) : (s.withSched ts).encErr = s.encErr := rfl
@[simp] theorem withSched_tm (ts : List Turn) (s : State) : (s.withSched ts).tm = s.tm := rfl
@[simp] theorem withSched_rootV (ts : List Turn) (s : State) : (s.withSched ts).rootV = s.rootV := rfl
@[simp] theorem withSched_rootIdx (ts : List Turn) (s : State) : (s.withSched ts).rootIdx = s.rootIdx := rfl
@[simp] theorem withSched_decPtr (ts : List Turn) (s : State) : (s.withSched ts).decPtr = s.decPtr := rfl
@[simp] theorem withSched_decActive (ts : List Turn) (s : State) : (s.withSched ts).decActive = s.decActive := rfl
@[simp] theorem withSched_decErr (ts : List Turn) (s : State) : (s.withSched ts).decErr = s.decErr := rfl
@[simp] theorem withSched_ebLog (ts : List Turn) (s : State) : (s.withSched ts).ebLog = s.ebLog := rfl
@[simp] theorem withSched_dsLog (ts : List Turn) (s : State) : (s.withSched ts).dsLog = s.dsLog := rfl
@[simp] theorem withSched_cfgIn (ts : List Turn) (s : State) : (s.withSched ts).cfgIn = s.cfgIn := rfl
@[simp] theorem withSched_esIn (ts : List Turn) (s : State) : (s.withSched ts).esIn = s.esIn := rfl
@[simp] theorem withSched_dbIn (ts : List Turn) (s : State) : (s.withSched ts).dbIn = s.dbIn := rfl
@[simp] theorem withSched_sched (ts : List Turn) (s : State) : (s.withSched ts).sched = ts := rfl

@[simp] theorem withInput_cfg_params (ws : List OpWord) (s : State) : (s.withInput .cfg ws).params = s.params := rfl
@[simp] theorem withInput_cfg_ct (ws : List OpWord) (s : State) : (s.withInput .cfg ws).ct = s.ct := rfl
@[simp] theorem withInput_cfg_encSr (ws : List OpWord) (s : State) : (s.withInput .cfg ws).encSr = s.encSr := rfl
@[simp] theorem withInput_cfg_encCnt (ws : List OpWord) (s : State) : (s.withInput .cfg ws).encCnt = s.encCnt := rfl
@[simp] theorem withInput_cfg_encActive (ws : List OpWord) (s : State) : (s.withInput .cfg ws).encActive = s.encActive := rfl
@[simp] theorem withInput_cfg_encErr (ws : List OpWord) (s : State) : (s.withInput .cfg ws).encErr = s.encErr := rfl
@[simp] theorem withInput_cfg_tm (ws : List OpWord) (s : State) : (s.withInput .cfg ws).tm = s.tm := rfl
@[simp] theorem withInput_cfg_rootV (ws : List OpWord) (s : State) : (s.withInput .cfg ws).rootV = s.rootV := rfl
@[simp] theorem withInput_cfg_rootIdx (ws : List OpWord) (s : State) : (s.withInput .cfg ws).rootIdx = s.rootIdx := rfl
@[simp] theorem withInput_cfg_decPtr (ws : List OpWord) (s : State) : (s.withInput .cfg ws).decPtr = s.decPtr := rfl
@[simp] theorem withInput_cfg_decActive (ws : List OpWord) (s : State) : (s.withInput .cfg ws).decActive = s.decActive := rfl
@[simp] theorem withInput_cfg_decErr (ws : List OpWord) (s : State) : (s.withInput .cfg ws).decErr = s.decErr := rfl
@[simp] theorem withInput_cfg_ebLog (ws : List OpWord) (s : State) : (s.withInput .cfg ws).ebLog = s.ebLog := rfl
@[simp] theorem withInput_cfg_dsLog (ws : List OpWord) (s : State) : (s.withInput .cfg ws).dsLog = s.dsLog := rfl
@[simp] theorem withInput_cfg_cfgIn (ws : List OpWord) (s : State) : (s.withInput .cfg ws).cfgIn = ws := rfl
@[simp] theorem withInput_cfg_esIn (ws : List OpWord) (s : State) : (s.withInput .cfg ws).esIn = s.esIn := rfl
@[simp] theorem withInput_cfg_dbIn (ws : List OpWord) (s : State) : (s.withInput .cfg ws).dbIn = s.dbIn := rfl
@[simp] theorem withInput_cfg_sched (ws : List OpWord) (s : State) : (s.withInput .cfg ws).sched = s.sched := rfl

@[simp] theorem withInput_es_params (ws : List OpWord) (s : State) : (s.withInput .es ws).params = s.params := rfl
@[simp] theorem withInput_es_ct (ws : List OpWord) (s : State) : (s.withInput .es ws).ct = s.ct := rfl
@[simp] theorem withInput_es_encSr (ws : List OpWord) (s : State) : (s.withInput .es ws).encSr = s.encSr := rfl
@[simp] theorem withInput_es_encCnt (ws : List OpWord) (s : State) : (s.withInput .es ws).encCnt = s.encCnt := rfl
@[simp] theorem withInput_es_encActive (ws : List OpWord) (s : State) : (s.withInput .es ws).encActive = s.encActive := rfl
@[simp] theorem withInput_es_encErr (ws : List OpWord) (s : State) : (s.withInput .es ws).encErr = s.encErr := rfl
@[simp] theorem withInput_es_tm (ws : List OpWord) (s : State) : (s.withInput .es ws).tm = s.tm := rfl
@[simp] theorem withInput_es_rootV (ws : List OpWord) (s : State) : (s.withInput .es ws).rootV = s.rootV := rfl
@[simp] theorem withInput_es_rootIdx (ws : List OpWord) (s : State) : (s.withInput .es ws).rootIdx = s.rootIdx := rfl
@[simp] theorem withInput_es_decPtr (ws : List OpWord) (s : State) : (s.withInput .es ws).decPtr = s.decPtr := rfl
@[simp] theorem withInput_es_decActive (ws : List OpWord) (s : State) : (s.withInput .es ws).decActive = s.decActive := rfl
@[simp] theorem withInput_es_decErr (ws : List OpWord) (s : State) : (s.withInput .es ws).decErr = s.decErr := rfl
@[simp] theorem withInput_es_ebLog (ws : List OpWord) (s : State) : (s.withInput .es ws).ebLog = s.ebLog := rfl
@[simp] theorem withInput_es_dsLog (ws : List OpWord) (s : State) : (s.withInput .es ws).dsLog = s.dsLog := rfl
@[simp] theorem withInput_es_cfgIn (ws : List OpWord) (s : State) : (s.withInput .es ws).cfgIn = s.cfgIn := rfl
@[simp] theorem withInput_es_esIn (ws : List OpWord) (s : State) : (s.withInput .es ws).esIn = ws := rfl
@[simp] theorem withInput_es_dbIn (ws : List OpWord) (s : State) : (s.withInput .es ws).dbIn = s.dbIn := rfl
@[simp] theorem withInput_es_sched (ws : List OpWord) (s : State) : (s.withInput .es ws).sched = s.sched := rfl

@[simp] theorem withInput_db_params (ws : List OpWord) (s : State) : (s.withInput .db ws).params = s.params := rfl
@[simp] theorem withInput_db_ct (ws : List OpWord) (s : State) : (s.withInput .db ws).ct = s.ct := rfl
@[simp] theorem withInput_db_encSr (ws : List OpWord) (s : State) : (s.withInput .db ws).encSr = s.encSr := rfl
@[simp] theorem withInput_db_encCnt (ws : List OpWord) (s : State) : (s.withInput .db ws).encCnt = s.encCnt := rfl
@[simp] theorem withInput_db_encActive (ws : List OpWord) (s : State) : (s.withInput .db ws).encActive = s.encActive := rfl
@[simp] theorem withInput_db_encErr (ws : List OpWord) (s : State) : (s.withInput .db ws).encErr = s.encErr := rfl
@[simp] theorem withInput_db_tm (ws : List OpWord) (s : State) : (s.withInput .db ws).tm = s.tm := rfl
@[simp] theorem withInput_db_rootV (ws : List OpWord) (s : State) : (s.withInput .db ws).rootV = s.rootV := rfl
@[simp] theorem withInput_db_rootIdx (ws : List OpWord) (s : State) : (s.withInput .db ws).rootIdx = s.rootIdx := rfl
@[simp] theorem withInput_db_decPtr (ws : List OpWord) (s : State) : (s.withInput .db ws).decPtr = s.decPtr := rfl
@[simp] theorem withInput_db_decActive (ws : List OpWord) (s : State) : (s.withInput .db ws).decActive = s.decActive := rfl
@[simp] theorem withInput_db_decErr (ws : List OpWord) (s : State) : (s.withInput .db ws).decErr = s.decErr := rfl
@[simp] theorem withInput_db_ebLog (ws : List OpWord) (s : State) : (s.withInput .db ws).ebLog = s.ebLog := rfl
@[simp] theorem withInput_db_dsLog (ws : List OpWord) (s : State) : (s.withInput .db ws).dsLog = s.dsLog := rfl
@[simp] theorem withInput_db_cfgIn (ws : List OpWord) (s : State) : (s.withInput .db ws).cfgIn = s.cfgIn := rfl
@[simp] theorem withInput_db_esIn (ws : List OpWord) (s : State) : (s.withInput .db ws).esIn = s.esIn := rfl
@[simp] theorem withInput_db_dbIn (ws : List OpWord) (s : State) : (s.withInput .db ws).dbIn = ws := rfl
@[simp] theorem withInput_db_sched (ws : List OpWord) (s : State) : (s.withInput .db ws).sched = s.sched := rfl

@[simp] theorem withInput_params (port : Port) (ws : List OpWord) (s : State) : (s.withInput port ws).params = s.params := by
  cases port <;> rfl
@[simp] theorem withInput_ct (port : Port) (ws : List OpWord) (s : State) : (s.withInput port ws).ct = s.ct := by
  cases port <;> rfl
@[simp] theorem withInput_encSr (port : Port) (ws : List OpWord) (s : State) : (s.withInput port ws).encSr = s.encSr := by
  cases port <;> rfl
@[simp] theorem withInput_encCnt (port : Port) (ws : List OpWord) (s : State) : (s.withInput port ws).encCnt = s.encCnt := by
  cases port <;> rfl
@[simp] theorem withInput_encActive (port : Port) (ws : List OpWord) (s : State) : (s.withInput port ws).encActive = s.encActive := by
  cases port <;> rfl
@[simp] theorem withInput_encErr (port : Port) (ws : List OpWord) (s : State) : (s.withInput port ws).encErr = s.encErr := by
  cases port <;> rfl
@[simp] theorem withInput_tm (port : Port) (ws : List OpWord) (s : State) : (s.withInput port ws).tm = s.tm := by
  cases port <;> rfl
@[simp] theorem withInput_rootV (port : Port) (ws : List OpWord) (s : State) : (s.withInput port ws).rootV = s.rootV := by
  cases port <;> rfl
@[simp] theorem withInput_rootIdx (port : Port) (ws : List OpWord) (s : State) : (s.withInput port ws).rootIdx = s.rootIdx := by
  cases port <;> rfl
@[simp] theorem withInput_decPtr (port : Port) (ws : List OpWord) (s : State) : (s.withInput port ws).decPtr = s.decPtr := by
  cases port <;> rfl
@[simp] theorem withInput_decActive (port : Port) (ws : List OpWord) (s : State) : (s.withInput port ws).decActive = s.decActive := by
  cases port <;> rfl
@[simp] theorem withInput_decErr (port : Port) (ws : List OpWord) (s : State) : (s.withInput port ws).decErr = s.decErr := by
  cases port <;> rfl
@[simp] theorem withInput_ebLog (port : Port) (ws : List OpWord) (s : State) : (s.withInput port ws).ebLog = s.ebLog := by
  cases port <;> rfl
@[simp] theorem withInput_dsLog (port : Port) (ws : List OpWord) (s : State) : (s.withInput port ws).dsLog = s.dsLog := by
  cases port <;> rfl
@[simp] theorem withInput_sched (port : Port) (ws : List OpWord) (s : State) : (s.withInput port ws).sched = s.sched := by
  cases port <;> rfl

@[simp] theorem input_withInput_same (port : Port) (ws : List OpWord) (s : State) : (s.withInput port ws).input port = ws := by
  cases port <;> rfl

theorem input_withInput_other {port q : Port} (h : q ≠ port) (ws : List OpWord) (s : State) :
    (s.withInput port ws).input q = s.input q := by
  cases port <;> cases q <;> first | rfl | exact absurd rfl h

@[simp] theorem withInput_withInput (port : Port) (ws vs : List OpWord) (s : State) :
    (s.withInput port ws).withInput port vs = s.withInput port vs := by
  cases port <;> rfl

@[simp] theorem withInput_input (port : Port) (s : State) : s.withInput port (s.input port) = s := by
  cases port <;> rfl

@[simp] theorem withSched_withSched (ts us : List Turn) (s : State) : (s.withSched ts).withSched us = s.withSched us := rfl

@[simp] theorem withSched_self (s : State) : s.withSched s.sched = s := rfl

theorem withInput_withSched (port : Port) (ws : List OpWord) (ts : List Turn) (s : State) :
    (s.withSched ts).withInput port ws = (s.withInput port ws).withSched ts := by
  cases port <;> rfl

@[simp] theorem input_withSched (port : Port) (ts : List Turn) (s : State) : (s.withSched ts).input port = s.input port := by
  cases port <;> rfl

end Sys2Proof.Machine
end

