-- ==== Sys2Proof/Laws/Exec.lean ====
section
/-! SUPPORT. What each meaning and one step can do, said once: later proofs cite these and do not unfold the meanings. -/

namespace Sys2Proof.Machine

theorem execLdcode_cases {sym len code : Nat} {s t : State} (h : execLdcode sym len code s = .next t) :
    (s.encErr ≠ none ∧ t = s) ∨
    (s.encErr = none ∧ s.encActive = true ∧ t = takeFault .enc .tableBusy s) ∨
    (s.encErr = none ∧ s.encActive = false ∧ (len = 0 ∨ s.params.lenMax < len) ∧ t = takeFault .enc .argument s) ∨
    (s.encErr = none ∧ s.encActive = false ∧ 1 ≤ len ∧ len ≤ s.params.lenMax ∧ t = { s with ct := s.ct.write sym ⟨len, code⟩ }) := by
  unfold execLdcode at h
  split at h
  · simp_all [Option.isSome_iff_ne_none]
  · split at h
    · simp_all
    · split at h
      · simp_all
      · have : 1 ≤ len ∧ len ≤ s.params.lenMax := by omega
        simp_all

theorem illegalOp_cases {s t : State} (h : illegalOp s = .next t) :
    (s.encErr ≠ none ∧ t = s) ∨ (s.encErr = none ∧ t = takeFault .enc .illegalOp s) := by
  unfold illegalOp at h
  split at h
  · simp_all [Option.isSome_iff_ne_none]
  · simp_all

theorem loadTree_cases {write : State → State} {s t : State} (h : loadTree write s = .next t) :
    (s.decErr ≠ none ∧ t = s) ∨
    (s.decErr = none ∧ s.decActive = true ∧ t = takeFault .dec .tableBusy s) ∨
    (s.decErr = none ∧ s.decActive = false ∧ t = write s) := by
  unfold loadTree at h
  split at h
  · simp_all [Option.isSome_iff_ne_none]
  · split at h <;> simp_all

theorem execEncsym_cases {sym : Symbol} {s t : State} (h : execEncsym sym s = .next t) :
    ((s.encCnt ≠ 0 ∨ s.encErr ≠ none) ∧ t = s) ∨
    (s.encCnt = 0 ∧ s.encErr = none ∧ s.ct.read sym = none ∧ t = takeFault .enc .unknownSymbol s) ∨
    (∃ e, s.encCnt = 0 ∧ s.encErr = none ∧ s.ct.read sym = some e ∧
      t = { s with encSr := e.code, encCnt := e.len, encActive := true }) := by
  unfold execEncsym at h
  split at h
  · simp_all
  · split at h
    · simp_all [Option.isSome_iff_ne_none]
    · split at h <;> simp_all

theorem execEncend_cases {s t : State} (h : execEncend s = .next t) :
    ((s.encCnt ≠ 0 ∨ s.encErr ≠ none) ∧ t = s) ∨
    (s.encCnt = 0 ∧ s.encErr = none ∧ t = { emitEb .done s with encActive := false }) := by
  unfold execEncend at h
  split at h
  · simp_all
  · split at h
    · simp_all [Option.isSome_iff_ne_none]
    · simp_all

theorem rootNull_false_iff {s : State} : s.rootNull = false ↔ s.rootV = true ∧ ∃ e, s.tm.read s.rootIdx = some e := by
  simp [State.rootNull, Option.isSome_iff_exists]

theorem walkEdge_cases (b : Bool) (s : State) :
    walkEdge b s = takeFault .dec .argument s ∨
    (∃ l r sym, s.tm.read s.decPtr = some (.internal l r) ∧ s.tm.read (childIdx b l r) = some (.leaf sym) ∧
      walkEdge b s = { emitDs (.sym sym) s with decPtr := s.rootIdx, decActive := true }) ∨
    (∃ l r l' r', s.tm.read s.decPtr = some (.internal l r) ∧ s.tm.read (childIdx b l r) = some (.internal l' r') ∧
      walkEdge b s = { s with decPtr := childIdx b l r, decActive := true }) := by
  unfold walkEdge
  split
  · exact .inl rfl
  · exact .inl rfl
  · rename_i l r hc
    split
    · exact .inl rfl
    · rename_i sym ht
      exact .inr (.inl ⟨l, r, sym, hc, ht, rfl⟩)
    · rename_i l' r' ht
      exact .inr (.inr ⟨l, r, l', r', hc, ht, rfl⟩)

theorem execDecbit_cases {b : Bool} {s t : State} (h : execDecbit b s = .next t) :
    (s.decErr ≠ none ∧ t = s) ∨
    (s.decErr = none ∧ s.rootNull = true ∧ t = takeFault .dec .argument s) ∨
    (∃ sym, s.decErr = none ∧ s.rootNull = false ∧ s.tm.read s.rootIdx = some (.leaf sym) ∧
      t = { emitDs (.sym sym) s with decActive := true }) ∨
    (∃ l r, s.decErr = none ∧ s.rootNull = false ∧ s.tm.read s.rootIdx = some (.internal l r) ∧ t = walkEdge b s) := by
  unfold execDecbit at h
  split at h
  · simp_all [Option.isSome_iff_ne_none]
  · split at h
    · simp_all
    · split at h
      · simp_all
      · simp_all
      · simp_all [State.rootNull]

theorem execDecend_cases {s t : State} (h : execDecend s = .next t) :
    (s.decErr ≠ none ∧ t = s) ∨
    (s.decErr = none ∧ s.rootNull = true ∧ t = takeFault .dec .argument s) ∨
    (s.decErr = none ∧ s.rootNull = false ∧ s.decPtr ≠ s.rootIdx ∧ t = takeFault .dec .malformed s) ∨
    (s.decErr = none ∧ s.rootNull = false ∧ s.decPtr = s.rootIdx ∧ t = { emitDs .done s with decActive := false }) := by
  unfold execDecend at h
  split at h
  · simp_all [Option.isSome_iff_ne_none]
  · split at h
    · simp_all
    · split at h <;> simp_all

/-- Everything an op can do to the state, one constructor per outcome of its rule. -/
inductive Effect : Instr → State → State → Prop where
  | unchanged (i : Instr) (s : State) : Effect i s s
  | clrenc (s : State) : Effect .clrenc s (clearUnit .enc .clr s)
  | clrdec (s : State) : Effect .clrdec s (clearUnit .dec .clr s)
  | encFault (i : Instr) (s : State) (f : FaultCode) (hi : i.unit = .enc) (hf : f.raisedIn .enc = true) (he : s.encErr = none) :
      Effect i s (takeFault .enc f s)
  | decFault (i : Instr) (s : State) (f : FaultCode) (hi : i.unit = .dec) (hf : f.raisedIn .dec = true) (he : s.decErr = none) :
      Effect i s (takeFault .dec f s)
  | ldcode (sym len code : Nat) (s : State) (he : s.encErr = none) (ha : s.encActive = false) (h1 : 1 ≤ len)
      (h2 : len ≤ s.params.lenMax) : Effect (.ldcode sym len code) s { s with ct := s.ct.write sym ⟨len, code⟩ }
  | ldleaf (idx sym : Nat) (s : State) (he : s.decErr = none) (ha : s.decActive = false) :
      Effect (.ldleaf idx sym) s { s with tm := s.tm.write idx (.leaf sym) }
  | ldint (idx left right : Nat) (s : State) (he : s.decErr = none) (ha : s.decActive = false) :
      Effect (.ldint idx left right) s { s with tm := s.tm.write idx (.internal left right) }
  | setroot (idx : Nat) (s : State) (he : s.decErr = none) (ha : s.decActive = false) :
      Effect (.setroot idx) s { s with rootV := true, rootIdx := idx, decPtr := idx }
  | encsym (sym : Nat) (e : CtEntry) (s : State) (hc : s.encCnt = 0) (he : s.encErr = none) (hr : s.ct.read sym = some e) :
      Effect (.encsym sym) s { s with encSr := e.code, encCnt := e.len, encActive := true }
  | encend (s : State) (hc : s.encCnt = 0) (he : s.encErr = none) :
      Effect .encend s { emitEb .done s with encActive := false }
  | decbitSingleton (b : Bool) (sym : Nat) (s : State) (he : s.decErr = none) (hv : s.rootV = true)
      (hr : s.tm.read s.rootIdx = some (.leaf sym)) :
      Effect (.decbit b) s { emitDs (.sym sym) s with decActive := true }
  | decbitToLeaf (b : Bool) (l r left right sym : Nat) (s : State) (he : s.decErr = none) (hv : s.rootV = true)
      (hr : s.tm.read s.rootIdx = some (.internal l r)) (hp : s.tm.read s.decPtr = some (.internal left right))
      (hn : s.tm.read (childIdx b left right) = some (.leaf sym)) :
      Effect (.decbit b) s { emitDs (.sym sym) s with decPtr := s.rootIdx, decActive := true }
  | decbitToInternal (b : Bool) (l r left right l' r' : Nat) (s : State) (he : s.decErr = none) (hv : s.rootV = true)
      (hr : s.tm.read s.rootIdx = some (.internal l r)) (hp : s.tm.read s.decPtr = some (.internal left right))
      (hn : s.tm.read (childIdx b left right) = some (.internal l' r')) :
      Effect (.decbit b) s { s with decPtr := childIdx b left right, decActive := true }
  | decend (e : TmEntry) (s : State) (he : s.decErr = none) (hv : s.rootV = true) (hr : s.tm.read s.rootIdx = some e)
      (hp : s.decPtr = s.rootIdx) : Effect .decend s { emitDs .done s with decActive := false }

/-- An op's next state is one of its effects. -/
theorem exec_effect {i : Instr} {s t : State} (h : exec i s = .next t) : Effect i s t := by
  cases i with
  | clrenc =>
    obtain rfl : clearUnit .enc .clr s = t := Host.Outcome.next.inj h
    exact .clrenc s
  | clrdec =>
    obtain rfl : clearUnit .dec .clr s = t := Host.Outcome.next.inj h
    exact .clrdec s
  | ldcode sym len code =>
    rcases execLdcode_cases h with ⟨_, rfl⟩ | ⟨he, _, rfl⟩ | ⟨he, _, _, rfl⟩ | ⟨he, ha, h1, h2, rfl⟩
    · exact .unchanged _ _
    · exact .encFault _ _ _ rfl rfl he
    · exact .encFault _ _ _ rfl rfl he
    · exact .ldcode _ _ _ _ he ha h1 h2
  | reserved010 =>
    rcases illegalOp_cases h with ⟨_, rfl⟩ | ⟨he, rfl⟩
    · exact .unchanged _ _
    · exact .encFault _ _ _ rfl rfl he
  | reserved011 =>
    rcases illegalOp_cases h with ⟨_, rfl⟩ | ⟨he, rfl⟩
    · exact .unchanged _ _
    · exact .encFault _ _ _ rfl rfl he
  | ldleaf idx sym =>
    rcases loadTree_cases (show loadTree (writeNode idx (.leaf sym)) s = .next t from h) with ⟨_, rfl⟩ | ⟨he, _, rfl⟩ | ⟨he, ha, rfl⟩
    · exact .unchanged _ _
    · exact .decFault _ _ _ rfl rfl he
    · exact .ldleaf _ _ _ he ha
  | ldint idx left right =>
    rcases loadTree_cases (show loadTree (writeNode idx (.internal left right)) s = .next t from h) with ⟨_, rfl⟩ | ⟨he, _, rfl⟩ | ⟨he, ha, rfl⟩
    · exact .unchanged _ _
    · exact .decFault _ _ _ rfl rfl he
    · exact .ldint _ _ _ _ he ha
  | setroot idx =>
    rcases loadTree_cases (show loadTree (nameRoot idx) s = .next t from h) with ⟨_, rfl⟩ | ⟨he, _, rfl⟩ | ⟨he, ha, rfl⟩
    · exact .unchanged _ _
    · exact .decFault _ _ _ rfl rfl he
    · exact .setroot _ _ he ha
  | encsym sym =>
    rcases execEncsym_cases h with ⟨_, rfl⟩ | ⟨_, he, _, rfl⟩ | ⟨e, hc, he, hr, rfl⟩
    · exact .unchanged _ _
    · exact .encFault _ _ _ rfl rfl he
    · exact .encsym _ _ _ hc he hr
  | encend =>
    rcases execEncend_cases h with ⟨_, rfl⟩ | ⟨hc, he, rfl⟩
    · exact .unchanged _ _
    · exact .encend _ hc he
  | decbit b =>
    rcases execDecbit_cases h with ⟨_, rfl⟩ | ⟨he, _, rfl⟩ | ⟨sym, he, hn, hr, rfl⟩ | ⟨l, r, he, hn, hr, rfl⟩
    · exact .unchanged _ _
    · exact .decFault _ _ _ rfl rfl he
    · exact .decbitSingleton _ _ _ he (rootNull_false_iff.mp hn).1 hr
    · rcases walkEdge_cases b s with hw | ⟨l', r', sym, hp, ht, hw⟩ | ⟨l', r', l'', r'', hp, ht, hw⟩ <;> rw [hw]
      · exact .decFault _ _ _ rfl rfl he
      · exact .decbitToLeaf _ _ _ _ _ _ _ he (rootNull_false_iff.mp hn).1 hr hp ht
      · exact .decbitToInternal _ _ _ _ _ _ _ _ he (rootNull_false_iff.mp hn).1 hr hp ht
  | decend =>
    rcases execDecend_cases h with ⟨_, rfl⟩ | ⟨he, _, rfl⟩ | ⟨he, _, _, rfl⟩ | ⟨he, hn, hp, rfl⟩
    · exact .unchanged _ _
    · exact .decFault _ _ _ rfl rfl he
    · exact .decFault _ _ _ rfl rfl he
    · obtain ⟨hv, e, hr⟩ := rootNull_false_iff.mp hn
      exact .decend e _ he hv hr hp

/-- No meaning stops. -/
theorem exec_total (i : Instr) (s : State) : ∃ t, exec i s = .next t := by
  cases i <;> simp only [exec, execClrenc, execLdcode, execReserved010, execReserved011, illegalOp, execClrdec, execLdleaf, execLdint,
    execSetroot, loadTree, execEncsym, execEncend, execDecbit, execDecend]
  all_goals (repeat' split) <;> exact ⟨_, rfl⟩

/-- No op writes the parameters or the host's side of the state. -/
theorem exec_keeps_host_side {i : Instr} {s t : State} (h : exec i s = .next t) :
    t.params = s.params ∧ t.cfgIn = s.cfgIn ∧ t.esIn = s.esIn ∧ t.dbIn = s.dbIn ∧ t.sched = s.sched := by
  cases exec_effect h <;> simp

@[simp] theorem shift_params (s : State) : (shift s).params = s.params := by unfold shift; split <;> rfl
@[simp] theorem shift_cfgIn (s : State) : (shift s).cfgIn = s.cfgIn := by unfold shift; split <;> rfl
@[simp] theorem shift_esIn (s : State) : (shift s).esIn = s.esIn := by unfold shift; split <;> rfl
@[simp] theorem shift_dbIn (s : State) : (shift s).dbIn = s.dbIn := by unfold shift; split <;> rfl
@[simp] theorem shift_sched (s : State) : (shift s).sched = s.sched := by unfold shift; split <;> rfl

/-- What one step can do: the schedule moves on, and then nothing happens, or one op is accepted and performed, or one pending bit is
sent, or the block is reset. -/
theorem step_cases {s t : State} (h : step s = .next t) :
    t = s.withSched s.sched.tail ∨
    (∃ port w ws i, s.input port = w :: ws ∧ decode s.params port w = .ok i ∧ held i (s.withSched s.sched.tail) = false ∧
      exec i ((s.withSched s.sched.tail).withInput port ws) = .next t) ∨
    (s.encCnt ≠ 0 ∧ t = shift (s.withSched s.sched.tail)) ∨
    (s.sched.head? = some .rst ∧ t = resetStep (s.withSched s.sched.tail)) := by
  have hb : ∃ b, b = s.withSched s.sched.tail := ⟨_, rfl⟩
  obtain ⟨b, hb⟩ := hb
  have key : ∀ u, takeTurn u b = .next t → (u = .rst → s.sched.head? = some .rst) →
      t = b ∨ (∃ port w ws i, b.input port = w :: ws ∧ decode b.params port w = .ok i ∧ held i b = false ∧
        exec i (b.withInput port ws) = .next t) ∨ (b.encCnt ≠ 0 ∧ t = shift b) ∨
      (s.sched.head? = some .rst ∧ t = resetStep b) := by
    intro u hu hr
    cases u with
    | accept port =>
      simp only [takeTurn, acceptFrom] at hu
      split at hu
      · simp_all
      · rename_i w ws hin
        split at hu
        · simp at hu
        · rename_i i hi
          split at hu
          · simp_all
          · exact .inr (.inl ⟨port, w, ws, i, hin, hi, by simpa using ‹¬held i b = true›, hu⟩)
    | shift =>
      simp only [takeTurn, Host.Outcome.next.injEq] at hu
      by_cases hc : b.encCnt = 0
      · exact .inl (by rw [← hu]; simp [shift, hc])
      · exact .inr (.inr (.inl ⟨hc, hu.symm⟩))
    | rst =>
      simp only [takeTurn, Host.Outcome.next.injEq] at hu
      exact .inr (.inr (.inr ⟨hr rfl, hu.symm⟩))
  have goal : t = b ∨ (∃ port w ws i, b.input port = w :: ws ∧ decode b.params port w = .ok i ∧ held i b = false ∧
        exec i (b.withInput port ws) = .next t) ∨ (b.encCnt ≠ 0 ∧ t = shift b) ∨
      (s.sched.head? = some .rst ∧ t = resetStep b) := by
    unfold step nextStep at h
    split at h
    · rename_i u ts hs
      rw [hs] at hb key
      simp only [List.tail_cons] at hb
      rw [← hb] at h
      rw [hs]
      exact key u h (by rintro rfl; rfl)
    · rename_i hs
      have hbs : b = s := by rw [hb, hs]; exact (congrArg _ hs.symm).trans (withSched_self s)
      split at h
      · rename_i u hu
        rw [← hbs] at h
        refine key u h ?_
        rintro rfl
        unfold defaultTurn at hu
        repeat (split at hu; · simp at hu)
        simp at hu
      · rw [hbs]
        exact .inl (Host.Outcome.next.inj h).symm
  rw [hb] at goal
  simpa using goal

end Sys2Proof.Machine
end

