-- ==== Sys2Proof/Laws/Framing.lean ====
section
/-! SUPPORT. The laws of logs: what one entry more does to a history and to the messages. -/

namespace Sys2Proof.Machine

variable {ε α : Type}

@[simp] theorem history_nil : history ([] : List (LogEntry ε)) = [] := rfl

@[simp] theorem history_append_event (log : List (LogEntry ε)) (e : ε) : history (log ++ [.event e]) = history log ++ [e] := by
  simp [history, historyEntry]

@[simp] theorem history_append_clr (log : List (LogEntry ε)) : history (log ++ [.mark .clr]) = history log := by
  simp [history, historyEntry]

@[simp] theorem history_append_reset (log : List (LogEntry ε)) : history (log ++ [.mark .reset]) = [] := by
  simp [history, historyEntry]

@[simp] theorem history_append_events (log : List (LogEntry ε)) (es : List ε) :
    history (log ++ es.map .event) = history log ++ es := by
  induction es generalizing log with
  | nil => simp
  | cons e es ih => rw [List.map_cons, List.append_cons, ih, history_append_event, List.append_assoc, List.singleton_append]

@[simp] theorem frame_nil (item : ε → Option α) : frame item [] = ⟨[], []⟩ := rfl

theorem frame_append_singleton (item : ε → Option α) (log : List (LogEntry ε)) (x : LogEntry ε) :
    frame item (log ++ [x]) = frameEntry item (frame item log) x := by
  simp [frame]

@[simp] theorem frame_append_mark (item : ε → Option α) (log : List (LogEntry ε)) (m : Mark) :
    frame item (log ++ [.mark m]) = (frame item log).abandon := frame_append_singleton item log _

/-- Events that carry the items `as`, added to a log, are added to the unfinished message. -/
theorem frame_append_items {item : ε → Option α} {event : α → ε} (h : ∀ a, item (event a) = some a) (log : List (LogEntry ε)) (as : List α) :
    frame item (log ++ as.map fun a => .event (event a)) =
      ⟨(frame item log).results, (frame item log).unfinished ++ as⟩ := by
  induction as generalizing log with
  | nil => simp
  | cons a as ih =>
    rw [List.map_cons, List.append_cons, ih, frame_append_singleton]
    simp [frameEntry, h]

@[simp] theorem Framing.abandon_results (f : Framing α) : f.abandon.results = f.results := rfl

@[simp] theorem Framing.abandon_unfinished (f : Framing α) : f.abandon.unfinished = [] := rfl

theorem State.ebHist_congr {s t : State} (h : t.ebLog = s.ebLog) : t.ebHist = s.ebHist := congrArg history h

theorem State.dsHist_congr {s t : State} (h : t.dsLog = s.dsLog) : t.dsHist = s.dsHist := congrArg history h

theorem State.ebMessages_of_no_fault {s : State} (h : s.encErr = none) : s.ebMessages = frame EbEvent.item s.ebLog := by
  simp [State.ebMessages, h]

theorem State.dsMessages_of_no_fault {s : State} (h : s.decErr = none) : s.dsMessages = frame DsEvent.item s.dsLog := by
  simp [State.dsMessages, h]

theorem State.ebMessages_of_fault {s : State} (h : s.encErr ≠ none) : s.ebMessages = (frame EbEvent.item s.ebLog).abandon :=
  if_pos (Option.isSome_iff_ne_none.mpr h)

theorem State.dsMessages_of_fault {s : State} (h : s.decErr ≠ none) : s.dsMessages = (frame DsEvent.item s.dsLog).abandon :=
  if_pos (Option.isSome_iff_ne_none.mpr h)

end Sys2Proof.Machine
end

