-- ==== Sys2Proof/Laws/Host.lean ====
section
/-! SUPPORT. The laws of op sequences and of the host-side procedures, one per definition. -/

namespace Sys2Proof.Machine

@[simp] theorem execAll_nil (s : State) : execAll [] s = .next s := rfl

theorem execAll_cons {i : Instr} {s t : State} (h : exec i s = .next t) (is : List Instr) : execAll (i :: is) s = execAll is t := by
  simp only [execAll, h]

theorem execAll_append {is : List Instr} {s t : State} (h : execAll is s = .next t) (js : List Instr) :
    execAll (is ++ js) s = execAll js t := by
  induction is generalizing s with
  | nil =>
    obtain rfl : s = t := by simpa using h
    rfl
  | cons i is ih =>
    obtain ⟨u, hu⟩ := exec_total i s
    rw [execAll_cons hu] at h
    rw [List.cons_append, execAll_cons hu, ih h]

theorem read_mappingOf (ct : Memory CtEntry) (a : Symbol) : (mappingOf ct).read a = (ct.read a).map CtEntry.bits := by
  induction ct with
  | nil => rfl
  | cons e ct ih =>
    obtain ⟨k, e⟩ := e
    simp only [mappingOf, List.map_cons, Memory.read_cons] at *
    split <;> simp_all

/-- A sequence with a first symbol is encoded exactly when that symbol has a Code and the rest is encoded. -/
theorem refEncode_cons_ok_iff {M : Memory BitString} {a : Symbol} {S : List Symbol} {x : BitString} :
    refEncode M (a :: S) = .ok x ↔ ∃ c y, M.read a = some c ∧ refEncode M S = .ok y ∧ x = c ++ y := by
  simp only [refEncode]
  constructor
  · intro h
    split at h
    · simp at h
    · split at h
      · cases h
        exact ⟨_, _, by assumption, by assumption, rfl⟩
      · simp at h
  · rintro ⟨c, y, hc, hy, rfl⟩
    simp [hc, hy]

theorem walkBits_cons (root p : TreeNode) (b : Bool) (bs : BitString) :
    walkBits root p (b :: bs) =
      ((walkBit root p b).1.toList ++ (walkBits root (walkBit root p b).2 bs).1, (walkBits root (walkBit root p b).2 bs).2) := rfl

theorem removeMin_eq_none_iff {q : List TreeNode} : removeMin q = none ↔ q = [] := by
  cases q with
  | nil => simp [removeMin]
  | cons t ts =>
    simp only [removeMin]
    split
    · simp
    · split <;> simp

end Sys2Proof.Machine
end

