-- ==== Sys2Proof/Laws/Huffman.lean ====
section
/-! SUPPORT. The arithmetic behind the optimality of 40_table_construction.md R79: Kraft's inequality for prefix-free codes, and that merging
the two least weights (R66, R67) never costs a code anything; and what the Internal weights of a tree sum to. -/

namespace Sys2Proof.Machine

/-! ### Kraft's inequality -/

/-- The Kraft sum of a list of code lengths. -/
def kraft (ls : List Nat) : ℚ := (ls.map fun l => (1 / 2 : ℚ) ^ l).sum

@[simp] theorem kraft_nil : kraft [] = 0 := rfl

@[simp] theorem kraft_cons (l : Nat) (ls : List Nat) : kraft (l :: ls) = (1 / 2 : ℚ) ^ l + kraft ls := by
  simp [kraft]

@[simp] theorem kraft_append (ls ms : List Nat) : kraft (ls ++ ms) = kraft ls + kraft ms := by
  simp [kraft]

theorem kraft_perm {ls ms : List Nat} (h : ls.Perm ms) : kraft ls = kraft ms := (h.map _).sum_eq

theorem kraft_nonneg (ls : List Nat) : 0 ≤ kraft ls := by
  induction ls with
  | nil => simp
  | cons l ls ih => rw [kraft_cons]; positivity

/-- The strings that begin with `b`, without it. -/
def tailsAfter (b : Bool) (cs : List BitString) : List BitString :=
  cs.filterMap fun c => match c with
    | [] => none
    | d :: c => if d = b then some c else none

/-- Neither string is a prefix of the other. -/
def Incomparable (c d : BitString) : Prop := ¬ c <+: d ∧ ¬ d <+: c

theorem pairwise_tailsAfter (b : Bool) {cs : List BitString} (h : cs.Pairwise Incomparable) : (tailsAfter b cs).Pairwise Incomparable := by
  refine List.Pairwise.filterMap _ (fun c d hcd c' hc d' hd => ?_) h
  cases c <;> cases d <;> simp at hc hd
  obtain ⟨rfl, rfl⟩ := hc
  obtain ⟨rfl, rfl⟩ := hd
  simpa [Incomparable, List.cons_prefix_cons] using hcd

theorem kraft_split {cs : List BitString} (h : [] ∉ cs) :
    2 * kraft (cs.map List.length) = kraft ((tailsAfter false cs).map List.length) + kraft ((tailsAfter true cs).map List.length) := by
  induction cs with
  | nil => simp [tailsAfter]
  | cons c cs ih =>
    rw [List.mem_cons, not_or] at h
    cases c with
    | nil => exact absurd rfl h.1
    | cons d c =>
      have := ih h.2
      cases d <;> simp [tailsAfter, pow_succ] at this ⊢ <;> linarith

theorem length_tailsAfter_lt {cs : List BitString} (h : [] ∉ cs) (hne : cs ≠ []) (b : Bool) :
    ((tailsAfter b cs).map List.length).sum < (cs.map List.length).sum := by
  have key : ∀ cs : List BitString, ((tailsAfter b cs).map List.length).sum ≤ (cs.map List.length).sum := by
    intro cs
    induction cs with
    | nil => simp [tailsAfter]
    | cons c cs ih =>
      cases c with
      | nil => simpa [tailsAfter] using ih
      | cons d c =>
        by_cases hd : d = b <;> simp [tailsAfter, hd] at ih ⊢ <;> omega
  cases cs with
  | nil => exact absurd rfl hne
  | cons c cs =>
    have := key cs
    cases c with
    | nil => simp at h
    | cons d c => by_cases hd : d = b <;> simp [tailsAfter, hd] at this ⊢ <;> omega

/-- Kraft's inequality for prefix-free codes. -/
theorem kraft_le_one {cs : List BitString} (h : cs.Pairwise Incomparable) : kraft (cs.map List.length) ≤ 1 := by
  generalize hn : (cs.map List.length).sum = n
  induction n using Nat.strong_induction_on generalizing cs with
  | _ n ih =>
    by_cases he : [] ∈ cs
    · have : cs = [[]] := by
        cases cs with
        | nil => simp at he
        | cons c ds =>
          obtain ⟨hc, hp⟩ := List.pairwise_cons.mp h
          have hds : ds = [] := by
            by_contra hne
            obtain ⟨d, ds', rfl⟩ := List.exists_cons_of_ne_nil hne
            rcases List.mem_cons.mp he with rfl | he
            · exact (hc d (by simp)).1 List.nil_prefix
            · exact (hc [] he).2 List.nil_prefix
          subst hds
          simpa [eq_comm] using he
      simp [this]
    · by_cases hne : cs = []
      · simp [hne]
      · have h0 := ih _ (hn ▸ length_tailsAfter_lt he hne false) (pairwise_tailsAfter false h) rfl
        have h1 := ih _ (hn ▸ length_tailsAfter_lt he hne true) (pairwise_tailsAfter true h) rfl
        have := kraft_split he
        linarith

/-! ### Merging the two least weights never costs a code anything -/

/-- The total length of weights with the given code lengths. -/
def codeCost (P : List (Nat × Nat)) : Nat := (P.map fun e => e.1 * e.2).sum

@[simp] theorem codeCost_nil : codeCost [] = 0 := rfl

@[simp] theorem codeCost_cons (e : Nat × Nat) (P : List (Nat × Nat)) : codeCost (e :: P) = e.1 * e.2 + codeCost P := by simp [codeCost]

/-- The two longest code lengths can be given to the two least weights. -/
theorem longest_to_least {wa wb : Nat} (hab : wa ≤ wb) (R : List (Nat × Nat)) (hR : ∀ e ∈ R, wb ≤ e.1) (m1 m2 : Nat) (hm : m2 ≤ m1) :
    ∃ n1 n2 R', R'.map Prod.fst = R.map Prod.fst ∧ m2 ≤ n2 ∧ n2 ≤ n1 ∧ (∀ e ∈ R', e.2 ≤ n2) ∧
      kraft (n1 :: n2 :: R'.map Prod.snd) = kraft (m1 :: m2 :: R.map Prod.snd) ∧
      wa * n1 + wb * n2 + codeCost R' ≤ wa * m1 + wb * m2 + codeCost R := by
  induction R generalizing m1 m2 with
  | nil => exact ⟨m1, m2, [], rfl, le_refl _, hm, by simp, rfl, le_refl _⟩
  | cons e R ih =>
    obtain ⟨w, l⟩ := e
    have hw : wb ≤ w := hR (w, l) (by simp)
    -- the head keeps `k`, and `p1`, `p2` go to the two least
    have step : ∀ p1 p2 k : Nat, p2 ≤ p1 → m2 ≤ p2 → k ≤ p2 →
        (1 / 2 : ℚ) ^ p1 + ((1 / 2 : ℚ) ^ p2 + (1 / 2 : ℚ) ^ k) = (1 / 2 : ℚ) ^ m1 + ((1 / 2 : ℚ) ^ m2 + (1 / 2 : ℚ) ^ l) →
        wa * p1 + wb * p2 + w * k ≤ wa * m1 + wb * m2 + w * l →
        ∃ n1 n2 R', R'.map Prod.fst = ((w, l) :: R).map Prod.fst ∧ m2 ≤ n2 ∧ n2 ≤ n1 ∧ (∀ e ∈ R', e.2 ≤ n2) ∧
          kraft (n1 :: n2 :: R'.map Prod.snd) = kraft (m1 :: m2 :: ((w, l) :: R).map Prod.snd) ∧
          wa * n1 + wb * n2 + codeCost R' ≤ wa * m1 + wb * m2 + codeCost ((w, l) :: R) := by
      intro p1 p2 k h12 hm2 hk hK hC
      obtain ⟨n1, n2, R', h1, h2, h3, h4, h5, h6⟩ := ih (fun e he => hR e (by simp [he])) p1 p2 h12
      refine ⟨n1, n2, (w, k) :: R', by simp [h1], by omega, h3, ?_, ?_, ?_⟩
      · intro e he
        rcases List.mem_cons.mp he with rfl | he
        · simp only; omega
        · exact h4 e he
      · simp only [List.map_cons, kraft_cons] at h5 ⊢
        linarith
      · simp only [codeCost_cons]
        omega
    by_cases h1 : l ≤ m2
    · exact step m1 m2 l hm (le_refl _) h1 rfl (le_refl _)
    · by_cases h2 : l ≤ m1
      · refine step m1 l m2 h2 (by omega) (by omega) (by ring) ?_
        obtain ⟨d, rfl⟩ := Nat.exists_eq_add_of_le hw
        obtain ⟨c, rfl⟩ := Nat.exists_eq_add_of_lt (Nat.lt_of_not_le h1)
        nlinarith
      · refine step l m1 m2 (by omega) hm hm (by ring) ?_
        obtain ⟨d, rfl⟩ := Nat.exists_eq_add_of_le hw
        obtain ⟨c, rfl⟩ := Nat.exists_eq_add_of_lt (Nat.lt_of_not_le h2)
        obtain ⟨g, rfl⟩ := Nat.exists_eq_add_of_le hm
        obtain ⟨f, rfl⟩ := Nat.exists_eq_add_of_le hab
        nlinarith [Nat.zero_le (f * g), Nat.zero_le (f * c), Nat.zero_le (d * g), Nat.zero_le (d * c)]

/-- A Kraft sum of lengths of at most `m` is a whole number of `2^-m`. -/
theorem kraft_scaled {ls : List Nat} {m : Nat} (h : ∀ l ∈ ls, l ≤ m) : ∃ k : Nat, kraft ls * 2 ^ m = k := by
  induction ls with
  | nil => exact ⟨0, by simp⟩
  | cons l ls ih =>
    obtain ⟨k, hk⟩ := ih fun l hl => h l (by simp [hl])
    refine ⟨2 ^ (m - l) + k, ?_⟩
    have hl := h l (by simp)
    rw [kraft_cons, add_mul, hk]
    push_cast
    congr 1
    rw [one_div, inv_pow, ← div_eq_inv_mul, pow_sub₀ _ (by norm_num) hl, div_eq_mul_inv]

/-- Any code for weights `wa ≤ wb ≤ …` gives a code for the weights with `wa` and `wb` merged, one bit shorter there, that costs no more. -/
theorem merge_least {wa wb la lb : Nat} (hab : wa ≤ wb) {R : List (Nat × Nat)} (hR : ∀ e ∈ R, wb ≤ e.1)
    (hK : kraft (la :: lb :: R.map Prod.snd) ≤ 1) :
    ∃ l R', R'.map Prod.fst = R.map Prod.fst ∧ kraft (l :: R'.map Prod.snd) ≤ 1 ∧
      (wa + wb) * (l + 1) + codeCost R' ≤ wa * la + wb * lb + codeCost R := by
  obtain ⟨m1, m2, hm, hKm, hC⟩ : ∃ m1 m2, m2 ≤ m1 ∧ kraft (m1 :: m2 :: R.map Prod.snd) ≤ 1 ∧
      wa * m1 + wb * m2 ≤ wa * la + wb * lb := by
    rcases Nat.le_total lb la with h | h
    · exact ⟨la, lb, h, hK, le_refl _⟩
    · refine ⟨lb, la, h, by simp only [kraft_cons] at hK ⊢; linarith, ?_⟩
      obtain ⟨d, rfl⟩ := Nat.exists_eq_add_of_le hab
      obtain ⟨g, rfl⟩ := Nat.exists_eq_add_of_le h
      nlinarith [Nat.zero_le (d * g)]
  obtain ⟨n1, n2, R', h1, _, h3, h4, h5, h6⟩ := longest_to_least hab R hR m1 m2 hm
  rw [← h5] at hKm
  simp only [kraft_cons] at hKm
  have hp1 : (0 : ℚ) < (1 / 2) ^ n1 := by positivity
  obtain ⟨k, hk⟩ := kraft_scaled (ls := R'.map Prod.snd) (m := n2) (by
    intro l hl
    obtain ⟨e, he, rfl⟩ := List.mem_map.mp hl
    exact h4 e he)
  have h2 : (0 : ℚ) < 2 ^ n2 := by positivity
  have hone : ((1 / 2 : ℚ) ^ n2) * 2 ^ n2 = 1 := by rw [← mul_pow]; norm_num
  -- the sum without the longest length is a whole number of 2^-n2 below 1
  have hlt : ((k : ℚ) + 1) < 2 ^ n2 := by
    have : ((1 / 2 : ℚ) ^ n2 + kraft (R'.map Prod.snd)) * 2 ^ n2 < 1 * 2 ^ n2 := by
      apply mul_lt_mul_of_pos_right _ h2
      linarith
    rw [add_mul, hone, hk] at this
    linarith
  have hle : (k : ℚ) + 2 ≤ 2 ^ n2 := by
    have : k + 1 < 2 ^ n2 := by exact_mod_cast hlt
    exact_mod_cast (show k + 2 ≤ 2 ^ n2 by omega)
  have hn2 : n2 ≠ 0 := by
    rintro rfl
    norm_num at hle
    have : (0 : ℚ) ≤ k := Nat.cast_nonneg k
    linarith
  obtain ⟨l, rfl⟩ : ∃ l, n2 = l + 1 := Nat.exists_eq_succ_of_ne_zero hn2
  refine ⟨l, R', h1, ?_, ?_⟩
  · have hl : (1 / 2 : ℚ) ^ l * 2 ^ (l + 1) = 2 := by rw [pow_succ, ← mul_assoc, ← mul_pow]; norm_num
    have : ((1 / 2 : ℚ) ^ l + kraft (R'.map Prod.snd)) * 2 ^ (l + 1) ≤ 1 * 2 ^ (l + 1) := by
      rw [add_mul, hl, hk]
      linarith
    rw [kraft_cons]
    exact le_of_mul_le_mul_right this h2
  · have : wa * (l + 1) ≤ wa * n1 := Nat.mul_le_mul_left _ h3
    nlinarith

/-! ### Trees -/

/-- The sum of the weights of the Internal nodes. -/
def TreeNode.innerWeight : TreeNode → Nat
  | .leaf _ _ _ => 0
  | .internal w _ l r => w + l.innerWeight + r.innerWeight

/-- In a tree whose weights add up, the Internal weights sum to the total length of the paths, each as often as its leaf weighs. -/
theorem innerWeight_eq_paths {t : TreeNode} (f : Symbol → Nat) (hw : t.WeightsAdd) (hl : ∀ a w q, .leaf a w q ∈ t.nodes → w = f a) :
    (t.paths.map fun e => f e.1).sum = t.weight ∧ (t.paths.map fun e => f e.1 * e.2.length).sum = t.innerWeight := by
  induction t with
  | leaf a w q =>
    have := hl a w q (by simp [TreeNode.nodes])
    simp [TreeNode.paths, TreeNode.weight, TreeNode.innerWeight, this]
  | internal w q l r ihl ihr =>
    obtain ⟨hw, hwl, hwr⟩ := hw
    obtain ⟨l1, l2⟩ := ihl hwl fun a w q h => hl a w q (by simp [TreeNode.nodes, h])
    obtain ⟨r1, r2⟩ := ihr hwr fun a w q h => hl a w q (by simp [TreeNode.nodes, h])
    simp only [TreeNode.paths, List.map_append, List.map_map, List.sum_append, Function.comp_def, List.length_cons, Nat.mul_add,
      Nat.mul_one, List.sum_map_add, TreeNode.weight, TreeNode.innerWeight, l1, l2, r1, r2, hw]
    simp only [true_and]
    omega

end Sys2Proof.Machine
end

