-- ==== Sys2Proof/Laws/Operands.lean ====
section
/-! SUPPORT. The laws of operand assembly and of the state of a unit, so that later proofs do not unfold them. -/

namespace Sys2Proof.Machine

@[simp] theorem bitsOf_zero (c : Nat) : bitsOf 0 c = [] := rfl

theorem bitsOf_succ (n c : Nat) : bitsOf (n + 1) c = c.testBit n :: bitsOf n c := rfl

@[simp] theorem length_bitsOf (n c : Nat) : (bitsOf n c).length = n := by
  induction n with
  | zero => rfl
  | succ n ih => rw [bitsOf_succ, List.length_cons, ih]

/-- Only the n low bits matter. -/
theorem bitsOf_congr {n c d : Nat} (h : ∀ k, k < n → c.testBit k = d.testBit k) : bitsOf n c = bitsOf n d := by
  induction n with
  | zero => rfl
  | succ n ih => rw [bitsOf_succ, bitsOf_succ, h n (by omega), ih fun k hk => h k (by omega)]

@[simp] theorem val_nil : val [] = 0 := rfl

theorem val_append_singleton (x : BitString) (b : Bool) : val (x ++ [b]) = 2 * val x + b.toNat := by
  simp [val]

@[simp] theorem childIdx_false (l r : NodeIdx) : childIdx false l r = l := rfl

@[simp] theorem childIdx_true (l r : NodeIdx) : childIdx true l r = r := rfl

/-- An op is held exactly when it is an ES op and a bit is pending. -/
theorem held_iff {i : Instr} {s : State} : held i s = true ↔ i.port = .es ∧ s.encCnt ≠ 0 := by
  unfold held
  cases i.port <;> simp

theorem held_eq_false_iff {i : Instr} {s : State} : held i s = false ↔ (i.port = .es → s.encCnt = 0) := by
  rw [← Bool.not_eq_true, held_iff]
  tauto

theorem unitStateOf_faulted_iff {err : Option FaultCode} {active : Bool} : unitStateOf err active = .faulted ↔ err ≠ none := by
  cases err <;> cases active <;> simp [unitStateOf]

theorem unitStateOf_active_iff {err : Option FaultCode} {active : Bool} :
    unitStateOf err active = .active ↔ err = none ∧ active = true := by
  cases err <;> cases active <;> simp [unitStateOf]

theorem unitStateOf_idle_iff {err : Option FaultCode} {active : Bool} :
    unitStateOf err active = .idle ↔ err = none ∧ active = false := by
  cases err <;> cases active <;> simp [unitStateOf]

end Sys2Proof.Machine
end

