-- ==== Sys2Proof/Laws/PerInstr.lean ====
section
/-! SUPPORT. The family EncodeFits, one lemma per op: the word of a well-formed op fits its port (30_encoding.md R50). -/

namespace Sys2Proof.Laws.EncodeFits

open Sys2Proof

def Statement (i : Instr) : Prop :=
  ∀ p : Params, i.wellFormed p = true → encode p i < 2 ^ p.portWidth i.port

theorem small_cfg (p : Params) {w : Nat} (h : w < 8) : w < 2 ^ p.portWidth .cfg := by
  have : (2 : Nat) ^ 3 ≤ 2 ^ p.portWidth .cfg := Nat.pow_le_pow_right (by decide) (by simp [Params.portWidth])
  omega

theorem of_width {w a b : Nat} (h : w < 2 ^ a) (hab : a ≤ b) : w < 2 ^ b :=
  Nat.lt_of_lt_of_le h (Nat.pow_le_pow_right (by decide) hab)

theorem clrenc : Statement .clrenc := fun p _ => small_cfg p (by simp [encode])

theorem ldcode (sym : Symbol) (len code : Nat) : Statement (.ldcode sym len code) := by
  intro p h
  simp only [Instr.wellFormed, fits, Bool.and_eq_true, decide_eq_true_eq] at h
  obtain ⟨⟨hs, hl⟩, hc⟩ := h
  have h1 := packed_lt (low := 1) (lo := 3) (by decide) hs
  have h2 := packed_lt (lo := p.symW + 3) (of_width h1 (by omega)) hl
  have h3 := packed_lt (lo := p.symW + p.lenW + 3) (of_width h2 (by omega)) hc
  exact of_width h3 (by simp only [Instr.port, Params.portWidth]; omega)

theorem reserved010 : Statement .reserved010 := fun p _ => small_cfg p (by simp [encode])

theorem reserved011 : Statement .reserved011 := fun p _ => small_cfg p (by simp [encode])

theorem clrdec : Statement .clrdec := fun p _ => small_cfg p (by simp [encode])

theorem ldleaf (idx : NodeIdx) (sym : Symbol) : Statement (.ldleaf idx sym) := by
  intro p h
  simp only [Instr.wellFormed, fits, Bool.and_eq_true, decide_eq_true_eq] at h
  obtain ⟨hi, hs⟩ := h
  have h1 := packed_lt (low := 5) (lo := 3) (by decide) hi
  have h2 := packed_lt (lo := p.nodeAw + 3) (of_width h1 (by omega)) hs
  exact of_width h2 (by simp only [Instr.port, Params.portWidth, Params.nodeAw]; omega)

theorem ldint (idx left right : NodeIdx) : Statement (.ldint idx left right) := by
  intro p h
  simp only [Instr.wellFormed, fits, Bool.and_eq_true, decide_eq_true_eq] at h
  obtain ⟨⟨hi, hl⟩, hr⟩ := h
  have h1 := packed_lt (low := 6) (lo := 3) (by decide) hi
  have h2 := packed_lt (lo := p.nodeAw + 3) (of_width h1 (by omega)) hl
  have h3 := packed_lt (lo := 2 * p.nodeAw + 3) (of_width h2 (by omega)) hr
  exact of_width h3 (by simp only [Instr.port, Params.portWidth]; omega)

theorem setroot (idx : NodeIdx) : Statement (.setroot idx) := by
  intro p h
  simp only [Instr.wellFormed, fits, decide_eq_true_eq] at h
  exact of_width (packed_lt (low := 7) (lo := 3) (by decide) h) (by simp only [Instr.port, Params.portWidth]; omega)

theorem encsym (sym : Symbol) : Statement (.encsym sym) := by
  intro p h
  simp only [Instr.wellFormed, fits, decide_eq_true_eq] at h
  have := packed_lt (low := 0) (lo := 1) (by decide) h
  exact of_width (by simpa [encode] using this) (by simp only [Instr.port, Params.portWidth]; omega)

theorem encend : Statement .encend := by
  intro p _
  exact of_width (w := 1) (a := 1) (by decide) (by simp only [Instr.port, Params.portWidth]; omega)

theorem decbit (b : Bool) : Statement (.decbit b) := by
  intro p _
  cases b <;> simp [encode, Instr.port, Params.portWidth]

theorem decend : Statement .decend := by
  intro p _
  simp [encode, Instr.port, Params.portWidth]

end Sys2Proof.Laws.EncodeFits
end

