-- ==== Sys2Proof/Laws/Run.lean ====
section
/-! SUPPORT. The laws of runs: one step at a time, and the induction over a run packaged once. -/

namespace Sys2Proof.Machine

@[simp] theorem run_zero (s : State) : run 0 s = .next s := rfl

theorem run_succ {s t : State} (h : step s = .next t) (k : Nat) : run (k + 1) s = run k t := by
  have hc : Host.Core.step Sys2Proof.core s = .next t := h
  simp only [run, Host.Core.run, hc]
  rfl

/-- A run of `k + 1` steps that ends in a state took a first step. -/
theorem run_succ_inv {k : Nat} {s u : State} (h : run (k + 1) s = .next u) : ∃ t, step s = .next t ∧ run k t = .next u := by
  cases hs : step s with
  | next t => exact ⟨t, rfl, by rw [← run_succ hs]; exact h⟩
  | fault r => exact nomatch r
  | refused r =>
    have hc : Host.Core.step Sys2Proof.core s = .refused r := hs
    simp only [run, Host.Core.run, hc] at h
    exact nomatch h

theorem run_add {k : Nat} {s t : State} (h : run k s = .next t) (m : Nat) : run (k + m) s = run m t := by
  induction k generalizing s with
  | zero =>
    obtain rfl : s = t := by simpa using h
    rw [Nat.zero_add]
  | succ k ih =>
    obtain ⟨u, hu, hr⟩ := run_succ_inv h
    rw [Nat.add_right_comm, run_succ hu, ih hr]

/-- What holds at the start and is kept by every step holds at the end. -/
theorem run_induct {P : State → Prop} (hstep : ∀ s t, P s → step s = .next t → P t) {k : Nat} {s t : State} (hs : P s)
    (h : run k s = .next t) : P t := by
  induction k generalizing s with
  | zero =>
    obtain rfl : s = t := by simpa using h
    exact hs
  | succ k ih =>
    obtain ⟨u, hu, hr⟩ := run_succ_inv h
    exact ih (hstep s u hs hu) hr

end Sys2Proof.Machine
end

