-- ==== Sys2Proof/Tests/Slice0.lean ====
section
/-! SUPPORT. The model's own tests and, for every statement with hypotheses, a concrete state that meets them.

Expected results of the `test_` theorems are those of spec/95_test_vectors.md (the row is named) or words written out from
spec/30_encoding.md; the characters' values are the ASCII ones of that file (log 22). -/

namespace Sys2Proof.Tests

open Sys2Proof Sys2Proof.Machine

/-! ### Helpers -/

/-- The next state, if there is one. -/
def nextOf : Host.Outcome State Fault Refusal → Option State
  | .next t => some t
  | .fault _ => none
  | .refused _ => none

/-- The outcome is a next state for which `p` holds. -/
def reaches (o : Host.Outcome State Fault Refusal) (p : State → Bool) : Bool := ((nextOf o).map p).getD false

theorem of_reaches {o : Host.Outcome State Fault Refusal} {p : State → Bool} (h : reaches o p = true) : ∃ t, o = .next t ∧ p t = true := by
  cases o with
  | next t => exact ⟨t, rfl, h⟩
  | fault r => exact nomatch r
  | refused r => simp [reaches, nextOf] at h

/-- CT with the abracadabra mapping (95_test_vectors.md P1). -/
def abraCt : Memory CtEntry := [(0x61, ⟨1, 0⟩), (0x62, ⟨3, 6⟩), (0x63, ⟨3, 4⟩), (0x64, ⟨3, 5⟩), (0x72, ⟨3, 7⟩)]

/-- TM with the abracadabra tree (95_test_vectors.md P1). -/
def abraTm : Memory TmEntry :=
  [(0, .leaf 0x61), (1, .leaf 0x62), (2, .leaf 0x72), (3, .leaf 0x63), (4, .leaf 0x64), (5, .internal 3 4), (6, .internal 1 2),
   (7, .internal 5 6), (8, .internal 0 7)]

/-- Both abracadabra tables loaded, both units IDLE. -/
def abra : State := { State.reset with ct := abraCt, tm := abraTm, rootV := true, rootIdx := 8, decPtr := 8 }

/-- Both units ACTIVE: 2 bits of 'b' pending (T5), the pointer at node 7 (T13). -/
def midMessage : State := { abra with encSr := 6, encCnt := 2, encActive := true, ebLog := [.event (.bit true)], decActive := true, decPtr := 7 }

/-- Both units FAULTED (T7, T15). -/
def faulted : State :=
  { abra with encActive := true, encErr := some .unknownSymbol, decActive := true, decPtr := 7, decErr := some .malformed }

/-- Small parameters: symbols of 1 bit, Codes up to 2 bits. -/
def small : Params := ⟨1, 2⟩

/-- The tables of "aab" with symbols 0 and 1: Codes b = "0", a = "1" (95_test_vectors.md section 2), both units IDLE. -/
def aab : State :=
  { State.reset with
    params := small, ct := [(0, ⟨1, 1⟩), (1, ⟨1, 0⟩)], tm := [(0, .leaf 0), (1, .leaf 1), (2, .internal 1 0)],
    rootV := true, rootIdx := 2, decPtr := 2 }

/-- The tree of `aab`. -/
def aabTree : TreeNode := .internal 3 2 (.leaf 1 1 1) (.leaf 0 2 0)

/-- The mapping of `aab`. -/
def aabMap : Memory BitString := [(0, [true]), (1, [false])]

/-! ### WellFormed and Params refuse what does not fit -/

theorem test_wf_refuses_ldcode_sym : (Instr.ldcode 256 1 0).wellFormed Params.default = false := by decide
theorem test_wf_refuses_ldcode_len : (Instr.ldcode 0 256 0).wellFormed Params.default = false := by decide
theorem test_wf_refuses_ldcode_code : (Instr.ldcode 0 1 (2 ^ 255)).wellFormed Params.default = false := by decide
theorem test_wf_refuses_ldleaf_idx : (Instr.ldleaf 512 0).wellFormed Params.default = false := by decide
theorem test_wf_refuses_ldleaf_sym : (Instr.ldleaf 0 256).wellFormed Params.default = false := by decide
theorem test_wf_refuses_ldint_idx : (Instr.ldint 512 0 0).wellFormed Params.default = false := by decide
theorem test_wf_refuses_ldint_left : (Instr.ldint 0 512 0).wellFormed Params.default = false := by decide
theorem test_wf_refuses_ldint_right : (Instr.ldint 0 0 512).wellFormed Params.default = false := by decide
theorem test_wf_refuses_setroot_idx : (Instr.setroot 512).wellFormed Params.default = false := by decide
theorem test_wf_refuses_encsym_sym : (Instr.encsym 256).wellFormed Params.default = false := by decide
theorem test_params_refuse_symW_zero : Params.ok ⟨0, 1⟩ = false := by decide
theorem test_params_refuse_lenMax_zero : Params.ok ⟨1, 0⟩ = false := by decide

/-- The derived sizes of 00_scope.md R5 at the defaults, and the port widths of 95_test_vectors.md. -/
theorem test_default_sizes :
    Params.default.ok = true ∧ Params.default.lenW = 8 ∧ Params.default.nodeAw = 9 ∧ Params.default.ctN = 256 ∧
    Params.default.nodeN = 512 ∧ Params.default.portWidth .cfg = 274 ∧ Params.default.portWidth .es = 9 ∧
    Params.default.portWidth .db = 2 := by decide

/-! ### Decoding: words written out from 30_encoding.md R51, R53, R54, as in 95_test_vectors.md -/

theorem test_decode_clrenc : decode Params.default .cfg 0x0 = .ok .clrenc := rfl
theorem test_decode_ldcode : decode Params.default .cfg 0x301B11 = .ok (.ldcode 0x62 3 6) := rfl
theorem test_decode_reserved010 : decode Params.default .cfg 0x2 = .ok .reserved010 := rfl
theorem test_decode_reserved011 : decode Params.default .cfg 0xFFFFF3 = .ok .reserved011 := rfl
theorem test_decode_clrdec : decode Params.default .cfg 0x4 = .ok .clrdec := rfl
theorem test_decode_ldleaf : decode Params.default .cfg 0x7A04D = .ok (.ldleaf 9 0x7A) := rfl
theorem test_decode_ldint : decode Params.default .cfg 0x80302E = .ok (.ldint 5 3 4) := rfl
theorem test_decode_setroot : decode Params.default .cfg 0x2F = .ok (.setroot 5) := rfl
theorem test_decode_encsym : decode Params.default .es 0x0E4 = .ok (.encsym 0x72) := rfl
theorem test_decode_encend : decode Params.default .es 0x001 = .ok .encend := rfl
theorem test_decode_decbit : decode Params.default .db 0b10 = .ok (.decbit true) ∧ decode Params.default .db 0b00 = .ok (.decbit false) :=
  ⟨rfl, rfl⟩
theorem test_decode_decend : decode Params.default .db 0b01 = .ok .decend ∧ decode Params.default .db 0b11 = .ok .decend := ⟨rfl, rfl⟩

/-- A number wider than its port is rejected by name (log 11). -/
theorem test_decode_rejects_overwide :
    decode Params.default .es 0x200 = .error (.tooWide .es) ∧ decode Params.default .db 0b100 = .error (.tooWide .db) := ⟨rfl, rfl⟩

theorem test_encode_words :
    encode Params.default (.ldcode 0x61 1 0) = 0xB09 ∧ encode Params.default (.ldcode 0x72 3 7) = 0x381B91 ∧
    encode Params.default (.ldleaf 2 0x72) = 0x72015 ∧ encode Params.default (.ldint 7 5 6) = 0xC0503E ∧
    encode Params.default (.setroot 8) = 0x47 ∧ encode Params.default (.encsym 0x61) = 0x0C2 ∧
    encode Params.default (.decbit true) = 0b10 := by decide

theorem test_output_words :
    EbEvent.word (.bit true) = 0b10 ∧ EbEvent.word .done = 0b01 ∧ DsEvent.word (.sym 0x61) = 0x0C2 ∧ DsEvent.word .done = 0x001 := by
  decide

theorem test_asm : (Instr.ldcode 0x61 1 0).asm = "LDCODE 97, 1, 0" ∧ Instr.encend.asm = "ENCEND" := by decide

/-! ### One step of each op: the rows of 95_test_vectors.md -/

/-- T7, T17. -/
theorem test_clrenc : nextOf (exec .clrenc faulted) =
    some { faulted with ct := [], encSr := 0, encCnt := 0, encActive := false, encErr := none, ebLog := [.mark .clr] } := by decide

/-- T4: the entry is replaced, Code "10". -/
theorem test_ldcode_replaces : reaches (exec (.ldcode 0x61 2 2) abra) (fun t =>
    decide (t.ct.read 0x61 = some ⟨2, 2⟩) && decide (CtEntry.bits ⟨2, 2⟩ = [true, false]) && decide (t.ct.read 0x62 = some ⟨3, 6⟩)) = true := by
  decide

/-- T5: TableBusy; the 2 pending bits are discarded, ENC_ACTIVE stays 1. -/
theorem test_ldcode_busy : reaches (exec (.ldcode 0x7A 2 1) midMessage) (fun t =>
    decide (t.encStat = 0b01100#5) && decide (t.encCnt = 0) && decide (t.ct.read 0x7A = none) && decide (t.ebHist = [.bit true])) = true := by
  decide

/-- T8. -/
theorem test_reserved010 : reaches (exec .reserved010 State.reset) (fun t =>
    decide (t.encStat = 0b00101#5) && decide (t.decStat = 0#4)) = true := by decide

/-- T9. -/
theorem test_reserved011 : reaches (exec .reserved011 State.reset) (fun t =>
    decide (t.encStat = 0b00101#5) && decide (t.decStat = 0#4)) = true := by decide

/-- T16, T17. -/
theorem test_clrdec : nextOf (exec .clrdec faulted) =
    some { faulted with
      tm := [], rootV := false, rootIdx := 0, decPtr := 0, decActive := false, decErr := none, dsLog := [.mark .clr] } := by decide

/-- T10. -/
theorem test_ldleaf : reaches (exec (.ldleaf 0 0x61) State.reset) (fun t =>
    decide (t.tm.read 0 = some (.leaf 0x61)) && decide (t.decStat = 0#4) && t.rootNull) = true := by decide

/-- T14. -/
theorem test_ldleaf_busy : reaches (exec (.ldleaf 9 0x7A) midMessage) (fun t =>
    decide (t.decStat = 0b1100#4) && decide (t.tm.read 9 = none)) = true := by decide

/-- T11. -/
theorem test_ldint : reaches (exec (.ldint 8 0 7) State.reset) (fun t =>
    decide (t.tm.read 8 = some (.internal 0 7)) && decide (t.tm.read 7 = none) && decide (t.decErr = none)) = true := by decide

/-- T12: no fault although TM[5] is absent; the root is null by R116. -/
theorem test_setroot : reaches (exec (.setroot 5) State.reset) (fun t =>
    t.rootV && decide (t.rootIdx = 5) && decide (t.decPtr = 5) && decide (t.decErr = none) && t.rootNull) = true := by decide

/-- T13. -/
theorem test_setroot_busy : reaches (exec (.setroot 7) midMessage) (fun t =>
    decide (t.decStat = 0b1100#4) && decide (t.rootIdx = 8) && decide (t.decPtr = 7)) = true := by decide

/-- E2. -/
theorem test_encsym : reaches (exec (.encsym 0x72) abra) (fun t =>
    decide (t.encSr = 7) && decide (t.encCnt = 3) && decide (t.encStat = 0b11000#5) && decide (t.ebHist = [])) = true := by decide

/-- E6. -/
theorem test_encsym_unknown : reaches (exec (.encsym 0x7A) abra) (fun t =>
    decide (t.encStat = 0b00010#5) && decide (t.ebHist = [])) = true := by decide

/-- E3, the first of its SHIFT steps: bit 2 of 0b100. -/
theorem test_shift : (shift { abra with encSr := 4, encCnt := 3, encActive := true }) =
    { abra with encSr := 4, encCnt := 2, encActive := true, ebLog := [.event (.bit true)] } := by decide

/-- E5. -/
theorem test_encend : reaches (exec .encend { abra with encActive := true }) (fun t =>
    decide (t.encStat = 0#5) && decide (t.ebHist = [.done])) = true := by decide

/-- E7: an empty message with an empty table. -/
theorem test_encend_empty : reaches (exec .encend State.reset) (fun t =>
    decide (t.encStat = 0#5) && decide (t.ebHist = [.done])) = true := by decide

/-- D2. -/
theorem test_decbit_to_internal : reaches (exec (.decbit true) abra) (fun t =>
    decide (t.decPtr = 7) && decide (t.decStat = 0b1000#4) && decide (t.dsHist = [])) = true := by decide

/-- D3, its last step: from node 6 a 0 reaches leaf 'b' and the pointer returns to the root. -/
theorem test_decbit_to_leaf : reaches (exec (.decbit false) { abra with decActive := true, decPtr := 6 }) (fun t =>
    decide (t.decPtr = 8) && decide (t.dsHist = [.sym 0x62])) = true := by decide

/-- D4, D6. -/
theorem test_decend : reaches (exec .decend { abra with decActive := true }) (fun t =>
    decide (t.dsHist = [.done]) && decide (t.decStat = 0#4)) = true := by decide

/-- D5. -/
theorem test_decend_malformed : reaches (exec .decend { abra with decActive := true, decPtr := 7 }) (fun t =>
    decide (t.decStat = 0b1011#4) && decide (t.dsHist = []) && decide (t.decPtr = 7)) = true := by decide

/-! ### The step -/

/-- E4: an ES op presented while a bit is pending is held: nothing happens and it stays at the port. -/
theorem test_step_holds : nextOf (step { midMessage with esIn := [0x0C2], sched := [.accept .es] }) =
    some { midMessage with esIn := [0x0C2] } := by decide

/-- T1 through the step: the word is taken from CFG and performed. -/
theorem test_step_ldcode : reaches (step { State.reset with cfgIn := [0x301B11], sched := [.accept .cfg] }) (fun t =>
    decide (t.ct = [(0x62, ⟨3, 6⟩)]) && decide (t.cfgIn = []) && decide (t.encStat = 0#5)) = true := by decide

/-- 70_reset_and_hazards.md R156, R157 in the middle of two messages: the reset state, and the bit already sent stays in the log. -/
theorem test_step_reset : nextOf (step { midMessage with sched := [.rst] }) =
    some { State.reset with ebLog := [.event (.bit true), .mark .reset], dsLog := [.mark .reset] } := by decide

/-- R100, R164: a bit of a message CLRENC abandoned is not joined to the next message, whose one bit is 0. -/
theorem test_messages_cut_at_clear :
    ({ State.reset with ebLog := [.event (.bit true), .mark .clr, .event (.bit false), .event .done] } : State).ebMessages =
      ⟨[[false]], []⟩ := by decide

/-- R115, R164: Sym a, CLRDEC, Sym b, End is the one sequence b. -/
theorem test_symbols_cut_at_clear :
    ({ State.reset with dsLog := [.event (.sym 0x61), .mark .clr, .event (.sym 0x62), .event .done] } : State).dsMessages =
      ⟨[[0x62]], []⟩ := by decide

/-- P4: the bits before the unknown symbol are no result once the encoder is FAULTED; EB_HIST keeps them. -/
theorem test_messages_cut_at_fault :
    ({ State.reset with encErr := some .unknownSymbol, ebLog := [.event (.bit false), .event (.bit true)] } : State).ebMessages = ⟨[], []⟩ ∧
    ({ State.reset with encErr := some .unknownSymbol, ebLog := [.event (.bit false), .event (.bit true)] } : State).ebHist =
      [.bit false, .bit true] := by decide

/-- Nothing presented, nothing scheduled, nothing pending: the block rests (log 9, 13). -/
theorem test_step_rests : nextOf (step State.reset) = some State.reset := by decide

/-- A placed table word is run by the next step (log 12, 13). -/
theorem test_fetch_word : nextOf (step (State.reset.withFetchWord 24 0x61005)) = nextOf (exec (.ldleaf 0 0x61) State.reset) := by decide

/-- An over-wide number is refused by name (log 11). -/
theorem test_step_refuses_overwide :
    step { State.reset with dbIn := [4], sched := [.accept .db] } = .refused (.notAnOpWord .db) := rfl

theorem test_reset_tables_wf : TablesWf State.reset := ⟨List.Pairwise.nil, List.Pairwise.nil⟩

/-! ### The host-side procedures: 95_test_vectors.md section 2 -/

/-- "aab": the lighter leaf b is the left child, so b = "0" and a = "1". -/
theorem test_build_aab : buildTree [0, 0, 1] = .ok aabTree ∧ buildCodeMapping (some aabTree) = .ok aabMap ∧
    refEncode aabMap [0, 0, 1] = .ok [true, true, false] := ⟨rfl, rfl, rfl⟩

/-- "mississippi": at the second merge weight decides before insertion order. -/
theorem test_build_mississippi : (match buildTree [0x6D, 0x69, 0x73, 0x73, 0x69, 0x73, 0x73, 0x69, 0x70, 0x70, 0x69] with
    | .ok t => decide (t.seq = 6) && decide (buildCodeMapping (some t) = .ok
        [(0x69, [true, true]), (0x6D, [true, false, false]), (0x70, [true, false, true]), (0x73, [false])])
    | .error _ => false) = true := by decide

/-- "abracadabra": the images of its tree and mapping are the tables of P1; 23 bits, fewer than 88 (S1). -/
theorem test_build_abracadabra : (match buildTree abracadabra with
    | .ok t => decide (tmImage t = abraTm) && (match buildCodeMapping (some t) with
        | .ok M => decide (ctImage Params.default M = some abraCt) && (match refEncode M abracadabra with
          | .ok x => decide (x.length = 23) && decide (x.length < fixedWidthLength abracadabra)
          | .error _ => false)
        | .error _ => false)
    | .error _ => false) = true := by decide

theorem test_host_errors :
    buildTree [] = .error .emptyInput ∧ treeBuilder [(0x61, 0)] = .error .argument ∧ buildCodeMapping none = .error .argument ∧
    refEncode aabMap [0, 5] = .error .unknownSymbol ∧ refDecode [] none = .error .argument ∧ refDecode [] (some aabTree) = .ok [] :=
  ⟨rfl, rfl, rfl, rfl, rfl, rfl⟩

/-- S2: a lone Leaf gets the Code "0". -/
theorem test_singleton : buildTree [0x61, 0x61] = .ok (.leaf 0x61 2 0) ∧
    buildCodeMapping (some (.leaf 0x61 2 0)) = .ok [(0x61, [false])] := ⟨rfl, rfl⟩

/-! ### Witnesses: for every statement with hypotheses, a concrete input that meets them, one for each clause -/

theorem witness_DecodeEncodeAgree :
    (Instr.ldcode 255 255 (2 ^ 255 - 1)).wellFormed Params.default = true ∧ (Instr.ldint 511 511 511).wellFormed Params.default = true ∧
    (Instr.encsym 255).wellFormed Params.default = true ∧ (Instr.decbit true).wellFormed Params.default = true := by decide

theorem witness_DecodedOpsAreWellFormed : decode Params.default .cfg 0x301B11 = .ok (.ldcode 0x62 3 6) := rfl

theorem witness_IgnoredBitsHaveNoEffect :
    decode Params.default .es 0x001 = .ok .encend ∧ 0x1FF < 2 ^ Params.default.portWidth .es ∧
    ∀ k, k < opBits Params.default .encend → Nat.testBit 0x1FF k = Nat.testBit 0x001 k := ⟨rfl, by decide, by decide⟩

theorem witness_EveryWordMatchesOneRow : decode Params.default .db 0b11 = .ok .decend := rfl

/-- CFG at its greatest word for the small parameters (opcode 7), ES at its greatest for the default ones. -/
theorem witness_WordsAreReadByFields :
    (511 < 2 ^ small.portWidth .cfg ∧ 511 % 8 = 7 ∧ 504 % 8 = 0 ∧ 505 % 8 = 1 ∧ 506 % 8 = 2 ∧ 507 % 8 = 3 ∧ 508 % 8 = 4 ∧ 509 % 8 = 5 ∧
      510 % 8 = 6) ∧ (511 < 2 ^ (1 + Params.default.symW) ∧ 511 % 2 = 1 ∧ 510 % 2 = 0) := by decide

theorem witness_OutputWordsAreInputWords : 255 < 2 ^ Params.default.symW := by decide

theorem witness_CodeFieldHoldsTheCode : 2 < (CtEntry.mk 3 6).len := by decide

theorem witness_ClrencClearsEncoder : ∃ t, exec .clrenc faulted = .next t ∧ faulted.encErr ≠ none ∧ t.encErr = none :=
  ⟨_, rfl, by decide, rfl⟩

theorem witness_LdcodeLoadsOrFaults :
    faulted.encErr ≠ none ∧ (midMessage.encErr = none ∧ midMessage.encActive = true) ∧
    (abra.encErr = none ∧ abra.encActive = false ∧ abra.params.lenMax < 256) ∧ (1 ≤ 1 ∧ 255 ≤ abra.params.lenMax) := by decide

theorem witness_ReservedOpcodesRaiseIllegalOp : faulted.encErr ≠ none ∧ midMessage.encErr = none := by decide

theorem witness_ClrdecClearsDecoder : ∃ t, exec .clrdec faulted = .next t ∧ faulted.decErr ≠ none ∧ t.decErr = none :=
  ⟨_, rfl, by decide, rfl⟩

/-- For LDLEAF, LDINT and SETROOT alike. -/
theorem witness_treeLoads :
    faulted.decErr ≠ none ∧ (midMessage.decErr = none ∧ midMessage.decActive = true) ∧
    (abra.decErr = none ∧ abra.decActive = false) := by decide

theorem witness_EncsymTakesSymbol :
    midMessage.encCnt ≠ 0 ∧ (faulted.encCnt = 0 ∧ faulted.encErr ≠ none) ∧
    (abra.encCnt = 0 ∧ abra.encErr = none ∧ abra.ct.read 0x7A = none) ∧ abra.ct.read 0x72 = some ⟨3, 7⟩ := by decide

theorem witness_ShiftSendsOneBit :
    (abra.withSched [.shift]).sched = .shift :: [] ∧ (abra.withSched [.shift]).encCnt = 0 ∧
    (midMessage.withSched [.shift]).sched = .shift :: [] ∧ (midMessage.withSched [.shift]).encCnt ≠ 0 := by decide

theorem witness_EncendClosesMessage :
    midMessage.encCnt ≠ 0 ∧ (faulted.encCnt = 0 ∧ faulted.encErr ≠ none) ∧ (abra.encCnt = 0 ∧ abra.encErr = none) := by decide

/-- The tree of D9, TM[1] absent, with the pointer at a Leaf, at an absent entry and at the root. -/
def holed : State := { State.reset with tm := [(0, .leaf 0x61), (2, .internal 0 1)], rootV := true, rootIdx := 2, decPtr := 2 }

theorem witness_DecbitWalksTree :
    faulted.decErr ≠ none ∧
    (State.reset.decErr = none ∧ State.reset.rootV = false) ∧
    (holed.tm.read 1 = none ∧ (({ holed with rootIdx := 1 } : State).rootV = true)) ∧
    (({ holed with rootIdx := 0 } : State).tm.read 0 = some (.leaf 0x61)) ∧
    (holed.decErr = none ∧ holed.rootV = true ∧ holed.tm.read holed.rootIdx = some (.internal 0 1)) ∧
    (({ holed with decPtr := 1 } : State).tm.read 1 = none) ∧
    (({ holed with decPtr := 0 } : State).tm.read 0 = some (.leaf 0x61)) ∧
    (holed.tm.read holed.decPtr = some (.internal 0 1) ∧ holed.tm.read (if true then 1 else 0) = none ∧
      holed.tm.read (if false then 1 else 0) = some (.leaf 0x61)) ∧
    (abra.tm.read abra.rootIdx = some (.internal 0 7) ∧ abra.tm.read abra.decPtr = some (.internal 0 7) ∧
      abra.tm.read (if true then 7 else 0) = some (.internal 5 6)) := by decide

theorem witness_DecendClosesMessage :
    faulted.decErr ≠ none ∧ (State.reset.decErr = none ∧ State.reset.rootV = false) ∧
    (midMessage.decErr = none ∧ midMessage.rootV = true ∧ midMessage.tm.read midMessage.rootIdx = some (.internal 0 7) ∧
      midMessage.decPtr ≠ midMessage.rootIdx) ∧
    (abra.decErr = none ∧ abra.rootV = true ∧ abra.tm.read abra.rootIdx = some (.internal 0 7) ∧ abra.decPtr = abra.rootIdx) := by
  decide

/-- The singleton tree of D10. -/
def lone : State := { State.reset with tm := [(0, .leaf 0x61)], rootV := true }

theorem witness_SingletonDecodesEveryBit :
    lone.decErr = none ∧ lone.rootV = true ∧ lone.tm.read lone.rootIdx = some (.leaf 0x61) := by decide

theorem witness_FaultCodesAreNumbered :
    (∃ t, exec (.ldcode 0 0 0) abra = .next t ∧ abra.encErr = none ∧ t.encErr = some .argument) ∧
    (∃ t, exec .decend midMessage = .next t ∧ midMessage.decErr = none ∧ t.decErr = some .malformed) :=
  ⟨⟨_, rfl, rfl, rfl⟩, ⟨_, rfl, rfl, rfl⟩⟩

/-- Every cause in turn, at the state it is tested in. -/
theorem witness_FaultsHaveTheirCauses :
    (∃ t, exec (.ldcode 0 1 0) midMessage = .next t ∧ midMessage.encErr = none ∧ t.encErr = some .tableBusy) ∧
    (∃ t, exec (.ldcode 0 256 0) abra = .next t ∧ abra.encErr = none ∧ t.encErr = some .argument) ∧
    (∃ t, exec .reserved011 abra = .next t ∧ t.encErr = some .illegalOp) ∧
    (∃ t, exec (.encsym 0x7A) abra = .next t ∧ t.encErr = some .unknownSymbol) ∧
    (∃ t, exec (.setroot 0) midMessage = .next t ∧ midMessage.decErr = none ∧ t.decErr = some .tableBusy) ∧
    (∃ t, exec (.decbit true) State.reset = .next t ∧ State.reset.decErr = none ∧ t.decErr = some .argument) ∧
    (∃ t, exec (.decbit true) holed = .next t ∧ holed.decErr = none ∧ t.decErr = some .argument) ∧
    (∃ t, exec .decend midMessage = .next t ∧ t.decErr = some .malformed) :=
  ⟨⟨_, rfl, rfl, rfl⟩, ⟨_, rfl, rfl, rfl⟩, ⟨_, rfl, rfl⟩, ⟨_, rfl, rfl⟩, ⟨_, rfl, rfl, rfl⟩, ⟨_, rfl, rfl, rfl⟩, ⟨_, rfl, rfl, rfl⟩,
    ⟨_, rfl, rfl⟩⟩

theorem witness_FaultEntryChangesOnlyTheRegister :
    (∃ t, exec (.ldcode 0 1 0) midMessage = .next t ∧ midMessage.encErr = none ∧ t.encErr = some .tableBusy) ∧
    (∃ t, exec (.setroot 0) midMessage = .next t ∧ midMessage.decErr = none ∧ t.decErr = some .tableBusy) :=
  ⟨⟨_, rfl, rfl, rfl⟩, ⟨_, rfl, rfl, rfl⟩⟩

theorem witness_FaultedUnitDropsEveryOp :
    PendingOnlyWhileActive faulted ∧ faulted.encErr ≠ none ∧ faulted.decErr ≠ none ∧
    ((Instr.encsym 0).unit = .enc ∧ Instr.encsym 0 ≠ .clrenc) ∧ ((Instr.setroot 0).unit = .dec ∧ Instr.setroot 0 ≠ .clrdec) :=
  ⟨fun h => absurd rfl h, by decide, by decide, by decide, by decide⟩

theorem witness_OnlyClrOrResetLeavesFaulted :
    (∃ t, step { faulted with cfgIn := [0] } = .next t ∧ faulted.encErr = some .unknownSymbol) ∧
    (∃ t, step { faulted with sched := [.rst] } = .next t ∧ faulted.decErr = some .malformed) :=
  ⟨⟨_, rfl, rfl⟩, ⟨_, rfl, rfl⟩⟩

/-- A message open in both units, no bit pending, the pointer at the root. -/
def openMessage : State := { abra with encActive := true, decActive := true }

theorem witness_UnitStatesChangeOnlyByNamedOps :
    reaches (exec (.encsym 0x61) abra) (fun t => decide (abra.unitState .enc = .idle ∧ t.unitState .enc = .active)) = true ∧
    reaches (exec .encend openMessage) (fun t => decide (openMessage.unitState .enc = .active ∧ t.unitState .enc = .idle)) = true ∧
    reaches (exec .clrenc faulted) (fun t => decide (faulted.unitState .enc = .faulted ∧ t.unitState .enc ≠ .faulted)) = true ∧
    reaches (exec .reserved010 openMessage) (fun t => decide (t.unitState .enc = .faulted)) = true ∧
    reaches (exec (.decbit true) abra) (fun t => decide (abra.unitState .dec = .idle ∧ t.unitState .dec = .active)) = true ∧
    reaches (exec .decend openMessage) (fun t => decide (openMessage.unitState .dec = .active ∧ t.unitState .dec = .idle)) = true ∧
    reaches (exec .clrdec faulted) (fun t => decide (faulted.unitState .dec = .faulted ∧ t.unitState .dec ≠ .faulted)) = true ∧
    reaches (exec (.setroot 0) openMessage) (fun t => decide (t.unitState .dec = .faulted)) = true := by decide

theorem witness_ResetStepResetsBlock : (midMessage.withSched [.rst, .shift]).sched = .rst :: [.shift] := rfl

theorem witness_StepRunsDecodedOp :
    (({ abra with cfgIn := [0x47, 0], sched := [.accept .cfg] } : State).input .cfg = 0x47 :: [0] ∧
      decode abra.params .cfg 0x47 = .ok (.setroot 8) ∧ held (.setroot 8) abra = false) ∧
    (({ abra with esIn := [1] } : State).input .es = 1 :: [] ∧
      decode abra.params .es 1 = .ok .encend ∧ held .encend abra = false ∧ abra.cfgIn = []) ∧
    (({ midMessage with esIn := [1], dbIn := [1] } : State).input .db = 1 :: [] ∧
      decode midMessage.params .db 1 = .ok .decend ∧ held .decend midMessage = false ∧ midMessage.encCnt ≠ 0 ∧ midMessage.cfgIn = []) ∧
    (midMessage.sched = [] ∧ midMessage.dbIn = []) ∧ (abra.sched = [] ∧ abra.encCnt = 0 ∧ abra.esIn = []) :=
  ⟨⟨rfl, rfl, rfl⟩, ⟨rfl, rfl, rfl, rfl⟩, ⟨rfl, rfl, rfl, by decide, rfl⟩, ⟨rfl, rfl⟩, rfl, rfl, rfl⟩

theorem witness_HeldOpWaitsAtPort :
    ({ midMessage with esIn := [1, 1], sched := [.accept .es] } : State).input .es = 1 :: [1] ∧
    decode midMessage.params .es 1 = .ok .encend ∧ held .encend midMessage = true := ⟨rfl, rfl, rfl⟩

theorem witness_TableWordRunsNext :
    (decode midMessage.params (tablePort 24) 0x61005 = .ok (.ldleaf 0 0x61) ∧ held (.ldleaf 0 0x61) midMessage = false) ∧
    (decode abra.params (tablePort 9) 1 = .ok .encend ∧ held .encend abra = false) ∧
    (decode abra.params (tablePort 2) 3 = .ok .decend ∧ held .decend abra = false) := ⟨⟨rfl, rfl⟩, ⟨rfl, rfl⟩, ⟨rfl, rfl⟩⟩

theorem witness_PortsAreFifo : ∃ t, step { abra with esIn := [1, 1], dbIn := [2] } = .next t := ⟨_, rfl⟩

theorem witness_UnitsShareNoState :
    (∃ t, exec (.encsym 0x61) midMessage = .next t ∧ (Instr.encsym 0x61).unit = .enc) ∧
    (∃ t, exec (.decbit true) midMessage = .next t ∧ (Instr.decbit true).unit = .dec) := ⟨⟨_, rfl, rfl⟩, ⟨_, rfl, rfl⟩⟩

theorem witness_StepsOfDifferentUnitsCommute :
    (∃ t u, (Instr.encsym 0x61).unit ≠ (Instr.decbit true).unit ∧ exec (.encsym 0x61) abra = .next t ∧ exec (.decbit true) t = .next u) ∧
    (∃ u, (Instr.decbit true).unit = .dec ∧ exec (.decbit true) (shift midMessage) = .next u) :=
  ⟨⟨_, _, by decide, rfl, rfl⟩, ⟨_, rfl, rfl⟩⟩

theorem witness_TablesFrozenDuringMessage :
    (∃ t, step { midMessage with cfgIn := [0x813D1] } = .next t ∧ midMessage.encActive = true ∧ midMessage.decActive = true) ∧
    (∃ t, step { faulted with cfgIn := [0] } = .next t ∧ faulted.encErr ≠ none ∧ faulted.decErr ≠ none) :=
  ⟨⟨_, rfl, rfl, rfl⟩, ⟨_, rfl, by decide, by decide⟩⟩

theorem witness_AnyNumberOfBitsBeforeClear : 0 ≤ midMessage.encCnt ∧ 2 ≤ midMessage.encCnt := by decide

/-- A state in the middle of a message in both units that has the invariant, and a step from it. -/
def aabMid : State :=
  { aab with encSr := 1, encCnt := 1, encActive := true, decActive := true, cfgIn := [4], esIn := [0], dbIn := [2], sched := [.shift] }

theorem witness_EveryStepKeepsInvariant : aabMid.Inv ∧ ∃ t, step aabMid = .next t := by
  refine ⟨⟨fun _ => ⟨rfl, rfl⟩, ⟨by decide, fun _ => ⟨0, ⟨1, 1⟩, rfl, rfl, by decide⟩⟩, fun h => rfl, fun h => absurd h (by decide),
    fun _ => .inr ⟨1, 0, 1, 0, rfl, rfl⟩, ⟨by decide, by decide⟩, ?_, ?_, ⟨fun f h => ?_, fun f h => ?_⟩,
    by decide, by decide⟩, _, rfl⟩
  · intro e he
    simp only [aabMid, aab, List.mem_cons, List.not_mem_nil, or_false] at he
    rcases he with rfl | rfl <;> decide
  · refine ⟨fun e he => ?_, by decide, fun e he => ?_, by decide, by decide⟩
    · simp only [aabMid, aab, List.mem_cons, List.not_mem_nil, or_false] at he
      rcases he with rfl | rfl <;> decide
    · simp only [aabMid, aab, List.mem_cons, List.not_mem_nil, or_false] at he
      rcases he with rfl | rfl | rfl <;> simp [TmEntry.fits, Params.nodeN, Params.ctN, Params.nodeAw, aabMid, aab, small]
  · simp [aabMid, aab, State.reset] at h
  · simp [aabMid, aab, State.reset] at h

theorem witness_EqualReadsEqualTables :
    (Memory.wf abraCt ∧ ∀ i, Memory.read abraCt i = Memory.read abraCt i) ∧
    (Memory.wf abraTm ∧ ∀ i, Memory.read abraTm i = Memory.read abraTm i) :=
  ⟨⟨by decide, fun _ => rfl⟩, ⟨by decide, fun _ => rfl⟩⟩

theorem witness_LoadmapLeavesCtImage :
    Memory.wf aabMap ∧ ctImage small aabMap = some aab.ct ∧ aabMap.reverse.Perm aabMap := ⟨by decide, by decide, List.reverse_perm _⟩

theorem witness_LoadtreeLeavesTmImage :
    aabTree.indices.Nodup ∧ (aabTree.nodes.map loadNode).reverse.Perm (aabTree.nodes.map loadNode) := ⟨by decide, List.reverse_perm _⟩

theorem witness_MessagesEndOrAreAbandoned :
    (PendingOnlyWhileActive midMessage ∧ ∃ t, step { midMessage with cfgIn := [0] } = .next t) ∧
    (PendingOnlyWhileActive faulted ∧ ∃ t, step { faulted with esIn := [1] } = .next t ∧ t.encErr ≠ none) ∧
    (PendingOnlyWhileActive abra ∧ ∃ t, step { abra with esIn := [1] } = .next t ∧ t.encErr = none) :=
  ⟨⟨fun _ => ⟨rfl, rfl⟩, _, rfl⟩, ⟨fun h => absurd rfl h, _, rfl, by decide⟩, fun h => absurd rfl h, _, rfl, rfl⟩

/-- `aab` with ops presented at ES, one decoder op at CFG and a schedule that interleaves them. -/
def aabEncoding (ops : List Instr) : State :=
  { aab with esIn := ops.map (encode small), cfgIn := [4], sched := [.accept .es, .accept .es, .shift, .accept .cfg] }

theorem witness_EncodedMessageIsExact :
    refEncode (mappingOf aab.ct) [0, 1] = .ok [true, false] ∧ (∀ a ∈ [0, 1], a < 2 ^ small.symW) ∧
    (∀ w ∈ (aabEncoding []).cfgIn, Nat.testBit w 2 = true) ∧ .rst ∉ (aabEncoding []).sched ∧
    (aab.encErr = none ∧ aab.encActive = false ∧ aab.encCnt = 0) ∧
    ∃ t, run 8 (aabEncoding (encodeOps [0, 1])) = .next t ∧ decide (t.esIn = []) = true :=
  ⟨rfl, by decide, by decide, by decide, by decide, of_reaches (by decide)⟩

/-- The same with the entry of symbol 1 missing, for the other half of the statement. -/
def aabHoled (ops : List Instr) : State := { aabEncoding ops with ct := [(0, ⟨1, 1⟩)] }

theorem witness_EncodedMessageIsExact_unknown :
    refEncode (mappingOf (aabHoled []).ct) [0] = .ok [true] ∧ (aabHoled []).ct.read 1 = none ∧ (∀ a ∈ [0] ++ 1 :: [0], a < 2 ^ small.symW) ∧
    (∀ w ∈ (aabHoled []).cfgIn, Nat.testBit w 2 = true) ∧ .rst ∉ (aabHoled []).sched ∧
    ∃ t, run 9 (aabHoled (encodeOps ([0] ++ 1 :: [0]))) = .next t ∧ decide (t.esIn = []) = true :=
  ⟨rfl, rfl, by decide, by decide, by decide, of_reaches (by decide)⟩

theorem witness_EncodedMessageStepCount :
    refEncode (mappingOf aab.ct) [0, 1] = .ok [true, false] ∧ (∀ a ∈ [0, 1], a < 2 ^ aab.params.symW) ∧
    (aab.encErr = none ∧ aab.encActive = false ∧ aab.encCnt = 0 ∧ aab.cfgIn = [] ∧ aab.dbIn = [] ∧ aab.sched = []) ∧
    ∃ t, run 4 { aab with esIn := (encodeOps [0, 1]).map (encode small) } = .next t ∧ (!t.runOver) = true :=
  ⟨rfl, by decide, by decide, of_reaches (by decide)⟩

theorem witness_wfTmAs : WfTmAs aab aabTree :=
  ⟨rfl, rfl, by simp [TreeNode.HeldBy, aabTree, aab, TreeNode.nodes, TreeNode.seq, TreeNode.entry, Memory.read], by decide, by decide⟩

/-- Both outcomes of the message: the whole bits of 0, 1, and a message cut short in a longer tree. -/
theorem witness_DecodedMessageIsExact :
    WfTmAs aab aabTree ∧ (aab.decErr = none ∧ aab.decActive = false ∧ aab.decPtr = aab.rootIdx) ∧
    refDecode [true, false] (some aabTree) = .ok [0, 1] ∧
    ∃ t, run 4 { aab with dbIn := (decodeOps [true, false]).map (encode small), cfgIn := [2], sched := [.accept .db] } = .next t ∧
      decide (t.dbIn = []) = true :=
  ⟨witness_wfTmAs, by decide, rfl, of_reaches (by decide)⟩

/-- The tree of the frequencies 1, 1, 2 of three symbols, in which one bit is no message. -/
def deepTree : TreeNode := .internal 4 4 (.leaf 2 2 2) (.internal 2 3 (.leaf 0 1 0) (.leaf 1 1 1))

def deep : State :=
  { State.reset with
    params := ⟨2, 2⟩, tm := [(0, .leaf 0), (1, .leaf 1), (2, .leaf 2), (3, .internal 0 1), (4, .internal 2 3)],
    rootV := true, rootIdx := 4, decPtr := 4 }

theorem witness_DecodedMessageIsExact_malformed :
    WfTmAs deep deepTree ∧ refDecode [false, true] (some deepTree) = .error .malformed ∧
    ∃ t, run 3 { deep with dbIn := (decodeOps [false, true]).map (encode deep.params) } = .next t ∧ decide (t.dbIn = []) = true :=
  ⟨⟨rfl, rfl, by simp [TreeNode.HeldBy, deepTree, deep, TreeNode.nodes, TreeNode.seq, TreeNode.entry, Memory.read], by decide, by decide⟩,
    rfl, of_reaches (by decide)⟩

theorem witness_consistent : Consistent aab := by
  refine ⟨aabTree, witness_wfTmAs, ⟨?_, .inr ?_⟩, ?_, ?_⟩
  · decide
  · decide
  · intro sym
    have : aabTree.symbols = [1, 0] := by decide
    rw [this]
    simp only [aab, Memory.read, List.mem_cons, List.not_mem_nil, or_false]
    by_cases h0 : sym = 0
    · simp [h0]
    · by_cases h1 : sym = 1 <;> simp [h0, h1]
  · decide

theorem witness_RoundTripThroughBlock :
    Consistent aab ∧ aab.good = true ∧ (∀ a ∈ [0, 1], a < 2 ^ aab.params.symW) ∧ (∀ a ∈ [0, 1], (aab.ct.read a).isSome = true) ∧
    ∃ u, run 6 { aab with esIn := (encodeOps [0, 1]).map (encode small), sched := [.shift] } = .next u ∧
      (decide (u.esIn = []) &&
       reaches (run 4 (loopBack (u.ebHist.drop 0) (u.withSched [.accept .es]))) (fun v => decide (v.dbIn = []))) = true :=
  ⟨witness_consistent, by decide, by decide, by decide, of_reaches (by decide)⟩

theorem witness_EveryPresentedOpIsAccepted :
    ∀ port, ∀ w ∈ State.input { aab with cfgIn := [4], esIn := [2, 1], dbIn := [2, 1], sched := [.shift] } port, w < 2 ^ small.portWidth port := by
  intro port
  cases port <;> decide

theorem witness_FinishedRunRests : aab.sched = [] ∧ aab.runOver = true := by decide

theorem witness_FreqTableCounts : [0, 0, 1].Perm [1, 0, 0] ∧ (0, 2) ∈ freqTable [0, 0, 1] := by decide

theorem witness_RemoveMinTakesFirst : ([.leaf 5 2 0, .leaf 6 1 1, .leaf 7 1 2] : List TreeNode) ≠ [] ∧
    removeMin [.leaf 5 2 0, .leaf 6 1 1, .leaf 7 1 2] = some (.leaf 6 1 1, [.leaf 5 2 0, .leaf 7 1 2]) := by decide

theorem witness_BuildTreeGivesHuffmanTree : 2 ≤ ([.leaf 5 2 0, .leaf 6 1 1] : List TreeNode).length := by decide

/-- For the statements about a LEAF_ORDER of a sequence. -/
theorem witness_leafOrder : IsLeafOrder [0, 1] [0, 0, 1] ∧ [0, 0, 1] ≠ [] ∧ buildTreeIn [0, 1] [0, 0, 1] = .ok aabTree ∧
    buildCodeMapping (some aabTree) = .ok aabMap ∧ 1 ≤ small.lenMax ∧ [0, 1].length ≤ small.lenMax + 1 ∧
    ctImage small aabMap = some aab.ct ∧ aab.tm = tmImage aabTree ∧ aab.rootV = true ∧ aab.rootIdx = aabTree.seq := by
  refine ⟨⟨by decide, fun s => ?_⟩, by decide, rfl, rfl, by decide, by decide, rfl, rfl, rfl, rfl⟩
  simp only [List.mem_cons, List.not_mem_nil, or_false]
  tauto

theorem witness_HuffmanCodeIsOptimal : IsCodeFor (freqTable [0, 0, 1]) aabMap ∧ encodedLength (freqTable [0, 0, 1]) aabMap = 3 := by
  refine ⟨⟨?_, ?_⟩, by decide⟩
  · rw [show freqTable [0, 0, 1] = [(0, 2), (1, 1)] from rfl]
    intro e he
    rcases List.mem_cons.mp he with rfl | he
    · exact ⟨[true], rfl, by decide⟩
    · rw [List.mem_singleton] at he
      subst he
      exact ⟨[false], rfl, by decide⟩
  · rw [show freqTable [0, 0, 1] = [(0, 2), (1, 1)] from rfl]
    intro e he f hf hne c d hc hd
    simp only [List.mem_cons, List.not_mem_nil, or_false] at he hf
    rcases he with rfl | rfl <;> rcases hf with rfl | rfl <;> simp [aabMap, Memory.read] at hne hc hd <;> subst hc <;> subst hd <;> decide

theorem witness_CodeMappingIsPaths : aabTree.symbols.Nodup ∧ (0, [true]) ∈ aabTree.paths ∧ 2 ∉ aabTree.symbols := by decide

theorem witness_PathsArePrefixFree :
    (0, [true]) ∈ aabTree.paths ∧ (1, [false]) ∈ aabTree.paths ∧ (0, [true]).1 ≠ ((1, [false]) : Nat × BitString).1 := by decide

end Sys2Proof.Tests
end

section
/-! PROOFS. The status pins bit by bit (10_state.md R18), what a unit in its reset state shows, and the reset values (R23). -/

namespace Sys2Proof.Machine

theorem State.encStat_extract_err (s : State) : s.encStat.extractLsb' 0 3 = errCode s.encErr :=
  BitVec.extractLsb'_append_eq_right

theorem State.encStat_bit_active (s : State) : s.encStat.getLsbD 3 = s.encActive := by
  rw [State.encStat, BitVec.getLsbD_append, BitVec.getLsbD_append]
  simp

theorem State.encStat_bit_busy (s : State) : s.encStat.getLsbD 4 = decide (s.encCnt ≠ 0) := by
  rw [State.encStat, BitVec.getLsbD_append, BitVec.getLsbD_append]
  simp [State.busy]

theorem State.decStat_extract_err (s : State) : s.decStat.extractLsb' 0 3 = errCode s.decErr :=
  BitVec.extractLsb'_append_eq_right

theorem State.decStat_bit_active (s : State) : s.decStat.getLsbD 3 = s.decActive := by
  rw [State.decStat, BitVec.getLsbD_append]
  simp

theorem EncoderReset.encStat_eq_zero {s : State} (h : EncoderReset s) : s.encStat = 0 := by
  obtain ⟨-, -, hcnt, hactive, herr⟩ := h
  simp [State.encStat, State.busy, hcnt, hactive, herr, errCode]

theorem DecoderReset.decStat_eq_zero {s : State} (h : DecoderReset s) : s.decStat = 0 := by
  obtain ⟨-, -, -, -, hactive, herr⟩ := h
  simp [State.decStat, hactive, herr, errCode]

theorem EncoderReset.read_ct {s : State} (h : EncoderReset s) (a : Symbol) : s.ct.read a = none := by
  obtain ⟨htable, -⟩ := h
  rw [htable, Memory.read_nil]

theorem DecoderReset.read_tm {s : State} (h : DecoderReset s) (a : NodeIdx) : s.tm.read a = none := by
  obtain ⟨htable, -⟩ := h
  rw [htable, Memory.read_nil]

theorem EncoderReset.unitState_idle {s : State} (h : EncoderReset s) : s.unitState .enc = .idle :=
  have ⟨_, _, _, hactive, herr⟩ := h
  unitStateOf_idle_iff.mpr ⟨herr, hactive⟩

theorem DecoderReset.unitState_idle {s : State} (h : DecoderReset s) : s.unitState .dec = .idle :=
  have ⟨_, _, _, _, hactive, herr⟩ := h
  unitStateOf_idle_iff.mpr ⟨herr, hactive⟩

theorem encoderReset_reset : EncoderReset State.reset := ⟨rfl, rfl, rfl, rfl, rfl⟩

theorem decoderReset_reset : DecoderReset State.reset := ⟨rfl, rfl, rfl, rfl, rfl, rfl⟩

/-- Settles O22: each part of a pin group is one part of the concatenation that makes it. -/
theorem statusPinsShowRegisters : Obligations.StatusPinsShowRegisters := fun s =>
  ⟨s.encStat_extract_err, s.encStat_bit_active, s.encStat_bit_busy, s.decStat_extract_err, s.decStat_bit_active⟩

/-- Settles O30: both units are in their reset state, from which the tables, pins and unit states follow, and the logs are empty. -/
theorem resetStateHasResetValues : Obligations.ResetStateHasResetValues :=
  have henc := encoderReset_reset
  have hdec := decoderReset_reset
  ⟨henc, hdec, henc.read_ct, hdec.read_tm, henc.encStat_eq_zero, hdec.decStat_eq_zero,
    henc.unitState_idle, hdec.unitState_idle, history_nil, history_nil, rfl, rfl⟩

end Sys2Proof.Machine
end

section
/-! PROOFS. The words of the ports: what each opcode of a CFG or ES word is read as (30_encoding.md R51, R53, R54), the output words
(R55, R56), and the Code that a code field holds (R48). -/

namespace Sys2Proof

/-- The opcode bits of a CFG word are the binary digits of its opcode. -/
theorem testBit_of_opcode {w opcode : Nat} (h : w % 8 = opcode) {k : Nat} (hk : k < 3) :
    w.testBit k = decide (opcode / 2 ^ k % 2 = 1) := by
  rw [testBit_mod_eight w k hk, h, Nat.testBit_eq_decide_div_mod_eq]

/-! One equation of the CFG decoder per opcode (30_encoding.md R51, R52). -/

theorem decodeCfg_clrenc {p : Params} {w : OpWord} (h : w % 8 = 0) : decodeCfg p w = .clrenc := by
  simp [decodeCfg, testBit_of_opcode h]

theorem decodeCfg_ldcode {p : Params} {w : OpWord} (h : w % 8 = 1) :
    decodeCfg p w =
      .ldcode (field w 3 p.symW) (field w (p.symW + 3) p.lenW) (field w (p.symW + p.lenW + 3) p.lenMax) := by
  simp [decodeCfg, testBit_of_opcode h]

theorem decodeCfg_reserved010 {p : Params} {w : OpWord} (h : w % 8 = 2) : decodeCfg p w = .reserved010 := by
  simp [decodeCfg, testBit_of_opcode h]

theorem decodeCfg_reserved011 {p : Params} {w : OpWord} (h : w % 8 = 3) : decodeCfg p w = .reserved011 := by
  simp [decodeCfg, testBit_of_opcode h]

theorem decodeCfg_clrdec {p : Params} {w : OpWord} (h : w % 8 = 4) : decodeCfg p w = .clrdec := by
  simp [decodeCfg, testBit_of_opcode h]

theorem decodeCfg_ldleaf {p : Params} {w : OpWord} (h : w % 8 = 5) :
    decodeCfg p w = .ldleaf (field w 3 p.nodeAw) (field w (p.nodeAw + 3) p.symW) := by
  simp [decodeCfg, testBit_of_opcode h]

theorem decodeCfg_ldint {p : Params} {w : OpWord} (h : w % 8 = 6) :
    decodeCfg p w =
      .ldint (field w 3 p.nodeAw) (field w (p.nodeAw + 3) p.nodeAw) (field w (2 * p.nodeAw + 3) p.nodeAw) := by
  simp [decodeCfg, testBit_of_opcode h]

theorem decodeCfg_setroot {p : Params} {w : OpWord} (h : w % 8 = 7) : decodeCfg p w = .setroot (field w 3 p.nodeAw) := by
  simp [decodeCfg, testBit_of_opcode h]

/-! The two equations of the ES decoder (30_encoding.md R53). -/

theorem decodeEs_encsym {p : Params} {w : OpWord} (h : w % 2 = 0) : decodeEs p w = .encsym (field w 1 p.symW) := by
  simp [decodeEs, Nat.testBit_zero, h]

theorem decodeEs_encend {p : Params} {w : OpWord} (h : w % 2 = 1) : decodeEs p w = .encend := by
  simp [decodeEs, Nat.testBit_zero, h]

/-- The word of ENCSYM fits the ES port. -/
theorem encode_encsym_lt {p : Params} {sym : Symbol} (h : sym < 2 ^ p.symW) : encode p (.encsym sym) < 2 ^ p.portWidth .es :=
  Laws.EncodeFits.encsym sym p (by simp [Instr.wellFormed, fits, h])

/-- The word of ENCSYM is read back, with its symbol. -/
theorem decode_encode_encsym {p : Params} {sym : Symbol} (h : sym < 2 ^ p.symW) :
    decode p .es (encode p (.encsym sym)) = .ok (.encsym sym) := by
  have heven : encode p (.encsym sym) % 2 = 0 := by simp [encode, Nat.shiftLeft_eq]
  have hfield : field (encode p (.encsym sym)) 1 p.symW = sym := by
    simpa [encode] using field_packed_top (low := 0) (lo := 1) (by decide) h
  rw [decode_of_lt (encode_encsym_lt h), decodeWord, decodeEs_encsym heven, hfield]

/-- The word of ENCEND is read back. -/
theorem decode_encode_encend (p : Params) : decode p .es (encode p .encend) = .ok .encend := by
  have hfits : encode p .encend < 2 ^ p.portWidth .es := Laws.EncodeFits.encend p rfl
  rw [decode_of_lt hfits, decodeWord, decodeEs_encend rfl]

end Sys2Proof

namespace Sys2Proof.Machine

/-- Settles O5: one equation of the decoder per opcode, with a field written out as the division and remainder it is. -/
theorem wordsAreReadByFields : Obligations.WordsAreReadByFields := by
  intro p w
  refine ⟨fun hw => ?cfg, fun hw => ?es, rfl, rfl, rfl, rfl⟩
  case cfg =>
    have hdecode : decode p .cfg w = .ok (decodeCfg p w) := decode_of_lt hw
    simp only [hdecode, ← field_eq_div, Except.ok.injEq]
    exact ⟨fun i hi => hi ▸ decodeCfg_unit p w, decodeCfg_clrenc, decodeCfg_ldcode, decodeCfg_reserved010, decodeCfg_reserved011,
      decodeCfg_clrdec, decodeCfg_ldleaf, decodeCfg_ldint, decodeCfg_setroot⟩
  case es =>
    have hdecode : decode p .es w = .ok (decodeEs p w) := decode_of_lt hw
    have hsym : w / 2 % 2 ^ p.symW = field w 1 p.symW := (field_eq_div w 1 p.symW).symm
    simp only [hdecode, hsym, Except.ok.injEq]
    exact ⟨decodeEs_encsym, decodeEs_encend⟩

/-- Settles O7: the output words are defined as the words of the input ops, so the decoder reads them back. -/
theorem outputWordsAreInputWords : Obligations.OutputWordsAreInputWords := by
  refine ⟨rfl, rfl, rfl, rfl, fun p => ⟨fun b => ⟨rfl, ?bit⟩, rfl, rfl, fun sym h => ⟨?value, ?width, rfl, ?sym⟩, rfl, ?done⟩⟩
  case bit => cases b <;> rfl
  case value => rw [DsEvent.word, Nat.shiftLeft_eq, Nat.mul_comm, Nat.pow_one]
  case width => exact encode_encsym_lt h
  case sym => exact decode_encode_encsym h
  case done => exact decode_encode_encend p

/-- Element k of `bits_of(n, c)` is bit n-1-k of c (00_scope.md R8). -/
theorem getElem?_bitsOf {n k : Nat} (c : Nat) (h : k < n) : (bitsOf n c)[k]? = some (c.testBit (n - 1 - k)) := by
  induction n generalizing k with
  | zero => omega
  | succ n ih =>
    cases k with
    | zero => simp [bitsOf_succ]
    | succ k =>
      have hindex : n + 1 - 1 - (k + 1) = n - 1 - k := by omega
      rw [bitsOf_succ, List.getElem?_cons_succ, ih (by omega), hindex]

/-- The bits at and above the length are ignored. -/
theorem bitsOf_mod_two_pow (n c : Nat) : bitsOf n (c % 2 ^ n) = bitsOf n c :=
  bitsOf_congr fun k hk => by simp [Nat.testBit_mod_two_pow, hk]

/-- The last element of `bits_of` is the lowest bit. -/
theorem bitsOf_succ_eq_append (n c : Nat) : bitsOf (n + 1) c = bitsOf n (c / 2) ++ [c.testBit 0] := by
  induction n with
  | zero => rfl
  | succ n ih => rw [bitsOf_succ, ih, bitsOf_succ, List.cons_append, Nat.testBit_succ]

theorem val_lt (x : BitString) : val x < 2 ^ x.length := by
  induction x using List.reverseRecOn with
  | nil => decide
  | append_singleton x b ih =>
    have := b.toNat_lt
    rw [val_append_singleton, List.length_append, List.length_singleton, Nat.pow_succ]
    omega

/-- `bits_of` is read back from `val`: the last bit is the remainder of the numeral by 2, the ones before it the quotient. -/
theorem bitsOf_val (x : BitString) : bitsOf x.length (val x) = x := by
  induction x using List.reverseRecOn with
  | nil => rfl
  | append_singleton x b ih =>
    have hquot : (2 * val x + b.toNat) / 2 = val x := by have := b.toNat_lt; omega
    have hlast : (2 * val x + b.toNat).testBit 0 = b := by cases b <;> simp [Nat.testBit_zero, Nat.add_mod]
    rw [val_append_singleton, List.length_append, List.length_singleton, bitsOf_succ_eq_append, hquot, hlast, ih]

/-- Settles O8: `bits_of` element by element, its lowest bits alone, and `val` as its inverse. -/
theorem codeFieldHoldsTheCode : Obligations.CodeFieldHoldsTheCode :=
  ⟨fun e => ⟨length_bitsOf e.len e.code, fun _ hk => getElem?_bitsOf e.code hk⟩,
    fun len code => (bitsOf_mod_two_pow len code).symm,
    fun c => ⟨bitsOf_val c, val_lt c⟩⟩

end Sys2Proof.Machine
end

section
/-! PROOFS. The frequency table (40_table_construction.md R65): what it reads, what its counts sum to, and that tables in canonical
form are determined by what they read. -/

namespace Sys2Proof.Machine

theorem Memory.read_eq_some_iff {α : Type} {m : Memory α} (h : m.wf) {a : Nat} {e : α} : m.read a = some e ↔ (a, e) ∈ m :=
  ⟨Memory.mem_of_read, Memory.read_of_mem h⟩

/-- Tables in canonical form that read the same list the same entries, each once and by rising index. -/
theorem Memory.eq_of_read_eq {α : Type} {m n : Memory α} (hm : m.wf) (hn : n.wf) (h : ∀ a, m.read a = n.read a) : m = n := by
  have : Std.Irrefl fun a b : Nat × α => a.1 < b.1 := ⟨fun a => lt_irrefl a.1⟩
  have : Std.Antisymm fun a b : Nat × α => a.1 < b.1 := ⟨fun _ _ hab hba => absurd hab (lt_asymm hba)⟩
  refine hm.eq_of_mem_iff hn fun e => ?_
  rw [← Memory.read_eq_some_iff hm, ← Memory.read_eq_some_iff hn, h]

/-- A write replaces what was read at its index in the sum of all entries; an index not listed counts as 0. -/
theorem Memory.sum_write {m : Memory Nat} (h : m.wf) (a x : Nat) :
    ((m.write a x).map (·.2)).sum + (m.read a).getD 0 = (m.map (·.2)).sum + x := by
  induction m with
  | nil => simp [Memory.write]
  | cons b m ih =>
    obtain ⟨k, e⟩ := b
    obtain ⟨hk, hm⟩ := List.pairwise_cons.mp h
    obtain hlt | rfl | hgt := lt_trichotomy a k
    · have hnone : Memory.read m a = none := Memory.read_none_of_lt fun c hc => hlt.trans (hk c hc)
      simp only [Memory.write, Memory.read_cons, if_pos hlt, if_neg hlt.ne, hnone, List.map_cons, List.sum_cons, Option.getD_none]
      omega
    · simp only [Memory.write, Memory.read_cons, lt_irrefl, if_true, if_false, List.map_cons, List.sum_cons, Option.getD_some]
      omega
    · have hsum := ih hm
      simp only [Memory.write, Memory.read_cons, if_neg hgt.not_gt, if_neg hgt.ne', List.map_cons, List.sum_cons]
      omega

theorem freqTable_wf (S : List Symbol) : (freqTable S).wf := by
  induction S with
  | nil => exact List.Pairwise.nil
  | cons s S ih => exact Memory.wf_write ih s _

/-- The table counts: an absent symbol, read as 0, has no occurrence, and each symbol of the sequence adds 1 at its own index. -/
theorem read_freqTable (S : List Symbol) (a : Symbol) : (freqTable S).read a = if a ∈ S then some (S.count a) else none := by
  induction S with
  | nil => rfl
  | cons s S ih =>
    rw [freqTable, Memory.read_write]
    by_cases has : a = s
    · subst has
      by_cases ha : a ∈ S
      · simp [ih, ha]
      · simp [ih, ha, List.count_eq_zero_of_not_mem ha]
    · simp [ih, has, Ne.symm has]

theorem one_le_of_mem_freqTable {S : List Symbol} {e : Symbol × Nat} (h : e ∈ freqTable S) : 1 ≤ e.2 := by
  have hread := Memory.read_of_mem (freqTable_wf S) h
  rw [read_freqTable] at hread
  split at hread
  next hmem =>
    rw [← Option.some.inj hread]
    exact List.one_le_count_iff.mpr hmem
  next => contradiction

theorem sum_freqTable (S : List Symbol) : ((freqTable S).map (·.2)).sum = S.length := by
  induction S with
  | nil => rfl
  | cons s S ih =>
    have hsum := Memory.sum_write (freqTable_wf S) s (((freqTable S).read s).getD 0 + 1)
    rw [freqTable, List.length_cons]
    omega

theorem freqTable_eq_of_perm {S S' : List Symbol} (h : S.Perm S') : freqTable S = freqTable S' :=
  Memory.eq_of_read_eq (freqTable_wf S) (freqTable_wf S') fun a => by simp only [read_freqTable, h.mem_iff, h.count_eq]

/-- Settles O53: the reads and the sum by induction over the sequence; equal reads give equal tables. -/
theorem freqTableCounts : Obligations.FreqTableCounts :=
  ⟨rfl, fun S => ⟨freqTable_wf S, read_freqTable S, fun _ he => one_le_of_mem_freqTable he, sum_freqTable S⟩,
    fun _ _ h => freqTable_eq_of_perm h⟩

end Sys2Proof.Machine
end

section
/-! PROOFS. The loads of the two tables and the reserved opcodes: one equation for each case of the rules, in their order
(41_config_ops.md R87, R88, R90 to R92). -/

namespace Sys2Proof.Machine

/-! LDCODE (R87). -/

theorem execLdcode_of_faulted {s : State} (sym len code : Nat) (he : s.encErr ≠ none) : execLdcode sym len code s = .next s := by
  rw [execLdcode, if_pos (Option.isSome_iff_ne_none.mpr he)]

theorem execLdcode_of_active {s : State} (sym len code : Nat) (he : s.encErr = none) (ha : s.encActive = true) :
    execLdcode sym len code s = .next (takeFault .enc .tableBusy s) := by
  simp [execLdcode, he, ha]

theorem execLdcode_of_bad_len {s : State} {len : Nat} (sym code : Nat) (he : s.encErr = none) (ha : s.encActive = false)
    (hlen : len = 0 ∨ s.params.lenMax < len) : execLdcode sym len code s = .next (takeFault .enc .argument s) := by
  simp [execLdcode, he, ha, hlen]

theorem execLdcode_of_good_len {s : State} {len : Nat} (sym code : Nat) (he : s.encErr = none) (ha : s.encActive = false)
    (hpos : 1 ≤ len) (hmax : len ≤ s.params.lenMax) :
    execLdcode sym len code s = .next { s with ct := s.ct.write sym ⟨len, code⟩ } := by
  have hlen : ¬(len = 0 ∨ s.params.lenMax < len) := by omega
  simp [execLdcode, he, ha, hlen]

/-! The reserved opcodes (R88). -/

theorem illegalOp_of_faulted {s : State} (he : s.encErr ≠ none) : illegalOp s = .next s := by
  rw [illegalOp, if_pos (Option.isSome_iff_ne_none.mpr he)]

theorem illegalOp_of_not_faulted {s : State} (he : s.encErr = none) : illegalOp s = .next (takeFault .enc .illegalOp s) := by
  simp [illegalOp, he]

/-! What LDLEAF, LDINT and SETROOT have in common (R90 to R92). -/

theorem loadTree_of_faulted {s : State} (write : State → State) (he : s.decErr ≠ none) : loadTree write s = .next s := by
  rw [loadTree, if_pos (Option.isSome_iff_ne_none.mpr he)]

theorem loadTree_of_active {s : State} (write : State → State) (he : s.decErr = none) (ha : s.decActive = true) :
    loadTree write s = .next (takeFault .dec .tableBusy s) := by
  simp [loadTree, he, ha]

theorem loadTree_of_idle {s : State} (write : State → State) (he : s.decErr = none) (ha : s.decActive = false) :
    loadTree write s = .next (write s) := by
  simp [loadTree, he, ha]

/-- In an IDLE decoder the load of a node of either kind changes its own entry of TM and nothing else. -/
theorem loadTree_writeNode_of_idle {s : State} (idx : NodeIdx) (e : TmEntry) (he : s.decErr = none) (ha : s.decActive = false) :
    ∃ t, loadTree (writeNode idx e) s = .next t ∧ t.tm.read idx = some e ∧
      (∀ a, a ≠ idx → t.tm.read a = s.tm.read a) ∧ t = { s with tm := t.tm } :=
  ⟨writeNode idx e s, loadTree_of_idle _ he ha, Memory.read_write_same .., fun _ hne => Memory.read_write_other _ hne _, rfl⟩

/-- Settles O10: the cases of LDCODE; a read of CT after the write finds the new entry at `sym` and the old one elsewhere. -/
theorem ldcodeLoadsOrFaults : Obligations.LdcodeLoadsOrFaults := fun sym len code _ =>
  ⟨execLdcode_of_faulted sym len code,
    execLdcode_of_active sym len code,
    execLdcode_of_bad_len sym code,
    fun he ha hpos hmax => ⟨_, execLdcode_of_good_len sym code he ha hpos hmax, Memory.read_write_same ..,
      fun _ hne => Memory.read_write_other _ hne _, rfl⟩⟩

/-- Settles O11: both opcodes have the one meaning `illegalOp`. -/
theorem reservedOpcodesRaiseIllegalOp : Obligations.ReservedOpcodesRaiseIllegalOp := fun _ =>
  ⟨fun he => ⟨illegalOp_of_faulted he, illegalOp_of_faulted he⟩,
    fun he => ⟨illegalOp_of_not_faulted he, illegalOp_of_not_faulted he⟩⟩

/-- Settles O13: LDLEAF is the load of a Leaf. -/
theorem ldleafWritesLeaf : Obligations.LdleafWritesLeaf := fun idx sym _ =>
  ⟨loadTree_of_faulted _, loadTree_of_active _, loadTree_writeNode_of_idle idx (.leaf sym)⟩

/-- Settles O14: LDINT is the load of an Internal node. -/
theorem ldintWritesInternal : Obligations.LdintWritesInternal := fun idx left right _ =>
  ⟨loadTree_of_faulted _, loadTree_of_active _, loadTree_writeNode_of_idle idx (.internal left right)⟩

/-- Settles O15: SETROOT is the load whose write names the root. -/
theorem setrootNamesRoot : Obligations.SetrootNamesRoot := fun idx _ =>
  ⟨loadTree_of_faulted _, loadTree_of_active _, loadTree_of_idle (nameRoot idx)⟩

end Sys2Proof.Machine
end

section
/-! PROOFS. The ops of the encoder and its SHIFT: one equation for each case of the rules, in their order (42_encoder.md R101 to R103). -/

namespace Sys2Proof.Machine

/-- With no bit pending there is none to discard: the fault changes the ERR register alone. -/
theorem takeFault_enc_of_idle_serializer {s : State} (f : FaultCode) (hc : s.encCnt = 0) :
    takeFault .enc f s = { s with encErr := some f } := by
  rw [takeFault, ← hc]

/-! ENCSYM (R101). -/

theorem held_encsym_iff {sym : Symbol} {s : State} : held (.encsym sym) s = true ↔ s.encCnt ≠ 0 :=
  held_iff.trans (and_iff_right rfl)

theorem execEncsym_of_pending {s : State} (sym : Symbol) (hc : s.encCnt ≠ 0) : execEncsym sym s = .next s := by
  rw [execEncsym, if_pos hc]

theorem execEncsym_of_faulted {s : State} (sym : Symbol) (he : s.encErr ≠ none) : execEncsym sym s = .next s := by
  rw [execEncsym, if_pos (Option.isSome_iff_ne_none.mpr he), ite_self]

theorem execEncsym_of_unknown {s : State} {sym : Symbol} (hc : s.encCnt = 0) (he : s.encErr = none) (hr : s.ct.read sym = none) :
    execEncsym sym s = .next (takeFault .enc .unknownSymbol s) := by
  simp [execEncsym, hc, he, hr]

theorem execEncsym_of_entry {s : State} {sym : Symbol} {e : CtEntry} (hc : s.encCnt = 0) (he : s.encErr = none)
    (hr : s.ct.read sym = some e) : execEncsym sym s = .next { s with encSr := e.code, encCnt := e.len, encActive := true } := by
  simp [execEncsym, hc, he, hr]

/-! ENCEND (R103). -/

theorem held_encend_iff {s : State} : held .encend s = true ↔ s.encCnt ≠ 0 := held_iff.trans (and_iff_right rfl)

theorem execEncend_of_pending {s : State} (hc : s.encCnt ≠ 0) : execEncend s = .next s := by
  rw [execEncend, if_pos hc]

theorem execEncend_of_faulted {s : State} (he : s.encErr ≠ none) : execEncend s = .next s := by
  rw [execEncend, if_pos (Option.isSome_iff_ne_none.mpr he), ite_self]

theorem execEncend_of_ready {s : State} (hc : s.encCnt = 0) (he : s.encErr = none) :
    execEncend s = .next { emitEb .done s with encActive := false } := by
  simp [execEncend, hc, he]

/-- A FAULTED encoder drops every op of ES. -/
theorem exec_es_of_faulted {i : Instr} {s : State} (hport : i.port = .es) (he : s.encErr ≠ none) : exec i s = .next s := by
  cases i
  case encsym sym => exact execEncsym_of_faulted sym he
  case encend => exact execEncend_of_faulted he
  all_goals contradiction

/-- Settles O16: the cases of ENCSYM; the fault finds no bit to discard. -/
theorem encsymTakesSymbol : Obligations.EncsymTakesSymbol := fun sym _ =>
  ⟨fun hc => ⟨held_encsym_iff.mpr hc, execEncsym_of_pending sym hc⟩,
    fun hc => Bool.eq_false_iff.mpr fun hheld => held_encsym_iff.mp hheld hc,
    fun _ he => execEncsym_of_faulted sym he,
    fun hc he hr => takeFault_enc_of_idle_serializer .unknownSymbol hc ▸ execEncsym_of_unknown hc he hr,
    fun _ hc he hr => execEncsym_of_entry hc he hr⟩

/-- Settles O18: the cases of ENCEND, none of which looks whether a message is open. -/
theorem encendClosesMessage : Obligations.EncendClosesMessage := fun _ =>
  ⟨fun hc => ⟨held_encend_iff.mpr hc, execEncend_of_pending hc⟩,
    fun hc => Bool.eq_false_iff.mpr fun hheld => held_encend_iff.mp hheld hc,
    fun _ he => execEncend_of_faulted he,
    fun hc he => execEncend_of_ready hc he⟩

end Sys2Proof.Machine
end

section
/-! PROOFS. An encoder that is left alone: what one step can do to it when no reset is scheduled and no CFG op for it waits (00_scope.md
R6, 20_memory.md R37 to R41), and what SHIFT sends (42_encoder.md R102). -/

namespace Sys2Proof.Machine

@[simp] theorem shift_ct (s : State) : (shift s).ct = s.ct := by unfold shift; split <;> rfl
@[simp] theorem shift_encSr (s : State) : (shift s).encSr = s.encSr := by unfold shift; split <;> rfl
@[simp] theorem shift_encErr (s : State) : (shift s).encErr = s.encErr := by unfold shift; split <;> rfl
@[simp] theorem shift_encActive (s : State) : (shift s).encActive = s.encActive := by unfold shift; split <;> rfl

theorem shift_of_pending {s : State} (hc : s.encCnt ≠ 0) :
    shift s = { emitEb (.bit (s.encSr.testBit (s.encCnt - 1))) s with encCnt := s.encCnt - 1 } := if_neg hc

/-- SHIFT sends the first pending bit and leaves the others pending. -/
theorem shift_sends_first_pending {s : State} (hc : s.encCnt ≠ 0) :
    ∃ b, (shift s).ebLog = s.ebLog ++ [LogEntry.event (.bit b)] ∧ s.pending = b :: (shift s).pending := by
  obtain ⟨n, hn⟩ := Nat.exists_eq_succ_of_ne_zero hc
  refine ⟨s.encSr.testBit n, ?_, ?_⟩ <;> simp [shift_of_pending hc, State.pending, hn, bitsOf_succ]

theorem State.pending_of_idle_serializer {s : State} (hc : s.encCnt = 0) : s.pending = [] := by
  rw [State.pending, hc, bitsOf_zero]

theorem SameEncoder.pending_eq {s t : State} (h : SameEncoder s t) : t.pending = s.pending := by
  obtain ⟨-, hsr, hcnt, -, -⟩ := h
  rw [State.pending, State.pending, hsr, hcnt]

/-- An op of the decoder leaves the encoder and its port EB alone. -/
theorem exec_dec_keeps_encoder {i : Instr} {s t : State} (hi : i.unit = .dec) (h : exec i s = .next t) :
    SameEncoder s t ∧ t.ebLog = s.ebLog := by
  cases exec_effect h <;> simp_all [SameEncoder, Instr.unit]

theorem step_params {s t : State} (h : step s = .next t) : t.params = s.params := by
  obtain rfl | ⟨port, w, ws, i, -, -, -, hx⟩ | ⟨-, rfl⟩ | ⟨-, rfl⟩ := step_cases h
  · rfl
  · obtain ⟨hparams, -⟩ := exec_keeps_host_side hx
    simpa using hparams
  · simp
  · rfl

/-- Every step uses up one turn of the schedule. -/
theorem step_sched {s t : State} (h : step s = .next t) : t.sched = s.sched.tail := by
  obtain rfl | ⟨port, w, ws, i, -, -, -, hx⟩ | ⟨-, rfl⟩ | ⟨-, rfl⟩ := step_cases h
  · rfl
  · obtain ⟨-, -, -, -, hsched⟩ := exec_keeps_host_side hx
    simpa using hsched
  · simp
  · rfl

theorem exec_input {i : Instr} {s t : State} (h : exec i s = .next t) (port : Port) : t.input port = s.input port := by
  obtain ⟨-, hcfg, hes, hdb, -⟩ := exec_keeps_host_side h
  cases port
  · exact hcfg
  · exact hes
  · exact hdb

/-- What waits at a port after a step has waited there before. -/
theorem step_input_suffix {s t : State} (h : step s = .next t) (port : Port) : t.input port <:+ s.input port := by
  obtain rfl | ⟨q, w, ws, i, hin, -, -, hx⟩ | ⟨-, rfl⟩ | ⟨-, rfl⟩ := step_cases h
  · rw [input_withSched]
  · rw [exec_input hx port]
    by_cases hq : port = q
    · subst hq
      rw [input_withInput_same, hin]
      exact List.suffix_cons w ws
    · rw [input_withInput_other hq, input_withSched]
  · cases port <;> simp [State.input]
  · cases port <;> simp [State.input]

/-- A port carries ops of its own. -/
theorem decode_port {p : Params} {port : Port} {w : OpWord} {i : Instr} (h : decode p port w = .ok i) : i.port = port := by
  obtain ⟨-, rfl⟩ := decode_ok_iff.mp h
  exact decodeWord_port p port w

/-- Nothing that is to come touches the encoder but the ops at ES and its own SHIFT: no reset is scheduled and every CFG op that waits is
for the decoder. -/
structure EncoderUndisturbed (s : State) : Prop where
  cfg_for_decoder : ∀ w ∈ s.cfgIn, w.testBit 2 = true
  no_reset : .rst ∉ s.sched

theorem EncoderUndisturbed.step {s t : State} (hs : EncoderUndisturbed s) (h : step s = .next t) : EncoderUndisturbed t where
  cfg_for_decoder w hw := hs.cfg_for_decoder w ((step_input_suffix h .cfg).mem hw)
  no_reset := step_sched h ▸ mt List.mem_of_mem_tail hs.no_reset

/-- The ops that wait for an undisturbed encoder wait at ES. -/
theorem EncoderUndisturbed.unit_dec {s : State} (hs : EncoderUndisturbed s) {port : Port} {w : OpWord} {ws : List OpWord} {i : Instr}
    (hport : port ≠ .es) (hin : s.input port = w :: ws) (hi : decode s.params port w = .ok i) : i.unit = .dec := by
  obtain ⟨-, rfl⟩ := decode_ok_iff.mp hi
  cases port
  case cfg =>
    have hw : w ∈ s.cfgIn := by
      rw [show s.cfgIn = w :: ws from hin]
      exact List.mem_cons_self
    rw [decodeWord, decodeCfg_unit, if_pos (hs.cfg_for_decoder w hw)]
  case es => contradiction
  case db => exact decodeDb_unit w

/-- One step of an undisturbed encoder: it stands still, or it performs the op at the head of ES with no bit pending, or it sends a bit. -/
theorem EncoderUndisturbed.step_cases {s t : State} (hs : EncoderUndisturbed s) (h : Machine.step s = .next t) :
    (SameEncoder s t ∧ t.ebLog = s.ebLog ∧ t.esIn = s.esIn) ∨
    (s.encCnt = 0 ∧ ∃ w ws i, s.esIn = w :: ws ∧ decode s.params .es w = .ok i ∧
      exec i ((s.withSched s.sched.tail).withInput .es ws) = .next t) ∨
    (s.encCnt ≠ 0 ∧ t = shift (s.withSched s.sched.tail)) := by
  obtain rfl | ⟨port, w, ws, i, hin, hi, hheld, hx⟩ | hshift | ⟨hreset, -⟩ := Machine.step_cases h
  case inl => exact .inl ⟨⟨rfl, rfl, rfl, rfl, rfl⟩, rfl, rfl⟩
  case inr.inl =>
    by_cases hport : port = .es
    · subst hport
      exact .inr (.inl ⟨held_eq_false_iff.mp hheld (decode_port hi), w, ws, i, hin, hi, hx⟩)
    · have hkept := exec_dec_keeps_encoder (hs.unit_dec hport hin hi) hx
      have hin' : t.esIn = s.esIn := by
        rw [show t.esIn = _ from exec_input hx .es, input_withInput_other (Ne.symm hport)]
        rfl
      exact .inl (by simpa [SameEncoder, hin'] using hkept)
  case inr.inr.inl => exact .inr (.inr hshift)
  case inr.inr.inr => exact absurd (List.mem_of_mem_head? hreset) hs.no_reset

end Sys2Proof.Machine
end

section
/-! PROOFS. The message of `ENCODE S` (42_encoder.md R104): what EB is to emit for it, how far an undisturbed encoder has come with it,
and that every step goes on with it. -/

namespace Sys2Proof.Machine

/-- What `ENCODE S` emits on EB: the bits of its symbols and End, or the bits of the symbols before the first with no entry. -/
def encodeEvents (ct : Memory CtEntry) : List Symbol → List EbEvent
  | [] => [.done]
  | a :: S =>
    match ct.read a with
    | none => []
    | some e => e.bits.map .bit ++ encodeEvents ct S

theorem encodeEvents_of_unknown {ct : Memory CtEntry} {a : Symbol} (h : ct.read a = none) (S : List Symbol) :
    encodeEvents ct (a :: S) = [] := by
  simp only [encodeEvents, h]

theorem encodeEvents_of_entry {ct : Memory CtEntry} {a : Symbol} {e : CtEntry} (h : ct.read a = some e) (S : List Symbol) :
    encodeEvents ct (a :: S) = e.bits.map .bit ++ encodeEvents ct S := by
  simp only [encodeEvents, h]

/-- The bits of the symbols that `encode` accepts come first. -/
theorem encodeEvents_append {ct : Memory CtEntry} {S₁ : List Symbol} {x : BitString} (h : refEncode (mappingOf ct) S₁ = .ok x)
    (S₂ : List Symbol) : encodeEvents ct (S₁ ++ S₂) = x.map .bit ++ encodeEvents ct S₂ := by
  induction S₁ generalizing x with
  | nil =>
    obtain rfl : [] = x := Except.ok.inj h
    rfl
  | cons a S₁ ih =>
    obtain ⟨c, y, hc, hy, rfl⟩ := refEncode_cons_ok_iff.mp h
    rw [read_mappingOf] at hc
    obtain ⟨e, he, rfl⟩ := Option.map_eq_some_iff.mp hc
    rw [List.cons_append, encodeEvents_of_entry he, ih hy, List.map_append, List.append_assoc]

/-- The message when every symbol has an entry. -/
theorem encodeEvents_of_ok {ct : Memory CtEntry} {S : List Symbol} {x : BitString} (h : refEncode (mappingOf ct) S = .ok x) :
    encodeEvents ct S = x.map .bit ++ [EbEvent.done] := by
  simpa [encodeEvents] using encodeEvents_append h []

/-- The message when `z` is the first symbol with no entry. -/
theorem encodeEvents_of_cut {ct : Memory CtEntry} {S₁ : List Symbol} {z : Symbol} {x : BitString}
    (h : refEncode (mappingOf ct) S₁ = .ok x) (hz : ct.read z = none) (S₂ : List Symbol) :
    encodeEvents ct (S₁ ++ z :: S₂) = x.map .bit := by
  rw [encodeEvents_append h, encodeEvents_of_unknown hz, List.append_nil]

/-- How far the encoder has come in `t` with the message `total`, of which `sent` is emitted: it has the rest of the symbols still to
take, or the ENCEND is accepted, or a symbol with no entry has cut the message. -/
inductive EncodePhase (total sent : List EbEvent) (t : State) : Prop
  | running (rest : List Symbol) (hes : t.esIn = (encodeOps rest).map (encode t.params)) (hfits : ∀ a ∈ rest, a < 2 ^ t.params.symW)
      (herr : t.encErr = none) (hopen : .done ∉ sent) (htotal : total = sent ++ t.pending.map .bit ++ encodeEvents t.ct rest)
  | ended (hes : t.esIn = []) (hcnt : t.encCnt = 0) (herr : t.encErr = none) (hactive : t.encActive = false) (hdone : .done ∈ sent)
      (htotal : total = sent)
  | cut (hcnt : t.encCnt = 0) (herr : t.encErr = some .unknownSymbol) (hopen : .done ∉ sent) (htotal : total = sent)

theorem EncodePhase.sent_isPrefix {total sent : List EbEvent} {t : State} (h : EncodePhase total sent t) : sent <+: total := by
  cases h with
  | running rest hes hfits herr hopen htotal =>
    rw [htotal, List.append_assoc]
    exact List.prefix_append ..
  | ended hes hcnt herr hactive hdone htotal => rw [htotal]
  | cut hcnt herr hopen htotal => rw [htotal]

theorem EncodePhase.of_sameEncoder {total sent : List EbEvent} {s t : State} (h : EncodePhase total sent s) (henc : SameEncoder s t)
    (hparams : t.params = s.params) (hin : t.esIn = s.esIn) : EncodePhase total sent t := by
  have hpending := henc.pending_eq
  obtain ⟨hct, -, hcnt, hactive, herr⟩ := henc
  cases h with
  | running rest hes hfits he hopen htotal =>
    exact .running rest (by rw [hin, hparams, hes]) (hparams ▸ hfits) (by rw [herr, he]) hopen (by rw [hpending, hct, htotal])
  | ended hes hc he ha hdone htotal =>
    exact .ended (by rw [hin, hes]) (by rw [hcnt, hc]) (by rw [herr, he]) (by rw [hactive, ha]) hdone htotal
  | cut hc he hopen htotal => exact .cut (by rw [hcnt, hc]) (by rw [herr, he]) hopen htotal

/-- Only the running encoder has a bit to send, and it is the next event of the message. -/
theorem EncodePhase.shift {total sent : List EbEvent} {s : State} (h : EncodePhase total sent s) (hc : s.encCnt ≠ 0) :
    ∃ new, (Machine.shift s).ebLog = s.ebLog ++ new.map .event ∧ EncodePhase total (sent ++ new) (Machine.shift s) := by
  cases h with
  | running rest hes hfits herr hopen htotal =>
    obtain ⟨b, hlog, hpending⟩ := shift_sends_first_pending hc
    exact ⟨[.bit b], hlog,
      .running rest (by simpa using hes) (by simpa using hfits) (by simpa using herr) (by simpa using hopen) (by simp [htotal, hpending])⟩
  | ended hes hcnt herr hactive hdone htotal => contradiction
  | cut hcnt herr hopen htotal => contradiction

/-- The running encoder accepts the ENCEND. -/
theorem EncodePhase.encend {total sent : List EbEvent} {s t : State} (hin : s.esIn = []) (hc : s.encCnt = 0) (he : s.encErr = none)
    (htotal : total = sent ++ [EbEvent.done]) (hx : exec .encend s = .next t) :
    t.ebLog = s.ebLog ++ [LogEntry.event .done] ∧ t.ct = s.ct ∧ EncodePhase total (sent ++ [EbEvent.done]) t := by
  obtain rfl := Host.Outcome.next.inj ((execEncend_of_ready hc he).symm.trans hx)
  exact ⟨rfl, rfl, .ended hin hc he rfl (by simp) htotal⟩

/-- The running encoder accepts an ENCSYM: it loads the Code, or the message is cut. -/
theorem EncodePhase.encsym {total sent : List EbEvent} {s t : State} {a : Symbol} {rest : List Symbol}
    (hin : s.esIn = (encodeOps rest).map (encode s.params)) (hfits : ∀ b ∈ rest, b < 2 ^ s.params.symW) (hc : s.encCnt = 0)
    (he : s.encErr = none) (hopen : .done ∉ sent) (htotal : total = sent ++ encodeEvents s.ct (a :: rest))
    (hx : exec (.encsym a) s = .next t) : t.ebLog = s.ebLog ∧ t.ct = s.ct ∧ EncodePhase total sent t := by
  cases hr : s.ct.read a with
  | none =>
    obtain rfl := Host.Outcome.next.inj ((execEncsym_of_unknown hc he hr).symm.trans hx)
    rw [encodeEvents_of_unknown hr, List.append_nil] at htotal
    exact ⟨rfl, rfl, .cut rfl rfl hopen htotal⟩
  | some e =>
    obtain rfl := Host.Outcome.next.inj ((execEncsym_of_entry hc he hr).symm.trans hx)
    rw [encodeEvents_of_entry hr, ← List.append_assoc] at htotal
    exact ⟨rfl, rfl, .running rest hin hfits he hopen htotal⟩

/-- The op at the head of ES, accepted with no bit pending, goes on with the message or is dropped. -/
theorem EncodePhase.accept {total sent : List EbEvent} {s t : State} {w : OpWord} {ws : List OpWord} {i : Instr}
    (h : EncodePhase total sent s) (hc : s.encCnt = 0) (hin : s.esIn = w :: ws) (hi : decode s.params .es w = .ok i)
    (hx : exec i (s.withInput .es ws) = .next t) :
    ∃ new, t.ebLog = s.ebLog ++ new.map .event ∧ t.ct = s.ct ∧ EncodePhase total (sent ++ new) t := by
  cases h with
  | running rest hes hfits herr hopen htotal =>
    rw [State.pending_of_idle_serializer hc, List.map_nil, List.append_nil] at htotal
    cases rest with
    | nil =>
      obtain ⟨rfl, rfl⟩ := List.cons.inj (hin.symm.trans hes)
      obtain rfl := Except.ok.inj ((decode_encode_encend s.params).symm.trans hi)
      exact ⟨[.done], EncodePhase.encend (s := s.withInput .es []) rfl hc herr htotal hx⟩
    | cons a rest =>
      obtain ⟨ha, hrest⟩ := List.forall_mem_cons.mp hfits
      obtain ⟨rfl, rfl⟩ := List.cons.inj (hin.symm.trans hes)
      obtain rfl := Except.ok.inj ((decode_encode_encsym ha).symm.trans hi)
      exact ⟨[], by
        simpa using EncodePhase.encsym (s := s.withInput .es ((encodeOps rest).map (encode s.params))) rfl hrest hc herr hopen htotal hx⟩
  | ended hes hcnt herr hactive hdone htotal => exact absurd (hin.symm.trans hes) (List.cons_ne_nil w ws)
  | cut hcnt herr hopen htotal =>
    have hdropped : exec i (s.withInput .es ws) = .next (s.withInput .es ws) :=
      exec_es_of_faulted (decode_port hi) (by simp [herr])
    obtain rfl := Host.Outcome.next.inj (hdropped.symm.trans hx)
    exact ⟨[], by simp, rfl, by simpa using .cut hcnt herr hopen htotal⟩

/-- Every step of an undisturbed encoder goes on with the message, and none touches CT. -/
theorem EncodePhase.step {total sent : List EbEvent} {s t : State} (hs : EncoderUndisturbed s) (h : EncodePhase total sent s)
    (hx : Machine.step s = .next t) :
    ∃ new, t.ebLog = s.ebLog ++ new.map .event ∧ t.ct = s.ct ∧ EncodePhase total (sent ++ new) t := by
  have hbase : EncodePhase total sent (s.withSched s.sched.tail) := h.of_sameEncoder ⟨rfl, rfl, rfl, rfl, rfl⟩ rfl rfl
  obtain ⟨henc, hlog, hin⟩ | ⟨hc, w, ws, i, hin, hi, hx⟩ | ⟨hc, rfl⟩ := hs.step_cases hx
  · have ⟨hct, _⟩ := henc
    exact ⟨[], by simpa using hlog, hct, by simpa using h.of_sameEncoder henc (step_params hx) hin⟩
  · exact hbase.accept hc hin hi hx
  · obtain ⟨new, hlog, hphase⟩ := hbase.shift hc
    exact ⟨new, hlog, shift_ct _, hphase⟩

/-- A run from `s` that began with the message `total` has come to `t`. -/
structure EncodeRun (s : State) (total : List EbEvent) (t : State) : Prop where
  undisturbed : EncoderUndisturbed t
  ct_kept : t.ct = s.ct
  progress : ∃ sent, t.ebLog = s.ebLog ++ sent.map .event ∧ EncodePhase total sent t

theorem EncodeRun.step {s u t : State} {total : List EbEvent} (h : EncodeRun s total u) (hx : Machine.step u = .next t) :
    EncodeRun s total t := by
  obtain ⟨sent, hlog, hphase⟩ := h.progress
  obtain ⟨new, hnew, hct, hnext⟩ := hphase.step h.undisturbed hx
  exact ⟨h.undisturbed.step hx, hct.trans h.ct_kept, sent ++ new, by rw [hnew, hlog, List.map_append, List.append_assoc], hnext⟩

/-- With `ENCODE S` at ES an encoder that is not FAULTED and has no bit pending begins the message, and every run goes on with it. -/
theorem EncodeRun.of_run {s t : State} {S : List Symbol} {k : Nat} (he : s.encErr = none) (hc : s.encCnt = 0)
    (hin : s.esIn = (encodeOps S).map (encode s.params)) (hfits : ∀ a ∈ S, a < 2 ^ s.params.symW) (hs : EncoderUndisturbed s)
    (hrun : run k s = .next t) : EncodeRun s (encodeEvents s.ct S) t := by
  have hstart : EncodePhase (encodeEvents s.ct S) [] s :=
    .running S hin hfits he List.not_mem_nil (by simp [State.pending_of_idle_serializer hc])
  exact run_induct (fun _ _ h hx => h.step hx) ⟨hs, rfl, [], by simp, hstart⟩ hrun

/-- Events added to the log of EB are added to its history. -/
theorem State.ebHist_of_log_append {s t : State} {y : List EbEvent} (h : t.ebLog = s.ebLog ++ y.map .event) :
    t.ebHist = s.ebHist ++ y := by
  rw [State.ebHist, h, history_append_events, State.ebHist]

/-- Bits are no End, so they are added to the unfinished message. -/
theorem frame_append_bits (log : List (LogEntry EbEvent)) (x : BitString) :
    frame EbEvent.item (log ++ (x.map EbEvent.bit).map .event) =
      ⟨(frame EbEvent.item log).results, (frame EbEvent.item log).unfinished ++ x⟩ := by
  rw [List.map_map]
  exact frame_append_items (event := EbEvent.bit) (fun _ => rfl) log x

/-- Bits and End make the unfinished message, with them, a result. -/
theorem frame_append_bits_done (log : List (LogEntry EbEvent)) (x : BitString) :
    frame EbEvent.item (log ++ (x.map EbEvent.bit ++ [EbEvent.done]).map .event) =
      ⟨(frame EbEvent.item log).results ++ [(frame EbEvent.item log).unfinished ++ x], []⟩ := by
  rw [List.map_append, ← List.append_assoc, List.map_singleton, frame_append_singleton, frame_append_bits]
  rfl

/-- A run with a message that ends in End: no fault is taken, and once ES is empty the message is a result. -/
theorem EncodeRun.of_complete {s t : State} {x : BitString} (he : s.encErr = none) (h : EncodeRun s (x.map .bit ++ [EbEvent.done]) t) :
    ∃ y : List EbEvent, t.ebLog = s.ebLog ++ y.map .event ∧ t.ebHist = s.ebHist ++ y ∧ y <+: x.map .bit ++ [EbEvent.done] ∧
      t.encErr = none ∧ t.ct = s.ct ∧
      (t.esIn = [] → y = x.map .bit ++ [EbEvent.done] ∧ t.encActive = false ∧ t.encCnt = 0 ∧
        t.ebMessages = ⟨s.ebMessages.results ++ [s.ebMessages.unfinished ++ x], []⟩) := by
  obtain ⟨-, hct, y, hlog, hphase⟩ := h
  refine ⟨y, hlog, State.ebHist_of_log_append hlog, hphase.sent_isPrefix, ?_⟩
  cases hphase with
  | running rest hes hfits herr hopen htotal => exact ⟨herr, hct, fun hempty => by simp [encodeOps, hes] at hempty⟩
  | ended hes hcnt herr hactive hdone htotal =>
    refine ⟨herr, hct, fun _ => ⟨htotal.symm, hactive, hcnt, ?_⟩⟩
    rw [State.ebMessages_of_no_fault herr, State.ebMessages_of_no_fault he, hlog, ← htotal, frame_append_bits_done]
  | cut hcnt herr hopen htotal => exact absurd (by simp [← htotal]) hopen

/-- A run with a message cut at an unknown symbol: EB emits its bits and no End, and once ES is empty the fault has abandoned it. -/
theorem EncodeRun.of_cut {s t : State} {x : BitString} (he : s.encErr = none) (h : EncodeRun s (x.map .bit) t) :
    ∃ y : List EbEvent, t.ebLog = s.ebLog ++ y.map .event ∧ t.ebHist = s.ebHist ++ y ∧ y <+: x.map .bit ∧ t.ct = s.ct ∧
      (t.esIn = [] → y = x.map .bit ∧ t.encErr = some .unknownSymbol ∧ t.encCnt = 0 ∧
        t.ebMessages = ⟨s.ebMessages.results, []⟩) := by
  obtain ⟨-, hct, y, hlog, hphase⟩ := h
  refine ⟨y, hlog, State.ebHist_of_log_append hlog, hphase.sent_isPrefix, hct, fun hempty => ?_⟩
  cases hphase with
  | running rest hes hfits herr hopen htotal => simp [encodeOps, hes] at hempty
  | ended hes hcnt herr hactive hdone htotal => simp [← htotal] at hdone
  | cut hcnt herr hopen htotal =>
    refine ⟨htotal.symm, herr, hcnt, ?_⟩
    rw [State.ebMessages_of_fault (by simp [herr]), State.ebMessages_of_no_fault he, hlog, ← htotal, frame_append_bits]
    rfl

/-- Settles O47: the run goes on with the message `encodeEvents`, which is complete or cut as `encode` says. -/
theorem encodedMessageIsExact : Obligations.EncodedMessageIsExact := by
  intro s t S k he _ hc hin hfits hcfg hreset hrun
  have hgoes := EncodeRun.of_run he hc hin hfits ⟨hcfg, hreset⟩ hrun
  refine ⟨fun x hx => ?complete, fun S₁ z S₂ x hS hx hz => ?cut⟩
  case complete =>
    rw [encodeEvents_of_ok hx] at hgoes
    exact hgoes.of_complete he
  case cut =>
    rw [hS, encodeEvents_of_cut hx hz] at hgoes
    exact hgoes.of_cut he

end Sys2Proof.Machine
end

section
/-! PROOFS. The ops of the decoder: one equation for each case of the rules, in their order (43_decoder.md R116 to R119). -/

namespace Sys2Proof.Machine

theorem State.rootNull_iff {s : State} : s.rootNull = true ↔ s.rootV = false ∨ s.tm.read s.rootIdx = none := by
  simp [State.rootNull]

/-- The root is null or a whole entry (R116). -/
theorem State.rootNull_of_entry {s : State} {e : TmEntry} (hv : s.rootV = true) (hr : s.tm.read s.rootIdx = some e) :
    s.rootNull = false := rootNull_false_iff.mpr ⟨hv, e, hr⟩

/-! DECBIT (R117): the cases of the root, then those of one step down from an Internal root. -/

theorem execDecbit_of_faulted {s : State} (b : Bool) (he : s.decErr ≠ none) : execDecbit b s = .next s := by
  rw [execDecbit, if_pos (Option.isSome_iff_ne_none.mpr he)]

theorem execDecbit_of_null_root {s : State} (b : Bool) (he : s.decErr = none) (hn : s.rootNull = true) :
    execDecbit b s = .next (takeFault .dec .argument s) := by
  simp [execDecbit, he, hn]

theorem execDecbit_of_leaf_root {s : State} {sym : Symbol} (b : Bool) (he : s.decErr = none) (hv : s.rootV = true)
    (hr : s.tm.read s.rootIdx = some (.leaf sym)) : execDecbit b s = .next { emitDs (.sym sym) s with decActive := true } := by
  simp [execDecbit, he, State.rootNull_of_entry hv hr, hr]

theorem execDecbit_of_internal_root {s : State} {l r : NodeIdx} (b : Bool) (he : s.decErr = none) (hv : s.rootV = true)
    (hr : s.tm.read s.rootIdx = some (.internal l r)) : execDecbit b s = .next (walkEdge b s) := by
  simp [execDecbit, he, State.rootNull_of_entry hv hr, hr]

theorem walkEdge_of_no_internal {s : State} (b : Bool) (hp : s.tm.read s.decPtr = none ∨ ∃ sym, s.tm.read s.decPtr = some (.leaf sym)) :
    walkEdge b s = takeFault .dec .argument s := by
  obtain hp | ⟨sym, hp⟩ := hp <;> simp [walkEdge, hp]

theorem walkEdge_of_no_child {s : State} {b : Bool} {left right : NodeIdx} (hp : s.tm.read s.decPtr = some (.internal left right))
    (hc : s.tm.read (childIdx b left right) = none) : walkEdge b s = takeFault .dec .argument s := by
  simp [walkEdge, hp, hc]

theorem walkEdge_to_leaf {s : State} {b : Bool} {left right : NodeIdx} {sym : Symbol}
    (hp : s.tm.read s.decPtr = some (.internal left right)) (hc : s.tm.read (childIdx b left right) = some (.leaf sym)) :
    walkEdge b s = { emitDs (.sym sym) s with decPtr := s.rootIdx, decActive := true } := by
  simp [walkEdge, hp, hc]

theorem walkEdge_to_internal {s : State} {b : Bool} {left right l r : NodeIdx}
    (hp : s.tm.read s.decPtr = some (.internal left right)) (hc : s.tm.read (childIdx b left right) = some (.internal l r)) :
    walkEdge b s = { s with decPtr := childIdx b left right, decActive := true } := by
  simp [walkEdge, hp, hc]

/-! DECEND (R118). -/

theorem execDecend_of_faulted {s : State} (he : s.decErr ≠ none) : execDecend s = .next s := by
  rw [execDecend, if_pos (Option.isSome_iff_ne_none.mpr he)]

theorem execDecend_of_null_root {s : State} (he : s.decErr = none) (hn : s.rootNull = true) :
    execDecend s = .next (takeFault .dec .argument s) := by
  simp [execDecend, he, hn]

theorem execDecend_of_off_root {s : State} (he : s.decErr = none) (hn : s.rootNull = false) (hp : s.decPtr ≠ s.rootIdx) :
    execDecend s = .next (takeFault .dec .malformed s) := by
  simp [execDecend, he, hn, hp]

theorem execDecend_of_at_root {s : State} (he : s.decErr = none) (hn : s.rootNull = false) (hp : s.decPtr = s.rootIdx) :
    execDecend s = .next { emitDs .done s with decActive := false } := by
  simp [execDecend, he, hn, hp]

/-- Settles O19: the cases of the root, and from an Internal root the cases of `walkEdge`. -/
theorem decbitWalksTree : Obligations.DecbitWalksTree := by
  intro b s
  refine ⟨rfl, execDecbit_of_faulted b, fun he hn => execDecbit_of_null_root b he (State.rootNull_iff.mpr hn),
    fun _ he hv hr => execDecbit_of_leaf_root b he hv hr, fun l r he hv hr => ?internalRoot⟩
  have hwalk : exec (.decbit b) s = .next (walkEdge b s) := execDecbit_of_internal_root b he hv hr
  rw [hwalk]
  exact ⟨fun hp => congrArg _ (walkEdge_of_no_internal b hp), fun left right hp =>
    ⟨fun hc => congrArg _ (walkEdge_of_no_child hp hc), fun _ hc => congrArg _ (walkEdge_to_leaf hp hc),
      fun _ _ hc => congrArg _ (walkEdge_to_internal hp hc)⟩⟩

/-- Settles O20: the cases of DECEND, none of which looks whether a message is open. -/
theorem decendClosesMessage : Obligations.DecendClosesMessage := fun _ =>
  ⟨rfl, execDecend_of_faulted,
    fun he hn => execDecend_of_null_root he (State.rootNull_iff.mpr hn),
    fun _ he hv hr hp => execDecend_of_off_root he (State.rootNull_of_entry hv hr) hp,
    fun _ he hv hr hp => execDecend_of_at_root he (State.rootNull_of_entry hv hr) hp⟩

end Sys2Proof.Machine
end

section
/-! PROOFS. A decoder that is left alone: what one step can do to it when no reset is scheduled and no CFG op for it waits (00_scope.md
R6, 20_memory.md R37 to R41), and that a unit with nothing to do stands still (60_exceptions.md R143). -/

namespace Sys2Proof.Machine

@[simp] theorem shift_tm (s : State) : (shift s).tm = s.tm := by unfold shift; split <;> rfl
@[simp] theorem shift_rootV (s : State) : (shift s).rootV = s.rootV := by unfold shift; split <;> rfl
@[simp] theorem shift_rootIdx (s : State) : (shift s).rootIdx = s.rootIdx := by unfold shift; split <;> rfl
@[simp] theorem shift_decPtr (s : State) : (shift s).decPtr = s.decPtr := by unfold shift; split <;> rfl
@[simp] theorem shift_decActive (s : State) : (shift s).decActive = s.decActive := by unfold shift; split <;> rfl
@[simp] theorem shift_decErr (s : State) : (shift s).decErr = s.decErr := by unfold shift; split <;> rfl
@[simp] theorem shift_dsLog (s : State) : (shift s).dsLog = s.dsLog := by unfold shift; split <;> rfl

theorem SameDecoder.refl (s : State) : SameDecoder s s := ⟨rfl, rfl, rfl, rfl, rfl, rfl⟩

theorem SameDecoder.trans {s t u : State} (h : SameDecoder s t) (h' : SameDecoder t u) : SameDecoder s u := by
  obtain ⟨htm, hv, hidx, hptr, hactive, herr⟩ := h
  obtain ⟨htm', hv', hidx', hptr', hactive', herr'⟩ := h'
  exact ⟨htm'.trans htm, hv'.trans hv, hidx'.trans hidx, hptr'.trans hptr, hactive'.trans hactive, herr'.trans herr⟩

theorem SameEncoder.refl (s : State) : SameEncoder s s := ⟨rfl, rfl, rfl, rfl, rfl⟩

theorem SameEncoder.trans {s t u : State} (h : SameEncoder s t) (h' : SameEncoder t u) : SameEncoder s u := by
  obtain ⟨hct, hsr, hcnt, hactive, herr⟩ := h
  obtain ⟨hct', hsr', hcnt', hactive', herr'⟩ := h'
  exact ⟨hct'.trans hct, hsr'.trans hsr, hcnt'.trans hcnt, hactive'.trans hactive, herr'.trans herr⟩

/-- An op of the encoder leaves the decoder and its port DS alone. -/
theorem exec_enc_keeps_decoder {i : Instr} {s t : State} (hi : i.unit = .enc) (h : exec i s = .next t) :
    SameDecoder s t ∧ t.dsLog = s.dsLog := by
  cases exec_effect h <;> simp_all [SameDecoder, Instr.unit]

/-- The tree and its root stand as in `s` (20_memory.md R31). -/
def SameTree (s t : State) : Prop := t.tm = s.tm ∧ t.rootV = s.rootV ∧ t.rootIdx = s.rootIdx

theorem SameTree.trans {s t u : State} (h : SameTree s t) (h' : SameTree t u) : SameTree s u := by
  obtain ⟨htm, hv, hidx⟩ := h
  obtain ⟨htm', hv', hidx'⟩ := h'
  exact ⟨htm'.trans htm, hv'.trans hv, hidx'.trans hidx⟩

theorem SameDecoder.sameTree {s t : State} (h : SameDecoder s t) : SameTree s t :=
  have ⟨htm, hv, hidx, _⟩ := h
  ⟨htm, hv, hidx⟩

/-- The tree the root register names is read from the tree memory alone. -/
theorem SameTree.wfTmAs {s t : State} {T : TreeNode} (h : SameTree s t) (hwf : WfTmAs s T) : WfTmAs t T := by
  obtain ⟨htm, hv, hidx⟩ := h
  rwa [WfTmAs, htm, hv, hidx]

/-- The ops of DB read the tree and write none of it. -/
theorem exec_db_keeps_tree {i : Instr} {s t : State} (hi : i.port = .db) (h : exec i s = .next t) : SameTree s t := by
  cases exec_effect h <;> simp_all [SameTree, Instr.port]

/-- Nothing that is to come touches the decoder but the ops at DB: no reset is scheduled and every CFG op that waits is for the
encoder. -/
structure DecoderUndisturbed (s : State) : Prop where
  cfg_for_encoder : ∀ w ∈ s.cfgIn, w.testBit 2 = false
  no_reset : .rst ∉ s.sched

theorem DecoderUndisturbed.step {s t : State} (hs : DecoderUndisturbed s) (h : Machine.step s = .next t) : DecoderUndisturbed t where
  cfg_for_encoder w hw := hs.cfg_for_encoder w ((step_input_suffix h .cfg).mem hw)
  no_reset := step_sched h ▸ mt List.mem_of_mem_tail hs.no_reset

/-- The ops that wait for an undisturbed decoder wait at DB. -/
theorem DecoderUndisturbed.unit_enc {s : State} (hs : DecoderUndisturbed s) {port : Port} {w : OpWord} {ws : List OpWord} {i : Instr}
    (hport : port ≠ .db) (hin : s.input port = w :: ws) (hi : decode s.params port w = .ok i) : i.unit = .enc := by
  obtain ⟨-, rfl⟩ := decode_ok_iff.mp hi
  cases port
  case cfg =>
    have hw : w.testBit 2 = false := hs.cfg_for_encoder w (List.mem_of_mem_head? (congrArg List.head? hin))
    simp [decodeWord, decodeCfg_unit, hw]
  case es => exact decodeEs_unit s.params w
  case db => contradiction

/-- One step of an undisturbed decoder: it stands still, or it performs the op at the head of DB. -/
theorem DecoderUndisturbed.step_cases {s t : State} (hs : DecoderUndisturbed s) (h : Machine.step s = .next t) :
    (SameDecoder s t ∧ t.dsLog = s.dsLog ∧ t.dbIn = s.dbIn) ∨
    (∃ w ws i, s.dbIn = w :: ws ∧ decode s.params .db w = .ok i ∧
      exec i ((s.withSched s.sched.tail).withInput .db ws) = .next t) := by
  obtain rfl | ⟨port, w, ws, i, hin, hi, -, hx⟩ | ⟨-, rfl⟩ | ⟨hreset, -⟩ := Machine.step_cases h
  case inl => exact .inl ⟨.refl s, rfl, rfl⟩
  case inr.inl =>
    by_cases hport : port = .db
    · subst hport
      exact .inr ⟨w, ws, i, hin, hi, hx⟩
    · have hkept := exec_enc_keeps_decoder (hs.unit_enc hport hin hi) hx
      have hin' : t.dbIn = s.dbIn := by
        rw [show t.dbIn = _ from exec_input hx .db, input_withInput_other (Ne.symm hport)]
        rfl
      exact .inl (by simpa [SameDecoder, hin'] using hkept)
  case inr.inr.inl => exact .inl (by simp [SameDecoder])
  case inr.inr.inr => exact absurd (List.mem_of_mem_head? hreset) hs.no_reset

/-- An undisturbed decoder with nothing at DB has not moved since `s`. -/
structure DecoderResting (s t : State) : Prop where
  undisturbed : DecoderUndisturbed t
  nothing_waits : t.dbIn = []
  same : SameDecoder s t
  log_same : t.dsLog = s.dsLog

theorem DecoderResting.step {s u t : State} (h : DecoderResting s u) (hx : Machine.step u = .next t) : DecoderResting s t := by
  obtain ⟨hdec, hlog, hin⟩ | ⟨w, ws, i, hin, -, -⟩ := h.undisturbed.step_cases hx
  · exact ⟨h.undisturbed.step hx, hin.trans h.nothing_waits, h.same.trans hdec, hlog.trans h.log_same⟩
  · exact absurd (hin.symm.trans h.nothing_waits) (List.cons_ne_nil w ws)

theorem DecoderResting.of_run {s t : State} {k : Nat} (hs : DecoderUndisturbed s) (hin : s.dbIn = []) (hrun : run k s = .next t) :
    DecoderResting s t :=
  run_induct (fun _ _ h hx => h.step hx) ⟨hs, hin, .refl s, rfl⟩ hrun

/-- An undisturbed encoder with nothing at ES and no bit pending has not moved since `s`. -/
structure EncoderResting (s t : State) : Prop where
  undisturbed : EncoderUndisturbed t
  nothing_waits : t.esIn = []
  nothing_pending : t.encCnt = 0
  same : SameEncoder s t

theorem EncoderResting.step {s u t : State} (h : EncoderResting s u) (hx : Machine.step u = .next t) : EncoderResting s t := by
  obtain ⟨henc, -, hin⟩ | ⟨-, w, ws, i, hin, -, -⟩ | ⟨hc, -⟩ := h.undisturbed.step_cases hx
  · have ⟨_, _, hcnt, _⟩ := henc
    exact ⟨h.undisturbed.step hx, hin.trans h.nothing_waits, hcnt.trans h.nothing_pending, h.same.trans henc⟩
  · exact absurd (hin.symm.trans h.nothing_waits) (List.cons_ne_nil w ws)
  · exact absurd h.nothing_pending hc

theorem EncoderResting.of_run {s t : State} {k : Nat} (hs : EncoderUndisturbed s) (hin : s.esIn = []) (hc : s.encCnt = 0)
    (hrun : run k s = .next t) : EncoderResting s t :=
  run_induct (fun _ _ h hx => h.step hx) ⟨hs, hin, hc, .refl s⟩ hrun

/-- What waits at a port after a run has waited there before. -/
theorem run_input_suffix {s t : State} {k : Nat} (h : run k s = .next t) (port : Port) : t.input port <:+ s.input port :=
  run_induct (P := fun u => u.input port <:+ s.input port) (fun _ _ hu hx => (step_input_suffix hx port).trans hu) List.suffix_rfl h

end Sys2Proof.Machine
end

section
/-! PROOFS. What `decode(B, T)` says DS is to emit for `DECODE B` (40_table_construction.md R75, 43_decoder.md R119, R120), read off the
pointer bit by bit; and that the Codes of a message decode to the message (R79). -/

namespace Sys2Proof.Machine

theorem TreeNode.self_mem_nodes (t : TreeNode) : t ∈ t.nodes := by
  cases t <;> simp [TreeNode.nodes]

/-- The nodes of a node of a tree are nodes of the tree. -/
theorem TreeNode.mem_nodes_trans {t n m : TreeNode} (hn : n ∈ t.nodes) (hm : m ∈ n.nodes) : m ∈ t.nodes := by
  induction t with
  | leaf a w q =>
    obtain rfl : n = .leaf a w q := by simpa [TreeNode.nodes] using hn
    exact hm
  | internal w q l r ihl ihr =>
    obtain h | h | rfl : n ∈ l.nodes ∨ n ∈ r.nodes ∨ n = .internal w q l r := by simpa [TreeNode.nodes, or_assoc] using hn
    · simp [TreeNode.nodes, ihl h]
    · simp [TreeNode.nodes, ihr h]
    · exact hm

/-- The child of an Internal node that a bit selects (43_decoder.md R117). -/
def TreeNode.child (b : Bool) (l r : TreeNode) : TreeNode := if b then r else l

theorem TreeNode.seq_child (b : Bool) (l r : TreeNode) : childIdx b l.seq r.seq = (TreeNode.child b l r).seq := by
  cases b <;> rfl

theorem TreeNode.child_mem_nodes {t l r : TreeNode} {w q : Nat} (h : .internal w q l r ∈ t.nodes) (b : Bool) :
    TreeNode.child b l r ∈ t.nodes := by
  refine TreeNode.mem_nodes_trans h ?_
  cases b <;> simp [TreeNode.child, TreeNode.nodes, TreeNode.self_mem_nodes]

/-- Distinct nodes of a tree with distinct indices stand at distinct indices. -/
theorem TreeNode.eq_of_seq_eq {t n m : TreeNode} (h : t.indices.Nodup) (hn : n ∈ t.nodes) (hm : m ∈ t.nodes) (hseq : n.seq = m.seq) :
    n = m := List.inj_on_of_nodup_map h hn hm hseq

theorem walkBit_to_leaf {l r : TreeNode} {b : Bool} {a w' q' : Nat} (h : TreeNode.child b l r = .leaf a w' q') (root : TreeNode)
    (w q : Nat) : walkBit root (.internal w q l r) b = (some a, root) := by
  rw [TreeNode.child] at h
  simp only [walkBit, h]

theorem walkBit_to_internal {l r l' r' : TreeNode} {b : Bool} {w' q' : Nat} (h : TreeNode.child b l r = .internal w' q' l' r')
    (root : TreeNode) (w q : Nat) : walkBit root (.internal w q l r) b = (none, .internal w' q' l' r') := by
  rw [TreeNode.child] at h
  simp only [walkBit, h]

/-- One bit of the message, the pointer being at `p`: the symbol emitted, if any, and the next pointer. A lone Leaf emits its symbol on
every bit (R119). -/
def decodeBit (root p : TreeNode) (b : Bool) : Option Symbol × TreeNode :=
  match root with
  | .leaf a _ _ => (some a, root)
  | .internal _ _ _ _ => walkBit root p b

/-- What DS is to emit for the bits `B` and the DECEND behind them from the pointer `p`: the symbols of the Codes completed, and End if
the pointer then is at the root. -/
def decodeEvents (root : TreeNode) : TreeNode → BitString → List DsEvent
  | p, [] => if p = root then [.done] else []
  | p, b :: B => (decodeBit root p b).1.toList.map .sym ++ decodeEvents root (decodeBit root p b).2 B

theorem decodeEvents_cons (root p : TreeNode) (b : Bool) (B : BitString) :
    decodeEvents root p (b :: B) = (decodeBit root p b).1.toList.map .sym ++ decodeEvents root (decodeBit root p b).2 B := rfl

/-- From a lone Leaf every bit is one of its symbols. -/
theorem decodeEvents_leaf (a w q : Nat) (B : BitString) :
    decodeEvents (.leaf a w q) (.leaf a w q) B = (List.replicate B.length a).map .sym ++ [DsEvent.done] := by
  induction B with
  | nil => exact if_pos rfl
  | cons b B ih => simp [decodeEvents_cons, decodeBit, ih, List.replicate_succ]

/-- From an Internal root the bits go the way of the reference decoder. -/
theorem decodeEvents_internal (w q : Nat) (l r p : TreeNode) (B : BitString) :
    decodeEvents (.internal w q l r) p B =
      (walkBits (.internal w q l r) p B).1.map .sym ++
        if (walkBits (.internal w q l r) p B).2 = .internal w q l r then [DsEvent.done] else [] := by
  induction B generalizing p with
  | nil => rfl
  | cons b B ih =>
    rw [decodeEvents_cons, walkBits_cons, ih, List.map_append, List.append_assoc]
    rfl

/-- The message when decode(B, T) succeeds. -/
theorem decodeEvents_of_ok {T : TreeNode} {B : BitString} {out : List Symbol} (h : refDecode B (some T) = .ok out) :
    decodeEvents T T B = out.map .sym ++ [DsEvent.done] := by
  cases T with
  | leaf a w q =>
    obtain rfl : List.replicate B.length a = out := Except.ok.inj h
    exact decodeEvents_leaf a w q B
  | internal w q l r =>
    simp only [refDecode] at h
    split at h
    case isTrue hend =>
      obtain rfl := Except.ok.inj h
      rw [decodeEvents_internal, if_pos hend]
    case isFalse => contradiction

/-- The message when decode(B, T) fails with MalformedEncodingError. -/
theorem decodeEvents_of_malformed {T : TreeNode} {B : BitString} (h : refDecode B (some T) = .error .malformed) :
    decodeEvents T T B = (walkBits T T B).1.map .sym := by
  cases T with
  | leaf a w q => contradiction
  | internal w q l r =>
    simp only [refDecode] at h
    split at h
    case isTrue => contradiction
    case isFalse hend => rw [decodeEvents_internal, if_neg hend, List.append_nil]

/-- What a path of an Internal node goes through: the child its first bit selects, and then a path of that child. -/
theorem TreeNode.mem_paths_internal {w q : Nat} {l r : TreeNode} {a : Symbol} {path : BitString}
    (h : (a, path) ∈ (TreeNode.internal w q l r).paths) :
    ∃ b rest, path = b :: rest ∧ (a, rest) ∈ (TreeNode.child b l r).paths := by
  simp only [TreeNode.paths, List.mem_append, List.mem_map, Prod.mk.injEq] at h
  obtain ⟨e, he, rfl, rfl⟩ | ⟨e, he, rfl, rfl⟩ := h
  · exact ⟨false, e.2, rfl, he⟩
  · exact ⟨true, e.2, rfl, he⟩

/-- The path of a leaf below `n` takes the pointer from `n` to that leaf, whose symbol is emitted, and back to the root. -/
theorem walkBits_path_append (root : TreeNode) {n : TreeNode} {a : Symbol} {path : BitString} (hn : ∀ s w q, n ≠ .leaf s w q)
    (h : (a, path) ∈ n.paths) (B : BitString) :
    walkBits root n (path ++ B) = (a :: (walkBits root root B).1, (walkBits root root B).2) := by
  induction n generalizing path with
  | leaf s w q => exact absurd rfl (hn s w q)
  | internal w q l r ihl ihr =>
    obtain ⟨b, rest, rfl, hrest⟩ := TreeNode.mem_paths_internal h
    have ih : (∀ s w q, TreeNode.child b l r ≠ .leaf s w q) →
        walkBits root (TreeNode.child b l r) (rest ++ B) = (a :: (walkBits root root B).1, (walkBits root root B).2) := by
      cases b
      · exact fun hc => ihl hc hrest
      · exact fun hc => ihr hc hrest
    rw [List.cons_append, walkBits_cons]
    cases hc : TreeNode.child b l r with
    | leaf s w' q' =>
      obtain ⟨rfl, rfl⟩ : a = s ∧ rest = [] := by simpa [hc, TreeNode.paths] using hrest
      rw [walkBit_to_leaf hc]
      rfl
    | internal w' q' l' r' =>
      rw [walkBit_to_internal hc, ← hc, ih (by simp [hc])]
      rfl

/-- The Code of a leaf's path, in front of a bit-string that decodes, decodes to the leaf's symbol in front. -/
theorem refDecode_codeOfPath_append {T : TreeNode} {a : Symbol} {path B : BitString} {out : List Symbol} (h : (a, path) ∈ T.paths)
    (hout : refDecode B (some T) = .ok out) : refDecode (codeOfPath path ++ B) (some T) = .ok (a :: out) := by
  cases T with
  | leaf s w q =>
    obtain ⟨rfl, rfl⟩ : a = s ∧ path = [] := by simpa [TreeNode.paths] using h
    obtain rfl : List.replicate B.length a = out := Except.ok.inj hout
    rfl
  | internal w q l r =>
    have hcode : codeOfPath path = path := by
      obtain ⟨b, rest, rfl, -⟩ := TreeNode.mem_paths_internal h
      exact if_neg (List.cons_ne_nil b rest)
    simp only [refDecode, hcode, walkBits_path_append _ (by simp) h] at hout ⊢
    split at hout
    case isTrue hend =>
      obtain rfl := Except.ok.inj hout
      exact if_pos hend
    case isFalse => contradiction

theorem refDecode_nil (T : TreeNode) : refDecode [] (some T) = .ok [] := by
  cases T with
  | leaf a w q => rfl
  | internal w q l r => exact if_pos rfl

/-- When every symbol has its leaf's Code the reference encoder and decoder are inverse. -/
theorem refDecode_refEncode {T : TreeNode} {M : Memory BitString} {S : List Symbol}
    (h : ∀ a ∈ S, ∃ path, (a, path) ∈ T.paths ∧ M.read a = some (codeOfPath path)) :
    ∃ x, refEncode M S = .ok x ∧ refDecode x (some T) = .ok S := by
  induction S with
  | nil => exact ⟨[], rfl, refDecode_nil T⟩
  | cons a S ih =>
    obtain ⟨⟨path, hpath, hcode⟩, hS⟩ := List.forall_mem_cons.mp h
    obtain ⟨x, hx, hback⟩ := ih hS
    exact ⟨codeOfPath path ++ x, refEncode_cons_ok_iff.mpr ⟨_, x, hcode, hx, rfl⟩, refDecode_codeOfPath_append hpath hback⟩

end Sys2Proof.Machine
end

section
/-! PROOFS. The message of `DECODE B` (43_decoder.md R120): how the pointer follows the tree, how far an undisturbed decoder has come with
the message, and that every step goes on with it. -/

namespace Sys2Proof.Machine

/-- Where the pointer may rest in the tree `T` during a message: at the root, or at an Internal node (10_state.md R22 (f)). -/
inductive PointerRest (T : TreeNode) : TreeNode → Prop
  | root : PointerRest T T
  | inner {w q : Nat} {l r : TreeNode} (hmem : .internal w q l r ∈ T.nodes) : PointerRest T (.internal w q l r)

theorem PointerRest.mem_nodes {T p : TreeNode} (h : PointerRest T p) : p ∈ T.nodes := by
  cases h with
  | root => exact T.self_mem_nodes
  | inner hmem => exact hmem

/-- In a lone Leaf the pointer does not move (43_decoder.md R119). -/
theorem PointerRest.eq_leaf {a w q : Nat} {p : TreeNode} (h : PointerRest (.leaf a w q) p) : p = .leaf a w q := by
  simpa [TreeNode.nodes] using h.mem_nodes

theorem PointerRest.exists_internal {w q : Nat} {l r p : TreeNode} (h : PointerRest (.internal w q l r) p) :
    ∃ w' q' l' r', p = .internal w' q' l' r' := by
  cases h with
  | root => exact ⟨w, q, l, r, rfl⟩
  | inner hmem => exact ⟨_, _, _, _, rfl⟩

/-- A bit takes the pointer from a place where it may rest to another. -/
theorem PointerRest.decodeBit {T p : TreeNode} (h : PointerRest T p) (b : Bool) : PointerRest T (Machine.decodeBit T p b).2 := by
  cases T with
  | leaf a w q => exact .root
  | internal w q l r =>
    obtain ⟨w', q', l', r', rfl⟩ := h.exists_internal
    have hmem := TreeNode.child_mem_nodes h.mem_nodes b
    rw [Machine.decodeBit]
    cases hchild : TreeNode.child b l' r' with
    | leaf => exact walkBit_to_leaf hchild .. ▸ .root
    | internal => exact walkBit_to_internal hchild .. ▸ .inner (hchild ▸ hmem)

/-- The pointer register is at the root exactly when the pointer is. -/
theorem WfTmAs.decPtr_eq_rootIdx_iff {s : State} {T p : TreeNode} (hwf : WfTmAs s T) (hrest : PointerRest T p) (hptr : s.decPtr = p.seq) :
    s.decPtr = s.rootIdx ↔ p = T := by
  obtain ⟨-, hidx, -, hindices, -⟩ := hwf
  rw [hptr, hidx]
  exact ⟨TreeNode.eq_of_seq_eq hindices hrest.mem_nodes T.self_mem_nodes, congrArg TreeNode.seq⟩

theorem WfTmAs.read_root {s : State} {T : TreeNode} (hwf : WfTmAs s T) : s.tm.read s.rootIdx = some T.entry := by
  obtain ⟨-, hidx, hheld, -, -⟩ := hwf
  rw [hidx, hheld T T.self_mem_nodes]

theorem WfTmAs.rootNull_eq_false {s : State} {T : TreeNode} (hwf : WfTmAs s T) : s.rootNull = false :=
  have ⟨hv, _⟩ := hwf
  State.rootNull_of_entry hv hwf.read_root

/-- DECBIT in a well-formed tree does what `decodeBit` says and does not fault. -/
theorem execDecbit_follows_tree {s : State} {T p : TreeNode} (b : Bool) (hwf : WfTmAs s T) (he : s.decErr = none)
    (hrest : PointerRest T p) (hptr : s.decPtr = p.seq) :
    execDecbit b s = .next { s with
      dsLog := s.dsLog ++ ((decodeBit T p b).1.toList.map DsEvent.sym).map .event
      decPtr := (decodeBit T p b).2.seq
      decActive := true } := by
  have hroot := hwf.read_root
  obtain ⟨hv, hidx, hheld, -, -⟩ := hwf
  cases T with
  | leaf a w q =>
    obtain rfl := hrest.eq_leaf
    rw [execDecbit_of_leaf_root b he hv hroot]
    simp [decodeBit, emitDs, ← hptr]
  | internal w q l r =>
    obtain ⟨w', q', l', r', rfl⟩ := hrest.exists_internal
    have hmem := hrest.mem_nodes
    have hp : s.tm.read s.decPtr = some (.internal l'.seq r'.seq) := hptr ▸ hheld _ hmem
    have hc : s.tm.read (childIdx b l'.seq r'.seq) = some (TreeNode.child b l' r').entry := by
      rw [TreeNode.seq_child]
      exact hheld _ (TreeNode.child_mem_nodes hmem b)
    rw [execDecbit_of_internal_root b he hv hroot, decodeBit]
    cases hchild : TreeNode.child b l' r' with
    | leaf a w'' q'' =>
      rw [hchild] at hc
      rw [walkEdge_to_leaf hp hc, walkBit_to_leaf hchild]
      simp [emitDs, hidx]
    | internal w'' q'' l'' r'' =>
      rw [hchild] at hc
      rw [walkEdge_to_internal hp hc, walkBit_to_internal hchild, TreeNode.seq_child, hchild]
      simp

/-- The word of DECBIT is read back, with its bit. -/
theorem decode_encode_decbit (p : Params) (b : Bool) : decode p .db (encode p (.decbit b)) = .ok (.decbit b) := by
  have hfits : encode p (.decbit b) < 2 ^ p.portWidth .db := Laws.EncodeFits.decbit b p rfl
  rw [decode_of_lt hfits]
  cases b <;> simp [decodeWord, decodeDb, encode, Nat.testBit_succ]

/-- The word of DECEND is read back. -/
theorem decode_encode_decend (p : Params) : decode p .db (encode p .decend) = .ok .decend := by
  have hfits : encode p .decend < 2 ^ p.portWidth .db := Laws.EncodeFits.decend p rfl
  rw [decode_of_lt hfits]
  simp [decodeWord, decodeDb, encode]

/-- How far the decoder has come in `t` with the message `total`, of which `sent` is emitted: the pointer rests at a node and the rest of
the bits are still to take, or the DECEND is accepted, at the root or away from it. -/
inductive DecodePhase (T : TreeNode) (total sent : List DsEvent) (t : State) : Prop
  | running (rest : BitString) (p : TreeNode) (hdb : t.dbIn = (decodeOps rest).map (encode t.params)) (herr : t.decErr = none)
      (hrest : PointerRest T p) (hptr : t.decPtr = p.seq) (hopen : .done ∉ sent) (htotal : total = sent ++ decodeEvents T p rest)
  | ended (hdb : t.dbIn = []) (herr : t.decErr = none) (hactive : t.decActive = false) (hptr : t.decPtr = t.rootIdx)
      (hdone : .done ∈ sent) (htotal : total = sent)
  | malformed (hdb : t.dbIn = []) (herr : t.decErr = some .malformed) (hopen : .done ∉ sent) (htotal : total = sent)

theorem DecodePhase.sent_isPrefix {T : TreeNode} {total sent : List DsEvent} {t : State} (h : DecodePhase T total sent t) :
    sent <+: total := by
  cases h with
  | running rest p hdb herr hrest hptr hopen htotal => exact htotal ▸ List.prefix_append ..
  | ended hdb herr hactive hptr hdone htotal => rw [htotal]
  | malformed hdb herr hopen htotal => rw [htotal]

theorem DecodePhase.of_sameDecoder {T : TreeNode} {total sent : List DsEvent} {s t : State} (h : DecodePhase T total sent s)
    (hdec : SameDecoder s t) (hparams : t.params = s.params) (hin : t.dbIn = s.dbIn) : DecodePhase T total sent t := by
  obtain ⟨-, -, hidx, hptr, hactive, herr⟩ := hdec
  cases h with
  | running rest p hdb he hrest hp hopen htotal =>
    exact .running rest p (by rw [hin, hparams, hdb]) (herr.trans he) hrest (hptr.trans hp) hopen htotal
  | ended hdb he ha hp hdone htotal =>
    exact .ended (hin.trans hdb) (herr.trans he) (hactive.trans ha) (by rw [hptr, hidx, hp]) hdone htotal
  | malformed hdb he hopen htotal => exact .malformed (hin.trans hdb) (herr.trans he) hopen htotal

/-- The running decoder accepts a DECBIT: the pointer moves on, and the symbol of a completed Code is emitted. -/
theorem DecodePhase.decbit {T p : TreeNode} {total sent : List DsEvent} {s t : State} {b : Bool} {rest : BitString}
    (hwf : WfTmAs s T) (hdb : s.dbIn = (decodeOps rest).map (encode s.params)) (he : s.decErr = none) (hrest : PointerRest T p)
    (hptr : s.decPtr = p.seq) (hopen : .done ∉ sent) (htotal : total = sent ++ decodeEvents T p (b :: rest))
    (hx : exec (.decbit b) s = .next t) :
    ∃ new, t.dsLog = s.dsLog ++ new.map .event ∧ DecodePhase T total (sent ++ new) t := by
  obtain rfl := Host.Outcome.next.inj ((execDecbit_follows_tree b hwf he hrest hptr).symm.trans hx)
  rw [decodeEvents_cons, ← List.append_assoc] at htotal
  exact ⟨_, rfl, .running rest _ hdb he (hrest.decodeBit b) rfl (by simp [hopen]) htotal⟩

/-- The running decoder accepts the DECEND: at the root it emits End, away from it the message is malformed. -/
theorem DecodePhase.decend {T p : TreeNode} {total sent : List DsEvent} {s t : State} (hwf : WfTmAs s T) (hdb : s.dbIn = [])
    (he : s.decErr = none) (hrest : PointerRest T p) (hptr : s.decPtr = p.seq) (hopen : .done ∉ sent)
    (htotal : total = sent ++ decodeEvents T p []) (hx : exec .decend s = .next t) :
    ∃ new, t.dsLog = s.dsLog ++ new.map .event ∧ DecodePhase T total (sent ++ new) t := by
  have hroot := hwf.decPtr_eq_rootIdx_iff hrest hptr
  by_cases hp : p = T
  · obtain rfl := Host.Outcome.next.inj ((execDecend_of_at_root he hwf.rootNull_eq_false (hroot.mpr hp)).symm.trans hx)
    rw [decodeEvents, if_pos hp] at htotal
    exact ⟨[.done], rfl, .ended hdb he rfl (hroot.mpr hp) (by simp) htotal⟩
  · obtain rfl := Host.Outcome.next.inj ((execDecend_of_off_root he hwf.rootNull_eq_false (mt hroot.mp hp)).symm.trans hx)
    rw [decodeEvents, if_neg hp] at htotal
    exact ⟨[], by simp, .malformed hdb rfl (by simpa using hopen) htotal⟩

/-- The op at the head of DB goes on with the message. -/
theorem DecodePhase.accept {T : TreeNode} {total sent : List DsEvent} {s t : State} {w : OpWord} {ws : List OpWord} {i : Instr}
    (hwf : WfTmAs s T) (h : DecodePhase T total sent s) (hin : s.dbIn = w :: ws) (hi : decode s.params .db w = .ok i)
    (hx : exec i (s.withInput .db ws) = .next t) :
    ∃ new, t.dsLog = s.dsLog ++ new.map .event ∧ DecodePhase T total (sent ++ new) t := by
  cases h with
  | running rest p hdb herr hrest hptr hopen htotal =>
    cases rest with
    | nil =>
      obtain ⟨rfl, rfl⟩ := List.cons.inj (hin.symm.trans hdb)
      obtain rfl := Except.ok.inj ((decode_encode_decend s.params).symm.trans hi)
      exact DecodePhase.decend (s := s.withInput .db []) hwf rfl herr hrest hptr hopen htotal hx
    | cons b rest =>
      obtain ⟨rfl, rfl⟩ := List.cons.inj (hin.symm.trans hdb)
      obtain rfl := Except.ok.inj ((decode_encode_decbit s.params b).symm.trans hi)
      exact DecodePhase.decbit (s := s.withInput .db ((decodeOps rest).map (encode s.params))) hwf rfl herr hrest hptr hopen htotal hx
  | ended hdb herr hactive hptr hdone htotal => exact absurd (hin.symm.trans hdb) (List.cons_ne_nil w ws)
  | malformed hdb herr hopen htotal => exact absurd (hin.symm.trans hdb) (List.cons_ne_nil w ws)

/-- A step of an undisturbed decoder writes none of the tree. -/
theorem DecoderUndisturbed.sameTree {s t : State} (hs : DecoderUndisturbed s) (hx : Machine.step s = .next t) : SameTree s t := by
  obtain ⟨hdec, -⟩ | ⟨w, ws, i, -, hi, hx⟩ := hs.step_cases hx
  · exact hdec.sameTree
  · exact exec_db_keeps_tree (s := (s.withSched s.sched.tail).withInput .db ws) (decode_port hi) hx

/-- Every step of an undisturbed decoder goes on with the message. -/
theorem DecodePhase.step {T : TreeNode} {total sent : List DsEvent} {s t : State} (hs : DecoderUndisturbed s) (hwf : WfTmAs s T)
    (h : DecodePhase T total sent s) (hx : Machine.step s = .next t) :
    ∃ new, t.dsLog = s.dsLog ++ new.map .event ∧ DecodePhase T total (sent ++ new) t := by
  obtain ⟨hdec, hlog, hin⟩ | ⟨w, ws, i, hin, hi, hx⟩ := hs.step_cases hx
  · exact ⟨[], by simpa using hlog, by simpa using h.of_sameDecoder hdec (step_params hx) hin⟩
  · have hbase : DecodePhase T total sent (s.withSched s.sched.tail) := h.of_sameDecoder (.refl s) rfl rfl
    exact hbase.accept (s := s.withSched s.sched.tail) hwf hin hi hx

/-- A run from `s` that began with the message `total` has come to `t`. -/
structure DecodeRun (T : TreeNode) (s : State) (total : List DsEvent) (t : State) : Prop where
  undisturbed : DecoderUndisturbed t
  tree_wf : WfTmAs t T
  tree_kept : SameTree s t
  progress : ∃ sent, t.dsLog = s.dsLog ++ sent.map .event ∧ DecodePhase T total sent t

theorem DecodeRun.step {T : TreeNode} {s u t : State} {total : List DsEvent} (h : DecodeRun T s total u)
    (hx : Machine.step u = .next t) : DecodeRun T s total t := by
  obtain ⟨sent, hlog, hphase⟩ := h.progress
  obtain ⟨new, hnew, hnext⟩ := hphase.step h.undisturbed h.tree_wf hx
  have htree := h.undisturbed.sameTree hx
  exact ⟨h.undisturbed.step hx, htree.wfTmAs h.tree_wf, h.tree_kept.trans htree, sent ++ new,
    by rw [hnew, hlog, List.map_append, List.append_assoc], hnext⟩

/-- With `DECODE B` at DB a decoder that is not FAULTED begins the message at the root, and every run goes on with it. -/
theorem DecodeRun.of_run {T : TreeNode} {s t : State} {B : BitString} {k : Nat} (hwf : WfTmAs s T) (he : s.decErr = none)
    (hptr : s.decPtr = s.rootIdx) (hin : s.dbIn = (decodeOps B).map (encode s.params)) (hs : DecoderUndisturbed s)
    (hrun : run k s = .next t) : DecodeRun T s (decodeEvents T T B) t := by
  have ⟨_, hidx, _⟩ := hwf
  have hstart : DecodePhase T (decodeEvents T T B) [] s :=
    .running B T hin he .root (hptr.trans hidx) List.not_mem_nil rfl
  exact run_induct (fun _ _ h hx => h.step hx) ⟨hs, hwf, ⟨rfl, rfl, rfl⟩, [], by simp, hstart⟩ hrun

/-- Events added to the log of DS are added to its history. -/
theorem State.dsHist_of_log_append {s t : State} {y : List DsEvent} (h : t.dsLog = s.dsLog ++ y.map .event) :
    t.dsHist = s.dsHist ++ y := by
  rw [State.dsHist, h, history_append_events, State.dsHist]

/-- Symbols are no End, so they are added to the unfinished message. -/
theorem frame_append_syms (log : List (LogEntry DsEvent)) (out : List Symbol) :
    frame DsEvent.item (log ++ (out.map DsEvent.sym).map .event) =
      ⟨(frame DsEvent.item log).results, (frame DsEvent.item log).unfinished ++ out⟩ := by
  rw [List.map_map]
  exact frame_append_items (event := DsEvent.sym) (fun _ => rfl) log out

/-- Symbols and End make the unfinished message, with them, a result. -/
theorem frame_append_syms_done (log : List (LogEntry DsEvent)) (out : List Symbol) :
    frame DsEvent.item (log ++ (out.map DsEvent.sym ++ [DsEvent.done]).map .event) =
      ⟨(frame DsEvent.item log).results ++ [(frame DsEvent.item log).unfinished ++ out], []⟩ := by
  rw [List.map_append, ← List.append_assoc, List.map_singleton, frame_append_singleton, frame_append_syms]
  rfl

/-- The phase of a message that ends in End: no fault is taken, and once DB is empty the message is a result. -/
theorem DecodePhase.of_complete {T : TreeNode} {s t : State} {out : List Symbol} {y : List DsEvent} (he : s.decErr = none)
    (hlog : t.dsLog = s.dsLog ++ y.map .event) (h : DecodePhase T (out.map .sym ++ [DsEvent.done]) y t) :
    y <+: out.map .sym ++ [DsEvent.done] ∧ t.decErr = none ∧
      (t.dbIn = [] → y = out.map .sym ++ [DsEvent.done] ∧ t.decActive = false ∧ t.decPtr = t.rootIdx ∧
        t.dsMessages = ⟨s.dsMessages.results ++ [s.dsMessages.unfinished ++ out], []⟩) := by
  refine ⟨h.sent_isPrefix, ?_⟩
  cases h with
  | running rest p hdb herr hrest hptr hopen htotal => exact ⟨herr, fun hempty => by simp [decodeOps, hdb] at hempty⟩
  | ended hdb herr hactive hptr hdone htotal =>
    refine ⟨herr, fun _ => ⟨htotal.symm, hactive, hptr, ?_⟩⟩
    rw [State.dsMessages_of_no_fault herr, State.dsMessages_of_no_fault he, hlog, ← htotal, frame_append_syms_done]
  | malformed hdb herr hopen htotal => exact absurd (by simp [← htotal]) hopen

/-- The phase of a malformed message: DS emits its symbols and no End, no DECBIT faults, and once DB is empty the fault has abandoned
the message. -/
theorem DecodePhase.of_malformed {T : TreeNode} {s t : State} {out : List Symbol} {y : List DsEvent} (he : s.decErr = none)
    (hlog : t.dsLog = s.dsLog ++ y.map .event) (h : DecodePhase T (out.map .sym) y t) :
    y <+: out.map .sym ∧ (t.dbIn ≠ [] → t.decErr = none) ∧
      (t.dbIn = [] → y = out.map .sym ∧ t.decErr = some .malformed ∧ t.dsMessages = ⟨s.dsMessages.results, []⟩) := by
  refine ⟨h.sent_isPrefix, ?_⟩
  cases h with
  | running rest p hdb herr hrest hptr hopen htotal => exact ⟨fun _ => herr, fun hempty => by simp [decodeOps, hdb] at hempty⟩
  | ended hdb herr hactive hptr hdone htotal => simp [← htotal] at hdone
  | malformed hdb herr hopen htotal =>
    refine ⟨fun hwaits => absurd hdb hwaits, fun _ => ⟨htotal.symm, herr, ?_⟩⟩
    rw [State.dsMessages_of_fault (by simp [herr]), State.dsMessages_of_no_fault he, hlog, ← htotal, frame_append_syms]
    rfl

/-- Settles O49: the run goes on with the message `decodeEvents`, which is complete or malformed as `decode` says. -/
theorem decodedMessageIsExact : Obligations.DecodedMessageIsExact := by
  intro s t T B k hwf he _ hptr hin hcfg hreset hrun
  obtain ⟨-, -, ⟨htm, hv, hidx⟩, y, hlog, hphase⟩ := DecodeRun.of_run hwf he hptr hin ⟨hcfg, hreset⟩ hrun
  refine ⟨htm, hv, hidx, y, hlog, State.dsHist_of_log_append hlog, fun out hout => ?complete, fun hout => ?malformed⟩
  case complete => exact (decodeEvents_of_ok hout ▸ hphase).of_complete he hlog
  case malformed => exact (decodeEvents_of_malformed hout ▸ hphase).of_malformed he hlog

end Sys2Proof.Machine
end

section
/-! PROOFS. The round trip through the block (43_decoder.md R121): while one unit works the other stands still, the words of EB are those
of `DECODE` of the encoded bits, and the Codes of CONSISTENT tables decode to the message. -/

namespace Sys2Proof.Machine

/-- The words EB emits for a message are those of `DECODE` of its bits (20_memory.md R41, 30_encoding.md R55). -/
theorem map_word_eq_decodeOps (p : Params) (x : BitString) :
    (x.map EbEvent.bit ++ [EbEvent.done]).map EbEvent.word = (decodeOps x).map (encode p) := by
  simp [decodeOps, EbEvent.word, encode]

/-- With CONSISTENT tables a message of symbols with entries is encoded, and decodes to itself. -/
theorem ConsistentAs.refDecode_refEncode {s : State} {T : TreeNode} {S : List Symbol} (h : ConsistentAs s T)
    (hS : ∀ a ∈ S, (s.ct.read a).isSome = true) :
    ∃ x, refEncode (mappingOf s.ct) S = .ok x ∧ refDecode x (some T) = .ok S := by
  obtain ⟨-, -, hsyms, hcodes⟩ := h
  refine Machine.refDecode_refEncode fun a ha => ?_
  obtain ⟨c, hc⟩ := Option.isSome_iff_exists.mp (hS a ha)
  obtain ⟨⟨_, path⟩, hpath, rfl⟩ := List.mem_map.mp ((hsyms a).mp (hS a ha))
  exact ⟨path, hpath, by rw [read_mappingOf, hc, Option.map_some, hcodes _ hpath c hc]⟩

/-- The second half of the round trip: an EB message looped back into a block with nothing else to do is decoded while the encoder
rests. -/
theorem decode_of_loopBack {u v : State} {T : TreeNode} {S : List Symbol} {x : BitString} {m : Nat} {ts : List Turn}
    (hwf : WfTmAs u T) (he : u.decErr = none) (ha : u.decActive = false) (hptr : u.decPtr = u.rootIdx) (hc : u.encCnt = 0)
    (hcfg : u.cfgIn = []) (hes : u.esIn = []) (hdb : u.dbIn = []) (hreset : .rst ∉ ts) (hback : refDecode x (some T) = .ok S)
    (hrun : run m (loopBack (x.map .bit ++ [EbEvent.done]) (u.withSched ts)) = .next v) (hend : v.dbIn = []) :
    SameEncoder u v ∧ v.decErr = none ∧ v.decActive = false ∧ v.dsHist = u.dsHist ++ (S.map .sym ++ [DsEvent.done]) := by
  have hin : (loopBack (x.map .bit ++ [EbEvent.done]) (u.withSched ts)).dbIn = (decodeOps x).map (encode u.params) := by
    simp [loopBack, hdb, ← map_word_eq_decodeOps]
  have hcfg' : ∀ (b : Bool), ∀ w ∈ u.cfgIn, w.testBit 2 = b := by simp [hcfg]
  obtain ⟨-, -, -, y, -, hhist, hdecoded, -⟩ :=
    decodedMessageIsExact (loopBack _ (u.withSched ts)) v T x m hwf he ha hptr hin (hcfg' false) hreset hrun
  obtain ⟨-, herrV, hfinal⟩ := hdecoded S hback
  obtain ⟨rfl, hactiveV, -⟩ := hfinal hend
  have hrests : EncoderResting (loopBack _ (u.withSched ts)) v := .of_run ⟨hcfg' true, hreset⟩ hes hc hrun
  exact ⟨hrests.same, herrV, hactiveV, hhist⟩

/-- Settles O50: the encoder's run by O47 while the decoder rests, and then the decoder's run by O49 while the encoder rests. -/
theorem roundTripThroughBlock : Obligations.RoundTripThroughBlock := by
  intro s u v S k m ts ⟨T, hcons⟩ hgood hcnt hptr hes hfits hS hcfg hdb hreset hreset' hrun hesU hrun' hdbV
  have ⟨hwf, _⟩ := hcons
  obtain ⟨x, hx, hback⟩ := hcons.refDecode_refEncode hS
  obtain ⟨⟨⟨he, hd⟩, hea⟩, hda⟩ :
      ((s.encErr = none ∧ s.decErr = none) ∧ s.encActive = false) ∧ s.decActive = false := by
    simpa [State.good] using hgood
  have hcfg' : ∀ (b : Bool), ∀ w ∈ s.cfgIn, w.testBit 2 = b := by simp [hcfg]
  obtain ⟨hencoded, -⟩ := encodedMessageIsExact s u S k he hea hcnt hes hfits (hcfg' true) hreset hrun
  obtain ⟨y, -, hhist, -, heU, -, hfinal⟩ := hencoded x hx
  obtain ⟨rfl, heaU, hcntU, -⟩ := hfinal hesU
  obtain ⟨-, hdbU, hdec, hdsLog⟩ : DecoderResting s u := .of_run ⟨hcfg' false, hreset⟩ hdb hrun
  have hcfgU : u.cfgIn = [] := List.suffix_nil.mp (hcfg ▸ run_input_suffix hrun .cfg)
  have hwfU := hdec.sameTree.wfTmAs hwf
  obtain ⟨-, -, hidxU, hptrU, hdaU, hdU⟩ := hdec
  rw [hhist, List.drop_left] at hrun'
  obtain ⟨⟨-, -, -, hactive, herr⟩, hdV, hdaV, hdsV⟩ :=
    decode_of_loopBack hwfU (hdU.trans hd) (hdaU.trans hda) (by rw [hptrU, hidxU, hptr]) hcntU hcfgU hesU hdbU hreset' hback hrun' hdbV
  have heV : v.encErr = none := herr.trans heU
  have heaV : v.encActive = false := hactive.trans heaU
  exact ⟨heU, heV, hdV, by simp [State.good, heV, hdV, heaV, hdaV], by rw [hdsV, State.dsHist_congr hdsLog, List.append_assoc]⟩

end Sys2Proof.Machine
end

section
/-! PROOFS. Taking, keeping and leaving a fault (60_exceptions.md R133 to R135): what an op or a step can do to the ERR register of
either unit. -/

namespace Sys2Proof.Machine

/-- A unit's ERR register. -/
def State.err (s : State) : BlockUnit → Option FaultCode
  | .enc => s.encErr
  | .dec => s.decErr

/-- A unit's CLR op. -/
def clrOp : BlockUnit → Instr
  | .enc => .clrenc
  | .dec => .clrdec

/-- A unit is in its reset state. -/
def UnitReset (s : State) : BlockUnit → Prop
  | .enc => EncoderReset s
  | .dec => DecoderReset s

theorem clrOp_port (u : BlockUnit) : (clrOp u).port = .cfg := by
  cases u <;> rfl

theorem unitReset_clearUnit (u : BlockUnit) (m : Mark) (s : State) : UnitReset (clearUnit u m s) u := by
  cases u <;> simp [UnitReset, EncoderReset, DecoderReset]

theorem unitReset_resetStep (u : BlockUnit) (s : State) : UnitReset (resetStep s) u := by
  cases u <;> simp [UnitReset, EncoderReset, DecoderReset]

@[simp] theorem withSched_err (u : BlockUnit) (ts : List Turn) (s : State) : (s.withSched ts).err u = s.err u := by
  cases u <;> rfl

@[simp] theorem withInput_err (u : BlockUnit) (port : Port) (ws : List OpWord) (s : State) : (s.withInput port ws).err u = s.err u := by
  cases u <;> simp [State.err]

@[simp] theorem takeFault_err (u : BlockUnit) (f : FaultCode) (s : State) : (takeFault u f s).err u = some f := by
  cases u <;> rfl

@[simp] theorem clearUnit_err (u : BlockUnit) (m : Mark) (s : State) : (clearUnit u m s).err u = none := by
  cases u <;> rfl

@[simp] theorem shift_err (u : BlockUnit) (s : State) : (shift s).err u = s.err u := by
  cases u <;> simp [State.err]

@[simp] theorem clearUnit_cfgIn (u : BlockUnit) (m : Mark) (s : State) : (clearUnit u m s).cfgIn = s.cfgIn := by
  cases u <;> rfl

/-- What an op can do to a unit's ERR register: leave it, fault the unit if it is not FAULTED, or clear the unit by its CLR op. -/
theorem exec_err_cases {i : Instr} {s t : State} (u : BlockUnit) (h : exec i s = .next t) :
    t.err u = s.err u ∨
    (∃ f, s.err u = none ∧ t = takeFault u f s) ∨
    (i = clrOp u ∧ t = clearUnit u .clr s) := by
  cases exec_effect h <;> cases u
  case encFault.enc f hi hf he => exact .inr (.inl ⟨f, he, rfl⟩)
  case decFault.dec f hi hf he => exact .inr (.inl ⟨f, he, rfl⟩)
  case clrenc.enc => exact .inr (.inr ⟨rfl, rfl⟩)
  case clrdec.dec => exact .inr (.inr ⟨rfl, rfl⟩)
  all_goals exact .inl rfl

/-- An op that newly faults a unit does what fault entry does and nothing else (R133). -/
theorem exec_eq_takeFault {i : Instr} {s t : State} {f : FaultCode} (u : BlockUnit) (h : exec i s = .next t) (he : s.err u = none)
    (hf : t.err u = some f) : t = takeFault u f s := by
  obtain hkept | ⟨g, -, rfl⟩ | ⟨-, rfl⟩ := exec_err_cases u h
  · simp [hkept, he] at hf
  · rw [takeFault_err] at hf
    rw [Option.some.inj hf]
  · simp at hf

/-- Every op for a FAULTED unit but its CLR op is dropped (R134). -/
theorem exec_of_faulted {i : Instr} {s : State} (hne : i ≠ clrOp i.unit) (he : s.err i.unit ≠ none) : exec i s = .next s := by
  cases i
  case clrenc | clrdec => contradiction
  case ldcode sym len code => exact execLdcode_of_faulted sym len code he
  case reserved010 | reserved011 => exact illegalOp_of_faulted he
  case ldleaf | ldint | setroot => exact loadTree_of_faulted _ he
  case encsym sym => exact execEncsym_of_faulted sym he
  case encend => exact execEncend_of_faulted he
  case decbit b => exact execDecbit_of_faulted b he
  case decend => exact execDecend_of_faulted he

/-- One step from a FAULTED unit: the code stays, or a reset or the unit's CLR op clears the unit (R135). -/
theorem step_from_faulted {s t : State} {f : FaultCode} (u : BlockUnit) (h : step s = .next t) (hf : s.err u = some f) :
    t.err u = some f ∨
    (UnitReset t u ∧ (s.sched.head? = some .rst ∨ ∃ w, s.cfgIn = w :: t.cfgIn ∧ decode s.params .cfg w = .ok (clrOp u))) := by
  obtain rfl | ⟨port, w, ws, i, hin, hi, -, hx⟩ | ⟨-, rfl⟩ | ⟨hrst, rfl⟩ := step_cases h
  case inl => exact .inl (by rw [withSched_err, hf])
  case inr.inl =>
    obtain hkept | ⟨g, hnone, -⟩ | ⟨rfl, rfl⟩ := exec_err_cases u hx
    · exact .inl (by simpa [hf] using hkept)
    · simp [hf] at hnone
    · obtain rfl : .cfg = port := (clrOp_port u).symm.trans (decode_port hi)
      have hcfg : s.cfgIn = w :: ws := hin
      exact .inr ⟨unitReset_clearUnit u .clr _, .inr ⟨w, by simpa using hcfg, hi⟩⟩
  case inr.inr.inl => exact .inl (by rw [shift_err, withSched_err, hf])
  case inr.inr.inr => exact .inr ⟨unitReset_resetStep u _, .inl hrst⟩

/-- Settles O25: the op's whole effect is fault entry. -/
theorem faultEntryChangesOnlyTheRegister : Obligations.FaultEntryChangesOnlyTheRegister := fun _ _ _ _ h =>
  ⟨exec_eq_takeFault .enc h, exec_eq_takeFault .dec h⟩

theorem unit_enc_of_port_es {i : Instr} (h : i.port = .es) : i.unit = .enc := by
  cases i
  case encsym | encend => rfl
  all_goals contradiction

/-- Settles O26: with no bit pending the encoder's port holds nothing, the decoder's never do, and the op is dropped. -/
theorem faultedUnitDropsEveryOp : Obligations.FaultedUnitDropsEveryOp := by
  intro i s hpending
  have hidle : s.encErr ≠ none → s.encCnt = 0 := fun he => by_contra fun hc =>
    have ⟨hnone, _⟩ := hpending hc
    he hnone
  refine ⟨hidle, fun he hu hne => ⟨?encHeld, ?encDrop⟩, fun he hu hne => ⟨?decHeld, ?decDrop⟩⟩
  case encHeld => exact held_eq_false_iff.mpr fun _ => hidle he
  case decHeld => exact held_eq_false_iff.mpr fun hport => nomatch hu.symm.trans (unit_enc_of_port_es hport)
  case encDrop | decDrop => exact exec_of_faulted (by rwa [hu]) (by rwa [hu])

/-- Settles O27: one step from a FAULTED unit, for each unit. -/
theorem onlyClrOrResetLeavesFaulted : Obligations.OnlyClrOrResetLeavesFaulted := fun _ _ _ h =>
  ⟨step_from_faulted .enc h, step_from_faulted .dec h⟩

end Sys2Proof.Machine
end

section
/-! PROOFS. What each op raises, and when (60_exceptions.md R131): one equivalence for each meaning. -/

namespace Sys2Proof.Machine

theorem execLdcode_raises_iff {sym len code : Nat} {s t : State} (h : execLdcode sym len code s = .next t) (he : s.encErr = none)
    (f : FaultCode) :
    t.encErr = some f ↔ (s.encActive = true ∧ f = .tableBusy) ∨
      (s.encActive = false ∧ (len = 0 ∨ s.params.lenMax < len) ∧ f = .argument) := by
  obtain ⟨hne, -⟩ | ⟨-, ha, rfl⟩ | ⟨-, ha, hlen, rfl⟩ | ⟨-, ha, h1, h2, rfl⟩ := execLdcode_cases h
  · contradiction
  · simp [ha, eq_comm]
  · simp [ha, hlen, eq_comm]
  · have hgood : ¬(len = 0 ∨ s.params.lenMax < len) := by omega
    simp [he, ha, hgood]

theorem illegalOp_raises_iff {s t : State} (h : illegalOp s = .next t) (he : s.encErr = none) (f : FaultCode) :
    t.encErr = some f ↔ f = .illegalOp := by
  obtain ⟨hne, -⟩ | ⟨-, rfl⟩ := illegalOp_cases h
  · contradiction
  · simp [eq_comm]

theorem execEncsym_raises_iff {sym : Symbol} {s t : State} (h : execEncsym sym s = .next t) (he : s.encErr = none) (f : FaultCode) :
    t.encErr = some f ↔ s.encCnt = 0 ∧ s.ct.read sym = none ∧ f = .unknownSymbol := by
  obtain ⟨hc | hne, rfl⟩ | ⟨hc, -, hr, rfl⟩ | ⟨e, hc, -, hr, rfl⟩ := execEncsym_cases h
  · simp [he, hc]
  · contradiction
  · simp [hc, hr, eq_comm]
  · simp [he, hr]

theorem execEncend_keeps_encErr {s t : State} (h : execEncend s = .next t) : t.encErr = s.encErr := by
  obtain ⟨-, rfl⟩ | ⟨-, -, rfl⟩ := execEncend_cases h <;> rfl

theorem loadTree_raises_iff {write : State → State} {s t : State} (h : loadTree write s = .next t) (he : s.decErr = none)
    (hw : (write s).decErr = s.decErr) (f : FaultCode) : t.decErr = some f ↔ s.decActive = true ∧ f = .tableBusy := by
  obtain ⟨hne, -⟩ | ⟨-, ha, rfl⟩ | ⟨-, ha, rfl⟩ := loadTree_cases h
  · contradiction
  · simp [ha, eq_comm]
  · simp [hw, he, ha]

/-- The step down the tree that `b` asks for has no way to go: the current entry is no valid Internal one, or the selected child is
absent (R117). -/
def NoEdge (b : Bool) (s : State) : Prop :=
  (∀ left right, s.tm.read s.decPtr ≠ some (.internal left right)) ∨
  ∃ left right, s.tm.read s.decPtr = some (.internal left right) ∧ s.tm.read (childIdx b left right) = none

theorem walkEdge_raises_iff (b : Bool) {s : State} (he : s.decErr = none) (f : FaultCode) :
    (walkEdge b s).decErr = some f ↔ NoEdge b s ∧ f = .argument := by
  unfold NoEdge
  cases hp : s.tm.read s.decPtr with
  | none => simp [walkEdge_of_no_internal b (.inl hp), eq_comm]
  | some e =>
    cases e with
    | leaf sym => simp [walkEdge_of_no_internal b (.inr ⟨sym, hp⟩), eq_comm]
    | internal left right =>
      cases hc : s.tm.read (childIdx b left right) with
      | none => simp [walkEdge_of_no_child hp hc, hc, eq_comm]
      | some child =>
        cases child with
        | leaf sym => simp [walkEdge_to_leaf hp hc, hc, he]
        | internal l r => simp [walkEdge_to_internal hp hc, hc, he]

theorem execDecbit_raises_iff {b : Bool} {s t : State} (h : execDecbit b s = .next t) (he : s.decErr = none) (f : FaultCode) :
    t.decErr = some f ↔ (s.rootNull = true ∧ f = .argument) ∨
      ∃ l r, s.rootNull = false ∧ s.tm.read s.rootIdx = some (.internal l r) ∧ NoEdge b s ∧ f = .argument := by
  obtain ⟨hne, -⟩ | ⟨-, hn, rfl⟩ | ⟨sym, -, hn, hr, rfl⟩ | ⟨l, r, -, hn, hr, rfl⟩ := execDecbit_cases h
  · contradiction
  · simp [hn, eq_comm]
  · simp [he, hn, hr]
  · simp [walkEdge_raises_iff b he, hn, hr]

theorem execDecend_raises_iff {s t : State} (h : execDecend s = .next t) (he : s.decErr = none) (f : FaultCode) :
    t.decErr = some f ↔ (s.rootNull = true ∧ f = .argument) ∨ (s.rootNull = false ∧ s.decPtr ≠ s.rootIdx ∧ f = .malformed) := by
  obtain ⟨hne, -⟩ | ⟨-, hn, rfl⟩ | ⟨-, hn, hp, rfl⟩ | ⟨-, hn, hp, rfl⟩ := execDecend_cases h
  · contradiction
  · simp [hn, eq_comm]
  · simp [hn, hp, eq_comm]
  · simp [he, hn, hp]

/-- Settles O24: op by op, what its meaning raises; an op of the other unit leaves the register. -/
theorem faultsHaveTheirCauses : Obligations.FaultsHaveTheirCauses := by
  refine ⟨fun i s t h => ⟨fun he f => ?enc, fun he f => ?dec⟩, fun s => ⟨shift_encErr s, shift_decErr s, rfl, rfl⟩⟩
  case enc =>
    cases i
    case ldcode sym len code => simpa using execLdcode_raises_iff h he f
    case reserved010 | reserved011 => simpa using illegalOp_raises_iff h he f
    case encsym sym => simpa using execEncsym_raises_iff h he f
    case encend => simp [execEncend_keeps_encErr h, he]
    case clrenc =>
      obtain rfl : clearUnit .enc .clr s = t := Host.Outcome.next.inj h
      simp
    case clrdec | ldleaf | ldint | setroot | decbit | decend =>
      obtain ⟨⟨-, -, -, -, herr⟩, -⟩ := exec_dec_keeps_encoder rfl h
      simp [herr, he]
  case dec =>
    cases i
    case ldleaf | ldint | setroot => simpa using loadTree_raises_iff h he rfl f
    case decbit b => simpa [NoEdge, childIdx] using execDecbit_raises_iff h he f
    case decend => simpa using execDecend_raises_iff h he f
    case clrdec =>
      obtain rfl : clearUnit .dec .clr s = t := Host.Outcome.next.inj h
      simp
    case clrenc | ldcode | reserved010 | reserved011 | encsym | encend =>
      obtain ⟨⟨-, -, -, -, -, herr⟩, -⟩ := exec_enc_keeps_decoder rfl h
      simp [herr, he]

end Sys2Proof.Machine
end

section
/-! PROOFS. Op words (30_encoding.md R50 to R58): packed fields are read back, a decoded op fits, ignored bits do not matter, and one row
of the opcode map matches. -/

namespace Sys2Proof

/-! ### Encoded ops are read back -/

/-- What is packed above a field leaves it alone. -/
theorem field_add_above {lo width n : Nat} (h : lo + width ≤ n) (w v : Nat) : field (w + v <<< n) lo width = field w lo width := by
  obtain ⟨d, rfl⟩ := Nat.exists_eq_add_of_le h
  have hpack : w + v <<< (lo + width + d) = w + 2 ^ lo * (2 ^ width * (2 ^ d * v)) := by
    rw [Nat.shiftLeft_eq, Nat.pow_add, Nat.pow_add]
    ring
  rw [field_eq_div, field_eq_div, hpack, Nat.add_mul_div_left _ _ (Nat.two_pow_pos lo), Nat.add_mul_mod_self_left]

/-- Packing one more field on top of a word of `a` bits gives a word of `b` bits. -/
theorem packed_lt_of_le {low v lo width a b : Nat} (hl : low < 2 ^ a) (hv : v < 2 ^ width) (ha : a ≤ lo) (hb : lo + width ≤ b) :
    low + v <<< lo < 2 ^ b :=
  Laws.EncodeFits.of_width (packed_lt (Laws.EncodeFits.of_width hl ha) hv) hb

/-- A word that fits the CFG port decodes as `decodeCfg` reads it. -/
theorem decode_cfg_of_lt {p : Params} {w : OpWord} (h : w < 2 ^ p.portWidth .cfg) : decode p .cfg w = .ok (decodeCfg p w) :=
  decode_of_lt h

theorem decode_encode_ldcode {p : Params} {sym len code : Nat} (h : (Instr.ldcode sym len code).wellFormed p = true) :
    decode p .cfg (encode p (.ldcode sym len code)) = .ok (.ldcode sym len code) := by
  have hfits := Laws.EncodeFits.ldcode sym len code p h
  obtain ⟨⟨hs, hl⟩, hc⟩ : (sym < 2 ^ p.symW ∧ len < 2 ^ p.lenW) ∧ code < 2 ^ p.lenMax := by
    simpa [Instr.wellFormed, fits] using h
  have h1 : 1 + sym <<< 3 < 2 ^ (p.symW + 3) := packed_lt_of_le (a := 3) (by decide) hs (by omega) (by omega)
  have h2 : 1 + sym <<< 3 + len <<< (p.symW + 3) < 2 ^ (p.symW + p.lenW + 3) := packed_lt_of_le h1 hl (by omega) (by omega)
  have hop : encode p (.ldcode sym len code) % 8 = 1 := by
    rw [encode, packed_mod_eight, packed_mod_eight, packed_mod_eight _ _ 0]
  rw [decode_cfg_of_lt hfits, decodeCfg_ldcode hop, encode, field_packed_top h2 hc, field_add_above (by omega),
    field_add_above (by omega), field_packed_top (by decide) hs, field_add_above (by omega), field_packed_top h1 hl]

theorem decode_encode_ldleaf {p : Params} {idx sym : Nat} (h : (Instr.ldleaf idx sym).wellFormed p = true) :
    decode p .cfg (encode p (.ldleaf idx sym)) = .ok (.ldleaf idx sym) := by
  have hfits := Laws.EncodeFits.ldleaf idx sym p h
  obtain ⟨hi, hs⟩ : idx < 2 ^ p.nodeAw ∧ sym < 2 ^ p.symW := by simpa [Instr.wellFormed, fits] using h
  have h1 : 5 + idx <<< 3 < 2 ^ (p.nodeAw + 3) := packed_lt_of_le (a := 3) (by decide) hi (by omega) (by omega)
  have hop : encode p (.ldleaf idx sym) % 8 = 5 := by rw [encode, packed_mod_eight, packed_mod_eight _ _ 0]
  rw [decode_cfg_of_lt hfits, decodeCfg_ldleaf hop, encode, field_packed_top h1 hs, field_add_above (by omega),
    field_packed_top (by decide) hi]

theorem decode_encode_ldint {p : Params} {idx left right : Nat} (h : (Instr.ldint idx left right).wellFormed p = true) :
    decode p .cfg (encode p (.ldint idx left right)) = .ok (.ldint idx left right) := by
  have hfits := Laws.EncodeFits.ldint idx left right p h
  obtain ⟨⟨hi, hl⟩, hr⟩ : (idx < 2 ^ p.nodeAw ∧ left < 2 ^ p.nodeAw) ∧ right < 2 ^ p.nodeAw := by
    simpa [Instr.wellFormed, fits] using h
  have h1 : 6 + idx <<< 3 < 2 ^ (p.nodeAw + 3) := packed_lt_of_le (a := 3) (by decide) hi (by omega) (by omega)
  have h2 : 6 + idx <<< 3 + left <<< (p.nodeAw + 3) < 2 ^ (2 * p.nodeAw + 3) := packed_lt_of_le h1 hl (by omega) (by omega)
  have hop : encode p (.ldint idx left right) % 8 = 6 := by
    rw [encode, packed_mod_eight, packed_mod_eight, packed_mod_eight _ _ 0]
  rw [decode_cfg_of_lt hfits, decodeCfg_ldint hop, encode, field_packed_top h2 hr, field_add_above (by omega),
    field_add_above (by omega), field_packed_top (by decide) hi, field_add_above (by omega), field_packed_top h1 hl]

theorem decode_encode_setroot {p : Params} {idx : Nat} (h : (Instr.setroot idx).wellFormed p = true) :
    decode p .cfg (encode p (.setroot idx)) = .ok (.setroot idx) := by
  have hfits := Laws.EncodeFits.setroot idx p h
  have hi : idx < 2 ^ p.nodeAw := by simpa [Instr.wellFormed, fits] using h
  have hop : encode p (.setroot idx) % 8 = 7 := by rw [encode, packed_mod_eight _ _ 0]
  rw [decode_cfg_of_lt hfits, decodeCfg_setroot hop, encode, field_packed_top (by decide) hi]

/-! ### Decoded ops fit -/

theorem decodeWord_wellFormed (p : Params) (port : Port) (w : OpWord) : (decodeWord p port w).wellFormed p = true := by
  cases port
  case cfg =>
    rw [decodeWord, decodeCfg]
    split <;> simp [Instr.wellFormed, fits, field_lt]
  case es =>
    rw [decodeWord, decodeEs]
    split <;> simp [Instr.wellFormed, fits, field_lt]
  case db =>
    rw [decodeWord, decodeDb]
    split <;> rfl

/-! The two equations of the DB decoder (30_encoding.md R54). -/

theorem decodeDb_decbit {w : Nat} (h : w % 2 = 0) : decodeDb w = .decbit (w.testBit 1) := by
  simp [decodeDb, Nat.testBit_zero, h]

theorem decodeDb_decend {w : Nat} (h : w % 2 = 1) : decodeDb w = .decend := by
  simp [decodeDb, Nat.testBit_zero, h]

/-! ### Ignored bits -/

theorem mod_two_congr {w v : Nat} (h : v.testBit 0 = w.testBit 0) : v % 2 = w % 2 := by
  rw [Nat.testBit_zero, Nat.testBit_zero, decide_eq_decide] at h
  omega

/-- Words with the same opcode bits have the same opcode. -/
theorem mod_eight_congr {w v : Nat} (h : ∀ k, k < 3 → v.testBit k = w.testBit k) : v % 8 = w % 8 := by
  refine Nat.eq_of_testBit_eq fun k => ?_
  rw [show 8 = 2 ^ 3 from rfl, Nat.testBit_mod_two_pow, Nat.testBit_mod_two_pow]
  by_cases hk : k < 3 <;> simp [hk, h]

/-- The opcode of a CFG word is one of eight (30_encoding.md R51). -/
theorem opcode_cases (w : Nat) :
    w % 8 = 0 ∨ w % 8 = 1 ∨ w % 8 = 2 ∨ w % 8 = 3 ∨ w % 8 = 4 ∨ w % 8 = 5 ∨ w % 8 = 6 ∨ w % 8 = 7 := by
  omega

/-- A CFG op reads the three opcode bits at least. -/
theorem three_le_opBits {p : Params} {i : Instr} (h : i.port = .cfg) : 3 ≤ opBits p i := by
  cases i
  case encsym | encend | decbit | decend => contradiction
  all_goals simp [opBits]

/-- What CFG decodes depends on the bits the op reads alone. -/
theorem decodeCfg_congr {p : Params} {w v : OpWord} (h : ∀ k, k < opBits p (decodeCfg p w) → v.testBit k = w.testBit k) :
    decodeCfg p v = decodeCfg p w := by
  have hread : 3 ≤ opBits p (decodeCfg p w) := three_le_opBits (decodeWord_port p .cfg w)
  have hop : v % 8 = w % 8 := mod_eight_congr fun k hk => h k (by omega)
  have hfield : ∀ lo width, lo + width ≤ opBits p (decodeCfg p w) → field v lo width = field w lo width :=
    fun lo width hle => field_congr fun k _ hk => h k (by omega)
  obtain hw | hw | hw | hw | hw | hw | hw | hw := opcode_cases w
  · rw [decodeCfg_clrenc hw, decodeCfg_clrenc (hop.trans hw)]
  · rw [decodeCfg_ldcode hw, opBits] at hfield
    rw [decodeCfg_ldcode hw, decodeCfg_ldcode (hop.trans hw), hfield _ _ (by omega), hfield _ _ (by omega), hfield _ _ (by omega)]
  · rw [decodeCfg_reserved010 hw, decodeCfg_reserved010 (hop.trans hw)]
  · rw [decodeCfg_reserved011 hw, decodeCfg_reserved011 (hop.trans hw)]
  · rw [decodeCfg_clrdec hw, decodeCfg_clrdec (hop.trans hw)]
  · rw [decodeCfg_ldleaf hw, opBits] at hfield
    rw [decodeCfg_ldleaf hw, decodeCfg_ldleaf (hop.trans hw), hfield _ _ (by omega), hfield _ _ (by omega)]
  · rw [decodeCfg_ldint hw, opBits] at hfield
    rw [decodeCfg_ldint hw, decodeCfg_ldint (hop.trans hw), hfield _ _ (by omega), hfield _ _ (by omega), hfield _ _ (by omega)]
  · rw [decodeCfg_setroot hw, opBits] at hfield
    rw [decodeCfg_setroot hw, decodeCfg_setroot (hop.trans hw), hfield _ _ (by omega)]

theorem decodeEs_congr {p : Params} {w v : OpWord} (h : ∀ k, k < opBits p (decodeEs p w) → v.testBit k = w.testBit k) :
    decodeEs p v = decodeEs p w := by
  obtain hw | hw := Nat.mod_two_eq_zero_or_one w
  · rw [decodeEs_encsym hw, opBits] at h
    rw [decodeEs_encsym hw, decodeEs_encsym ((mod_two_congr (h 0 (by omega))).trans hw),
      field_congr fun k _ hk => h k (by omega)]
  · rw [decodeEs_encend hw, opBits] at h
    rw [decodeEs_encend hw, decodeEs_encend ((mod_two_congr (h 0 (by omega))).trans hw)]

theorem decodeDb_congr {p : Params} {w v : OpWord} (h : ∀ k, k < opBits p (decodeDb w) → v.testBit k = w.testBit k) :
    decodeDb v = decodeDb w := by
  obtain hw | hw := Nat.mod_two_eq_zero_or_one w
  · rw [decodeDb_decbit hw, opBits] at h
    rw [decodeDb_decbit hw, decodeDb_decbit ((mod_two_congr (h 0 (by omega))).trans hw), h 1 (by omega)]
  · rw [decodeDb_decend hw, opBits] at h
    rw [decodeDb_decend hw, decodeDb_decend ((mod_two_congr (h 0 (by omega))).trans hw)]

/-! ### The opcode map -/

/-- A row of CFG looks at the opcode alone. -/
theorem filter_opcodeMap_cfg (w : Nat) :
    opcodeMap.filter (fun r => r.selects .cfg w) = opcodeMap.filter (fun r => r.selects .cfg (w % 8)) := by
  have hmask : ∀ v : Nat, v &&& 7 = v % 8 := fun v => Nat.and_two_pow_sub_one_eq_mod v 3
  refine List.filter_congr fun r hr => ?_
  have hrow : r.port ≠ .cfg ∨ r.mask = 7 := (show ∀ r ∈ opcodeMap, r.port ≠ .cfg ∨ r.mask = 7 by decide) r hr
  obtain hport | hmask7 := hrow
  · simp [OpcodeRow.selects, hport]
  · simp [OpcodeRow.selects, hmask7, hmask]

/-- A row of ES or DB looks at bit 0 alone. -/
theorem filter_opcodeMap_bit {port : Port} (hport : port ≠ .cfg) (w : Nat) :
    opcodeMap.filter (fun r => r.selects port w) = opcodeMap.filter (fun r => r.selects port (w % 2)) := by
  refine List.filter_congr fun r hr => ?_
  have hrow : r.port = .cfg ∨ r.mask = 1 := (show ∀ r ∈ opcodeMap, r.port = .cfg ∨ r.mask = 1 by decide) r hr
  obtain hcfg | hmask1 := hrow
  · simp [OpcodeRow.selects, hcfg, hport.symm]
  · simp [OpcodeRow.selects, hmask1, Nat.and_one_is_mod]

/-- The row of a word's opcode is the one that matches, and it names the op. -/
theorem opcodeMap_row (p : Params) (port : Port) (w : Nat) :
    ∃ r, opcodeMap.filter (fun r => r.selects port w) = [r] ∧
      r.mnemonic = (decodeWord p port w).mnemonic ∧ r.unit = (decodeWord p port w).unit := by
  cases port
  case cfg =>
    rw [filter_opcodeMap_cfg, decodeWord]
    obtain hw | hw | hw | hw | hw | hw | hw | hw := opcode_cases w
    · exact hw ▸ decodeCfg_clrenc hw ▸ ⟨_, rfl, rfl, rfl⟩
    · exact hw ▸ decodeCfg_ldcode hw ▸ ⟨_, rfl, rfl, rfl⟩
    · exact hw ▸ decodeCfg_reserved010 hw ▸ ⟨_, rfl, rfl, rfl⟩
    · exact hw ▸ decodeCfg_reserved011 hw ▸ ⟨_, rfl, rfl, rfl⟩
    · exact hw ▸ decodeCfg_clrdec hw ▸ ⟨_, rfl, rfl, rfl⟩
    · exact hw ▸ decodeCfg_ldleaf hw ▸ ⟨_, rfl, rfl, rfl⟩
    · exact hw ▸ decodeCfg_ldint hw ▸ ⟨_, rfl, rfl, rfl⟩
    · exact hw ▸ decodeCfg_setroot hw ▸ ⟨_, rfl, rfl, rfl⟩
  case es =>
    rw [filter_opcodeMap_bit (by decide), decodeWord]
    obtain hw | hw := Nat.mod_two_eq_zero_or_one w
    · exact hw ▸ decodeEs_encsym hw ▸ ⟨_, rfl, rfl, rfl⟩
    · exact hw ▸ decodeEs_encend hw ▸ ⟨_, rfl, rfl, rfl⟩
  case db =>
    rw [filter_opcodeMap_bit (by decide), decodeWord]
    obtain hw | hw := Nat.mod_two_eq_zero_or_one w
    · exact hw ▸ decodeDb_decbit hw ▸ ⟨_, rfl, rfl, rfl⟩
    · exact hw ▸ decodeDb_decend hw ▸ ⟨_, rfl, rfl, rfl⟩

end Sys2Proof

namespace Sys2Proof.Machine

/-- Settles O1: each field is read back from where it was packed. -/
theorem decodeEncodeAgree : Obligations.DecodeEncodeAgree := by
  intro p i h
  cases i
  case clrenc => exact (decode_cfg_of_lt (Laws.EncodeFits.clrenc p h)).trans (congrArg _ (decodeCfg_clrenc rfl))
  case reserved010 => exact (decode_cfg_of_lt (Laws.EncodeFits.reserved010 p h)).trans (congrArg _ (decodeCfg_reserved010 rfl))
  case reserved011 => exact (decode_cfg_of_lt (Laws.EncodeFits.reserved011 p h)).trans (congrArg _ (decodeCfg_reserved011 rfl))
  case clrdec => exact (decode_cfg_of_lt (Laws.EncodeFits.clrdec p h)).trans (congrArg _ (decodeCfg_clrdec rfl))
  case ldcode => exact decode_encode_ldcode h
  case ldleaf => exact decode_encode_ldleaf h
  case ldint => exact decode_encode_ldint h
  case setroot => exact decode_encode_setroot h
  case encsym sym => exact decode_encode_encsym (by simpa [Instr.wellFormed, fits] using h)
  case encend => exact decode_encode_encend p
  case decbit b => exact decode_encode_decbit p b
  case decend => exact decode_encode_decend p

/-- Settles O2: the op is what the decoder of the port makes of the word. -/
theorem decodedOpsAreWellFormed : Obligations.DecodedOpsAreWellFormed := by
  intro p port w i h
  obtain ⟨-, rfl⟩ := decode_ok_iff.mp h
  exact ⟨decodeWord_wellFormed p port w, decodeWord_port p port w⟩

/-- Settles O3: the decoder of each port reads the op's own bits alone. -/
theorem ignoredBitsHaveNoEffect : Obligations.IgnoredBitsHaveNoEffect := by
  intro p port w w' i h hw' hbits
  obtain ⟨-, rfl⟩ := decode_ok_iff.mp h
  refine decode_ok_iff.mpr ⟨hw', ?_⟩
  cases port
  · exact decodeCfg_congr hbits
  · exact decodeEs_congr hbits
  · exact decodeDb_congr hbits

/-- Settles O4: the opcode bits select the row of the op they decode to. -/
theorem everyWordMatchesOneRow : Obligations.EveryWordMatchesOneRow := by
  intro p port w i h
  obtain ⟨-, rfl⟩ := decode_ok_iff.mp h
  exact opcodeMap_row p port w

/-- Settles O6: the twelve words of the spec, by evaluation. -/
theorem specWordsDecode : Obligations.SpecWordsDecode := by
  unfold Obligations.SpecWordsDecode
  decide

end Sys2Proof.Machine
end

section
/-! PROOFS. Loading the tables (30_encoding.md R61, 40_table_construction.md R76, R77): a run of writes at distinct indices leaves the same
table in every order, and it is the image. -/

namespace Sys2Proof.Machine

variable {α : Type}

/-! ### Runs of writes -/

/-- The entries written one after the other. -/
def Memory.writeAll (m : Memory α) (es : List (Nat × α)) : Memory α := es.foldl (fun m e => Memory.write m e.1 e.2) m

theorem Memory.writeAll_cons (m : Memory α) (e : Nat × α) (es : List (Nat × α)) :
    m.writeAll (e :: es) = (m.write e.1 e.2).writeAll es := rfl

theorem Memory.wf_writeAll {m : Memory α} (h : m.wf) (es : List (Nat × α)) : (m.writeAll es).wf := by
  induction es generalizing m with
  | nil => exact h
  | cons e es ih => exact ih (Memory.wf_write h e.1 e.2)

theorem Memory.read_writeAll_of_not_mem {es : List (Nat × α)} {a : Nat} (h : a ∉ es.map (·.1)) (m : Memory α) :
    (m.writeAll es).read a = m.read a := by
  induction es generalizing m with
  | nil => rfl
  | cons e es ih =>
    obtain ⟨hne, hes⟩ : a ≠ e.1 ∧ a ∉ es.map (·.1) := by simpa using h
    rw [Memory.writeAll_cons, ih hes, Memory.read_write_other _ hne]

theorem Memory.read_writeAll_of_mem {es : List (Nat × α)} (h : (es.map (·.1)).Nodup) {a : Nat} {x : α} (he : (a, x) ∈ es)
    (m : Memory α) : (m.writeAll es).read a = some x := by
  induction es generalizing m with
  | nil => contradiction
  | cons e es ih =>
    obtain ⟨hne, hes⟩ := List.nodup_cons.mp h
    obtain rfl | he := List.mem_cons.mp he
    · rw [Memory.writeAll_cons, Memory.read_writeAll_of_not_mem hne, Memory.read_write_same]
    · exact ih hes he _

/-- The indices of a table in canonical form are distinct. -/
theorem Memory.nodup_indices {m : Memory α} (h : m.wf) : (m.map (·.1)).Nodup :=
  (List.pairwise_map.mpr h).imp fun hlt => hlt.ne

/-- Writes at distinct indices give the same table in every order. -/
theorem Memory.writeAll_perm {es es' : List (Nat × α)} (hperm : es'.Perm es) (hes : (es.map (·.1)).Nodup) :
    Memory.writeAll [] es' = Memory.writeAll [] es := by
  have hes' : (es'.map (·.1)).Nodup := (hperm.map _).nodup_iff.mpr hes
  refine Memory.eq_of_read_eq (Memory.wf_writeAll .nil _) (Memory.wf_writeAll .nil _) fun a => ?_
  by_cases ha : a ∈ es.map (·.1)
  · obtain ⟨⟨_, x⟩, he, rfl⟩ := List.mem_map.mp ha
    rw [Memory.read_writeAll_of_mem hes he, Memory.read_writeAll_of_mem hes' (hperm.mem_iff.mpr he)]
  · rw [Memory.read_writeAll_of_not_mem ha, Memory.read_writeAll_of_not_mem (mt (hperm.map _).mem_iff.mp ha)]

/-- The entries of a table, written in rising order, give the table. -/
theorem Memory.writeAll_self {m : Memory α} (hm : m.wf) : Memory.writeAll [] m = m := by
  refine Memory.eq_of_read_eq (Memory.wf_writeAll .nil _) hm fun a => ?_
  cases hread : m.read a with
  | some x => exact Memory.read_writeAll_of_mem (Memory.nodup_indices hm) (Memory.mem_of_read hread) _
  | none =>
    refine (Memory.read_writeAll_of_not_mem (fun ha => ?_) _).trans rfl
    obtain ⟨⟨_, x⟩, he, rfl⟩ := List.mem_map.mp ha
    simp [Memory.read_of_mem hm he] at hread

/-! ### LOADMAP -/

/-- The entry of CT that holds a Code. -/
def codeEntry (c : BitString) : CtEntry := ⟨c.length, val c⟩

theorem codeEntry_bits (c : BitString) : (codeEntry c).bits = c := bitsOf_val c

/-- `ctImage` holds each Code in its own entry, and exists when every length is one LDCODE accepts. -/
theorem ctImage_eq_some_iff {p : Params} {M : Memory BitString} {ct : Memory CtEntry} :
    ctImage p M = some ct ↔
      (∀ e ∈ M, 1 ≤ e.2.length ∧ e.2.length ≤ p.lenMax) ∧ ct = M.map fun e => (e.1, codeEntry e.2) := by
  unfold ctImage codeEntry
  split
  case isTrue hall =>
    have hlen : ∀ e ∈ M, 1 ≤ e.2.length ∧ e.2.length ≤ p.lenMax := by simpa using hall
    exact ⟨fun h => ⟨hlen, (Option.some.inj h).symm⟩, fun ⟨_, hct⟩ => congrArg some hct.symm⟩
  case isFalse hall =>
    have hlen : ¬∀ e ∈ M, 1 ≤ e.2.length ∧ e.2.length ≤ p.lenMax := by simpa using hall
    exact ⟨fun h => (nomatch h), fun ⟨h, _⟩ => absurd h hlen⟩

theorem wf_map {β : Type} {m : Memory α} (h : m.wf) (f : Nat × α → β) : Memory.wf (m.map fun e => (e.1, f e)) :=
  List.pairwise_map.mpr h

/-- The image read back as a mapping. -/
theorem mappingOf_ctImage {p : Params} {M : Memory BitString} {ct : Memory CtEntry} (h : ctImage p M = some ct) : mappingOf ct = M := by
  obtain ⟨-, rfl⟩ := ctImage_eq_some_iff.mp h
  have hentry : (fun e : Nat × CtEntry => (e.1, e.2.bits)) ∘ (fun e : Nat × BitString => (e.1, codeEntry e.2)) = id :=
    funext fun e => Prod.ext rfl (codeEntry_bits e.2)
  rw [mappingOf, List.map_map, hentry, List.map_id]

/-- Loads of Codes of legal lengths into an IDLE encoder write their entries and nothing else. -/
theorem execAll_ldcodes {M : Memory BitString} {s : State} (he : s.encErr = none) (ha : s.encActive = false)
    (hlen : ∀ e ∈ M, 1 ≤ e.2.length ∧ e.2.length ≤ s.params.lenMax) :
    execAll (M.map fun e => .ldcode e.1 e.2.length (val e.2)) s =
      .next { s with ct := s.ct.writeAll (M.map fun e => (e.1, codeEntry e.2)) } := by
  induction M generalizing s with
  | nil => rfl
  | cons e M ih =>
    obtain ⟨⟨hpos, hmax⟩, hM⟩ := List.forall_mem_cons.mp hlen
    rw [List.map_cons, execAll_cons (i := .ldcode ..) (execLdcode_of_good_len e.1 (val e.2) he ha hpos hmax),
      ih (s := { s with ct := s.ct.write e.1 ⟨e.2.length, val e.2⟩ }) he ha hM]
    rfl

/-! ### LOADTREE -/

/-- A node with the index it is loaded at. -/
def TreeNode.load (n : TreeNode) : Nat × TmEntry := (n.seq, n.entry)

theorem tmImage_eq_writeAll (root : TreeNode) : tmImage root = Memory.writeAll [] (root.nodes.map TreeNode.load) := by
  rw [tmImage, Memory.writeAll, List.foldl_map]
  rfl

theorem indices_eq_map_load (root : TreeNode) : root.indices = (root.nodes.map TreeNode.load).map (·.1) := by
  rw [List.map_map]
  rfl

/-- In the image of a tree with distinct indices every node stands at its index (R77). -/
theorem heldBy_tmImage {root : TreeNode} (h : root.indices.Nodup) : root.HeldBy (tmImage root) := by
  intro n hn
  rw [indices_eq_map_load] at h
  rw [tmImage_eq_writeAll]
  exact Memory.read_writeAll_of_mem h (List.mem_map_of_mem (f := TreeNode.load) hn) _

/-- The load of one node into an IDLE decoder writes its entry and nothing else. -/
theorem exec_loadNode {s : State} (n : TreeNode) (he : s.decErr = none) (ha : s.decActive = false) :
    exec (loadNode n) s = .next { s with tm := s.tm.write n.seq n.entry } := by
  cases n <;> exact loadTree_of_idle _ he ha

/-- Loads of nodes into an IDLE decoder write their entries and nothing else. -/
theorem execAll_loadNodes {ns : List TreeNode} {s : State} (he : s.decErr = none) (ha : s.decActive = false) :
    execAll (ns.map loadNode) s = .next { s with tm := s.tm.writeAll (ns.map TreeNode.load) } := by
  induction ns generalizing s with
  | nil => rfl
  | cons n ns ih =>
    rw [List.map_cons, execAll_cons (exec_loadNode n he ha), ih (s := { s with tm := s.tm.write n.seq n.entry }) he ha]
    rfl

/-- CLRDEC, loads of nodes and SETROOT, from any state. -/
theorem execAll_clear_load_root (s : State) (ns : List TreeNode) (root : NodeIdx) :
    execAll (.clrdec :: (ns.map loadNode ++ [.setroot root])) s = .next { s with
      tm := Memory.writeAll [] (ns.map TreeNode.load), rootV := true, rootIdx := root, decPtr := root, decActive := false,
      decErr := none, dsLog := s.dsLog ++ [.mark .clr] } := by
  rw [execAll_cons (t := clearUnit .dec .clr s) rfl, execAll_append (execAll_loadNodes rfl rfl),
    execAll_cons (i := .setroot root) (loadTree_of_idle (nameRoot root) rfl rfl), execAll_nil]
  rfl

/-- Settles O43: the entries of a table in canonical form are those it reads. -/
theorem equalReadsEqualTables : Obligations.EqualReadsEqualTables :=
  ⟨fun _ _ => Memory.eq_of_read_eq, fun _ _ => Memory.eq_of_read_eq⟩

/-- Settles O44: the loads write the entries of the image, in some order, into an empty table. -/
theorem loadmapLeavesCtImage : Obligations.LoadmapLeavesCtImage := by
  intro s M M' ct hM himage hperm
  refine ⟨?_, mappingOf_ctImage himage⟩
  obtain ⟨hlen, rfl⟩ := ctImage_eq_some_iff.mp himage
  have hwf : Memory.wf (M.map fun e => (e.1, codeEntry e.2)) := wf_map hM _
  have htable : Memory.writeAll [] (M'.map fun e => (e.1, codeEntry e.2)) = M.map fun e => (e.1, codeEntry e.2) :=
    (Memory.writeAll_perm (hperm.map _) (Memory.nodup_indices hwf)).trans (Memory.writeAll_self hwf)
  rw [loadMap, execAll_cons (t := clearUnit .enc .clr s) rfl,
    execAll_ldcodes (s := clearUnit .enc .clr s) rfl rfl fun e he => hlen e (hperm.mem_iff.mp he), ← htable]
  rfl

/-- Settles O45: the loads write the entries of the nodes into an empty memory, so their order does not matter. -/
theorem loadtreeLeavesTmImage : Obligations.LoadtreeLeavesTmImage := by
  intro s root
  refine ⟨?_, fun hindices => ⟨heldBy_tmImage hindices, fun loads hperm => ?_⟩⟩
  · rw [tmImage_eq_writeAll]
    exact execAll_clear_load_root s root.nodes root.seq
  · obtain ⟨ns, rfl, hns⟩ := (congrFun₂ (List.eq_map_comp_perm loadNode) loads root.nodes).mpr hperm
    rw [indices_eq_map_load] at hindices
    rw [loadTreeOps, execAll_clear_load_root, execAll_clear_load_root, Memory.writeAll_perm (hns.map _) hindices]

end Sys2Proof.Machine
end

section
/-! PROOFS. The Codes of a tree (30_encoding.md R46, 40_table_construction.md R71 to R73): no path begins another, and the CodeMapper
records them. -/

namespace Sys2Proof.Machine

/-! ### Paths -/

theorem TreeNode.paths_internal (w q : Nat) (l r : TreeNode) :
    (TreeNode.internal w q l r).paths =
      l.paths.map (fun e => (e.1, false :: e.2)) ++ r.paths.map (fun e => (e.1, true :: e.2)) := rfl

theorem TreeNode.symbols_leaf (a w q : Nat) : (TreeNode.leaf a w q).symbols = [a] := rfl

theorem TreeNode.symbols_internal (w q : Nat) (l r : TreeNode) :
    (TreeNode.internal w q l r).symbols = l.symbols ++ r.symbols := by
  rw [TreeNode.symbols, TreeNode.paths_internal, List.map_append, List.map_map, List.map_map]
  rfl

theorem TreeNode.length_symbols_pos (t : TreeNode) : 1 ≤ t.symbols.length := by
  induction t with
  | leaf a w q => exact le_refl 1
  | internal w q l r ihl ihr =>
    rw [TreeNode.symbols_internal, List.length_append]
    omega

/-- What holds of both children holds of the child a bit selects. -/
theorem TreeNode.child_of_both {P : TreeNode → Prop} {l r : TreeNode} (hl : P l) (hr : P r) (b : Bool) : P (TreeNode.child b l r) := by
  cases b
  · exact hl
  · exact hr

/-- The other child has a leaf of its own. -/
theorem TreeNode.length_symbols_child_lt (b : Bool) (w q : Nat) (l r : TreeNode) :
    (TreeNode.child b l r).symbols.length + 1 ≤ (TreeNode.internal w q l r).symbols.length := by
  have hl := l.length_symbols_pos
  have hr := r.length_symbols_pos
  rw [TreeNode.symbols_internal, List.length_append]
  cases b <;> simp only [TreeNode.child, Bool.false_eq_true, if_false, if_true] <;> omega

/-- A path is shorter than the number of leaves. -/
theorem TreeNode.length_path_lt {t : TreeNode} {e : Symbol × BitString} (h : e ∈ t.paths) : e.2.length + 1 ≤ t.symbols.length := by
  induction t generalizing e with
  | leaf a w q =>
    obtain rfl := List.mem_singleton.mp h
    exact le_refl 1
  | internal w q l r ihl ihr =>
    obtain ⟨a, path⟩ := e
    obtain ⟨b, rest, rfl, hrest⟩ := TreeNode.mem_paths_internal h
    have ih : ∀ e ∈ (TreeNode.child b l r).paths, e.2.length + 1 ≤ (TreeNode.child b l r).symbols.length :=
      TreeNode.child_of_both (P := fun t => ∀ e ∈ t.paths, e.2.length + 1 ≤ t.symbols.length) (fun _ => ihl) (fun _ => ihr) b
    have hother := TreeNode.length_symbols_child_lt b w q l r
    have hlength : rest.length + 1 ≤ _ := ih _ hrest
    rw [List.length_cons]
    omega

/-- Only a lone leaf has the empty path. -/
theorem TreeNode.path_eq_nil_iff {t : TreeNode} {e : Symbol × BitString} (h : e ∈ t.paths) : e.2 = [] ↔ t.symbols.length = 1 := by
  cases t with
  | leaf a w q =>
    obtain rfl := List.mem_singleton.mp h
    exact ⟨fun _ => rfl, fun _ => rfl⟩
  | internal w q l r =>
    obtain ⟨a, path⟩ := e
    obtain ⟨b, rest, rfl, -⟩ := TreeNode.mem_paths_internal h
    have hchild := (TreeNode.child b l r).length_symbols_pos
    have hother := TreeNode.length_symbols_child_lt b w q l r
    exact ⟨fun hnil => absurd hnil (List.cons_ne_nil b rest), fun hone => by omega⟩

/-- The path of a leaf does not begin the path of a leaf with another symbol. -/
theorem TreeNode.path_not_isPrefix {t : TreeNode} {e f : Symbol × BitString} (he : e ∈ t.paths) (hf : f ∈ t.paths)
    (hne : e.1 ≠ f.1) : ¬ e.2 <+: f.2 := by
  induction t generalizing e f with
  | leaf a w q =>
    obtain rfl := List.mem_singleton.mp he
    obtain rfl := List.mem_singleton.mp hf
    contradiction
  | internal w q l r ihl ihr =>
    obtain ⟨a, path⟩ := e
    obtain ⟨a', path'⟩ := f
    obtain ⟨b, rest, rfl, hrest⟩ := TreeNode.mem_paths_internal he
    obtain ⟨b', rest', rfl, hrest'⟩ := TreeNode.mem_paths_internal hf
    intro hprefix
    obtain ⟨rfl, hrestPrefix⟩ := List.cons_prefix_cons.mp hprefix
    have ih : ∀ e f, e ∈ (TreeNode.child b l r).paths → f ∈ (TreeNode.child b l r).paths → e.1 ≠ f.1 → ¬ e.2 <+: f.2 :=
      TreeNode.child_of_both (P := fun t => ∀ e f, e ∈ t.paths → f ∈ t.paths → e.1 ≠ f.1 → ¬ e.2 <+: f.2)
        (fun _ _ => ihl) (fun _ _ => ihr) b
    exact ih _ _ hrest hrest' hne hrestPrefix

theorem codeOfPath_ne_nil (path : BitString) : codeOfPath path ≠ [] := by
  unfold codeOfPath
  split
  · exact List.cons_ne_nil _ _
  · assumption

/-- Under an Internal root the Code is the path itself (R71). -/
theorem codeOfPath_of_internal {w q : Nat} {l r : TreeNode} {e : Symbol × BitString} (h : e ∈ (TreeNode.internal w q l r).paths) :
    codeOfPath e.2 = e.2 := by
  obtain ⟨b, rest, hpath, -⟩ := TreeNode.mem_paths_internal h
  exact if_neg (hpath ▸ List.cons_ne_nil b rest)

/-! ### The CodeMapper -/

theorem recordCodes_wf {m : Memory BitString} (hm : m.wf) (t : TreeNode) (acc : BitString) : (recordCodes t acc m).wf := by
  induction t generalizing acc m with
  | leaf a w q => exact Memory.wf_write hm a acc
  | internal w q l r ihl ihr => exact ihr (ihl hm _) _

theorem read_recordCodes_of_not_mem {t : TreeNode} {a : Symbol} (h : a ∉ t.symbols) (acc : BitString) (m : Memory BitString) :
    (recordCodes t acc m).read a = m.read a := by
  induction t generalizing acc m with
  | leaf s w q => exact Memory.read_write_other _ (by simpa [TreeNode.symbols_leaf] using h) _
  | internal w q l r ihl ihr =>
    rw [TreeNode.symbols_internal, List.mem_append, not_or] at h
    obtain ⟨hl, hr⟩ := h
    rw [recordCodes, ihr hr, ihl hl]

/-- Each symbol is recorded with its path behind the accumulated one. -/
theorem read_recordCodes_of_mem {t : TreeNode} (hnodup : t.symbols.Nodup) {a : Symbol} {path : BitString} (h : (a, path) ∈ t.paths)
    (acc : BitString) (m : Memory BitString) : (recordCodes t acc m).read a = some (acc ++ path) := by
  induction t generalizing path acc m with
  | leaf s w q =>
    obtain ⟨rfl, rfl⟩ : a = s ∧ path = [] := by simpa [TreeNode.paths] using h
    rw [recordCodes, Memory.read_write_same, List.append_nil]
  | internal w q l r ihl ihr =>
    rw [TreeNode.symbols_internal, List.nodup_append] at hnodup
    obtain ⟨hl, hr, hdisjoint⟩ := hnodup
    obtain ⟨b, rest, rfl, hrest⟩ := TreeNode.mem_paths_internal h
    rw [recordCodes]
    cases b
    case false =>
      have hnot : a ∉ r.symbols := fun hmem => hdisjoint a (List.mem_map_of_mem (f := (·.1)) hrest) a hmem rfl
      rw [read_recordCodes_of_not_mem hnot, ihl hl hrest, List.append_assoc, List.singleton_append]
    case true => rw [ihr hr hrest, List.append_assoc, List.singleton_append]

/-- `M` is the mapping of the tree: each leaf's symbol has the Code of its path, and no other symbol has one (R71, R72). -/
structure IsMappingOf (t : TreeNode) (M : Memory BitString) : Prop where
  wf : M.wf
  read_leaf : ∀ e ∈ t.paths, M.read e.1 = some (codeOfPath e.2)
  read_other : ∀ a, a ∉ t.symbols → M.read a = none

theorem buildCodeMapping_isMappingOf {t : TreeNode} (h : t.symbols.Nodup) :
    ∃ M, buildCodeMapping (some t) = .ok M ∧ IsMappingOf t M := by
  cases t with
  | leaf a w q =>
    refine ⟨_, rfl, List.pairwise_singleton _ _, fun e he => ?_, fun b hb => ?_⟩
    · obtain rfl := List.mem_singleton.mp he
      exact if_pos rfl
    · exact if_neg (by simpa [TreeNode.symbols_leaf] using hb)
  | internal w q l r =>
    refine ⟨_, rfl, recordCodes_wf .nil _ _, fun e he => ?_, fun a ha => read_recordCodes_of_not_mem ha _ _⟩
    rw [read_recordCodes_of_mem h he, codeOfPath_of_internal he, List.nil_append]

/-- A symbol with a Code is a leaf's, and its Code is that of the leaf's path. -/
theorem IsMappingOf.exists_path {t : TreeNode} {M : Memory BitString} (h : IsMappingOf t M) {a : Symbol} {c : BitString}
    (hread : M.read a = some c) : ∃ path, (a, path) ∈ t.paths ∧ c = codeOfPath path := by
  have hmem : a ∈ t.symbols := by
    by_contra hnot
    simp [h.read_other a hnot] at hread
  obtain ⟨⟨_, path⟩, hpath, rfl⟩ := List.mem_map.mp hmem
  exact ⟨path, hpath, Option.some.inj (hread.symm.trans (h.read_leaf _ hpath))⟩

/-- A symbol has a Code exactly when a leaf holds it. -/
theorem IsMappingOf.isSome_read_iff {t : TreeNode} {M : Memory BitString} (h : IsMappingOf t M) (a : Symbol) :
    (M.read a).isSome = true ↔ a ∈ t.symbols := by
  refine ⟨fun hsome => by_contra fun hnot => ?_, fun hmem => ?_⟩
  · simp [h.read_other a hnot] at hsome
  · obtain ⟨⟨_, path⟩, hpath, rfl⟩ := List.mem_map.mp hmem
    rw [h.read_leaf _ hpath, Option.isSome_some]

/-- No Code begins another symbol's (30_encoding.md R46). -/
theorem IsMappingOf.code_not_isPrefix {t : TreeNode} {M : Memory BitString} (h : IsMappingOf t M) {a b : Symbol} {c d : BitString}
    (hne : a ≠ b) (ha : M.read a = some c) (hb : M.read b = some d) : ¬ c <+: d := by
  obtain ⟨path, hpath, rfl⟩ := h.exists_path ha
  obtain ⟨path', hpath', rfl⟩ := h.exists_path hb
  cases t with
  | leaf s w q =>
    obtain ⟨rfl, -⟩ : a = s ∧ path = [] := by simpa [TreeNode.paths] using hpath
    obtain ⟨rfl, -⟩ : b = a ∧ path' = [] := by simpa [TreeNode.paths] using hpath'
    contradiction
  | internal w q l r =>
    rw [codeOfPath_of_internal hpath, codeOfPath_of_internal hpath']
    exact TreeNode.path_not_isPrefix hpath hpath' hne

/-- Settles O57: by induction over the tree, from the child the first bit selects. -/
theorem pathsArePrefixFree : Obligations.PathsArePrefixFree := fun _ =>
  ⟨fun _ he _ hf => TreeNode.path_not_isPrefix he hf, fun _ he => ⟨TreeNode.length_path_lt he, TreeNode.path_eq_nil_iff he⟩⟩

/-- Settles O56: the CodeMapper records each path behind the path to its subtree. -/
theorem codeMappingIsPaths : Obligations.CodeMappingIsPaths := by
  refine ⟨rfl, fun t h => ?_⟩
  obtain ⟨M, hM, hwf, hleaf, hother⟩ := buildCodeMapping_isMappingOf h
  exact ⟨M, hM, hwf, hleaf, hother⟩

end Sys2Proof.Machine
end

section
/-! PROOFS. The TreeBuilder (40_table_construction.md R66 to R69, R77): the queue, the merge loop and the induction over it, and the tree
it answers. -/

namespace Sys2Proof.Machine

/-! ### The queue -/

/-- `m` is not behind `n` in the queue's order: less weight, or the same and no greater insertion number (R67). -/
def NotBehind (m n : TreeNode) : Prop := m.weight < n.weight ∨ (m.weight = n.weight ∧ m.seq ≤ n.seq)

theorem NotBehind.trans {m n k : TreeNode} (h : NotBehind m n) (h' : NotBehind n k) : NotBehind m k := by
  unfold NotBehind at *
  omega

theorem notBehind_of_comesFirst {m n : TreeNode} (h : comesFirst m n = true) : NotBehind m n := by
  unfold NotBehind
  simp only [comesFirst, decide_eq_true_eq] at h
  omega

theorem notBehind_of_not_comesFirst {m n : TreeNode} (h : ¬ comesFirst m n = true) : NotBehind n m := by
  unfold NotBehind
  simp only [comesFirst, decide_eq_true_eq] at h
  omega

/-- What `removeMin` takes from a queue, and what it leaves. -/
theorem removeMin_spec {q : List TreeNode} {m : TreeNode} {rest : List TreeNode} (h : removeMin q = some (m, rest)) :
    q.Perm (m :: rest) ∧ rest.Sublist q ∧ ∀ n ∈ rest, NotBehind m n := by
  induction q generalizing m rest with
  | nil => exact nomatch h
  | cons t ts ih =>
    rw [removeMin] at h
    split at h
    case h_1 hempty =>
      obtain ⟨rfl, rfl⟩ := Prod.mk.inj (Option.some.inj h)
      rw [removeMin_eq_none_iff.mp hempty]
      exact ⟨.refl _, List.nil_sublist _, fun n hn => absurd hn List.not_mem_nil⟩
    case h_2 m' rest' hmin =>
      obtain ⟨hperm, hsub, hleast⟩ := ih hmin
      split at h
      case isTrue hfirst =>
        obtain ⟨rfl, rfl⟩ := Prod.mk.inj (Option.some.inj h)
        exact ⟨(hperm.cons t).trans (.swap ..), hsub.cons_cons t,
          List.forall_mem_cons.mpr ⟨notBehind_of_comesFirst hfirst, hleast⟩⟩
      case isFalse hlater =>
        obtain ⟨rfl, rfl⟩ := Prod.mk.inj (Option.some.inj h)
        have hmin' := notBehind_of_not_comesFirst hlater
        have hall : ∀ n ∈ m' :: rest', NotBehind t n := List.forall_mem_cons.mpr ⟨hmin', fun n hn => hmin'.trans (hleast n hn)⟩
        exact ⟨.refl _, List.sublist_cons_self t ts, fun n hn => hall n (hperm.mem_iff.mp hn)⟩

theorem exists_removeMin {q : List TreeNode} (h : q ≠ []) : ∃ m rest, removeMin q = some (m, rest) := by
  obtain ⟨⟨m, rest⟩, hmin⟩ := Option.ne_none_iff_exists'.mp (mt removeMin_eq_none_iff.mp h)
  exact ⟨m, rest, hmin⟩

/-! ### The merge loop -/

/-- `a` and `b` are the two first of the queue `q`, in this order, and `rest` is what is left of it. -/
structure TwoFirst (q : List TreeNode) (a b : TreeNode) (rest : List TreeNode) : Prop where
  perm : q.Perm (a :: b :: rest)
  sublist : rest.Sublist q
  first : NotBehind a b
  second : ∀ n ∈ rest, NotBehind b n

/-- The node that joins two others, the first to the left (R66). -/
def joined (seq : Nat) (a b : TreeNode) : TreeNode := .internal (a.weight + b.weight) seq a b

theorem mergeLoop_join (fuel seq : Nat) {q : List TreeNode} (hq : 2 ≤ q.length) :
    ∃ a b rest, TwoFirst q a b rest ∧ mergeLoop (fuel + 1) seq q = mergeLoop fuel (seq + 1) (rest ++ [joined seq a b]) := by
  obtain ⟨a, q', ha⟩ := exists_removeMin (q := q) (List.ne_nil_of_length_pos (by omega))
  obtain ⟨hperm, hsub, hfirst⟩ := removeMin_spec ha
  have hlength : q.length = q'.length + 1 := hperm.length_eq
  obtain ⟨b, rest, hb⟩ := exists_removeMin (q := q') (List.ne_nil_of_length_pos (by omega))
  obtain ⟨hperm', hsub', hsecond⟩ := removeMin_spec hb
  have hab : NotBehind a b := hfirst b (hperm'.mem_iff.mpr List.mem_cons_self)
  refine ⟨a, b, rest, ⟨hperm.trans (hperm'.cons a), hsub'.trans hsub, hab, hsecond⟩, ?_⟩
  rw [mergeLoop, ha]
  simp only [hb]
  rfl

/-- What every merge keeps holds of the one node left. -/
theorem mergeLoop_induct {P : Nat → List TreeNode → Prop}
    (hjoin : ∀ seq q a b rest, P seq q → TwoFirst q a b rest → P (seq + 1) (rest ++ [joined seq a b]))
    {fuel seq : Nat} {q : List TreeNode} (hq : q.length = fuel + 1) (h : P seq q) :
    ∃ t, mergeLoop (fuel + 1) seq q = some t ∧ P (seq + fuel) [t] := by
  induction fuel generalizing seq q with
  | zero =>
    obtain ⟨t, rfl⟩ := List.length_eq_one_iff.mp hq
    exact ⟨t, rfl, h⟩
  | succ fuel ih =>
    obtain ⟨a, b, rest, htwo, hloop⟩ := mergeLoop_join (fuel + 1) seq (q := q) (by omega)
    have hlength : q.length = rest.length + 1 + 1 := htwo.perm.length_eq
    obtain ⟨t, ht, hP⟩ := ih (q := rest ++ [joined seq a b]) (by simp; omega) (hjoin seq q a b rest h htwo)
    exact ⟨t, hloop.trans ht, by rwa [Nat.add_right_comm] at hP⟩

/-! ### The tree of a sequence -/

theorem getD_read_freqTable (S : List Symbol) (a : Symbol) : ((freqTable S).read a).getD 0 = S.count a := by
  rw [read_freqTable]
  split
  case isTrue => rfl
  case isFalse ha => exact (List.count_eq_zero_of_not_mem ha).symm

/-- The leaves the TreeBuilder begins with (R66, R69). -/
def firstLeaves (order S : List Symbol) : List TreeNode := leavesFrom 0 (order.map fun a => (a, S.count a))

theorem IsLeafOrder.ne_nil {order S : List Symbol} (h : IsLeafOrder order S) (hS : S ≠ []) : order ≠ [] := by
  obtain ⟨s, hs⟩ := List.exists_mem_of_ne_nil S hS
  exact List.ne_nil_of_mem ((h.2 s).mpr hs)

theorem leavesFrom_eq (k : Nat) (es : List (Symbol × Nat)) :
    leavesFrom k es = (es.zipIdx k).map fun e => .leaf e.1.1 e.1.2 e.2 := by
  induction es generalizing k with
  | nil => rfl
  | cons e es ih => rw [leavesFrom, ih, List.zipIdx_cons, List.map_cons]

/-- What every merge keeps holds of the tree when it holds of the leaves. -/
theorem buildTreeIn_induct {P : Nat → List TreeNode → Prop}
    (hjoin : ∀ seq q a b rest, P seq q → TwoFirst q a b rest → P (seq + 1) (rest ++ [joined seq a b]))
    {order S : List Symbol} (horder : IsLeafOrder order S) (hS : S ≠ []) (h : P order.length (firstLeaves order S)) :
    ∃ t, buildTreeIn order S = .ok t ∧ P (2 * order.length - 1) [t] := by
  obtain ⟨n, hn⟩ : ∃ n, order.length = n + 1 :=
    Nat.exists_eq_succ_of_ne_zero (mt List.length_eq_zero_iff.mp (horder.ne_nil hS))
  have hlength : (firstLeaves order S).length = n + 1 := by simp [firstLeaves, leavesFrom_eq, hn]
  obtain ⟨t, ht, hP⟩ := mergeLoop_induct hjoin hlength h
  have hloop : mergeLoop order.length order.length (firstLeaves order S) = some t := (congrFun₂ (congrArg mergeLoop hn) _ _).trans ht
  have hcounts : ((order.map fun a => (a, S.count a)).any fun e => decide (e.2 = 0)) = false := by
    simpa [List.count_eq_zero] using fun a ha => (horder.2 a).mp ha
  refine ⟨t, ?_, by rwa [show 2 * order.length - 1 = order.length + n by omega]⟩
  rw [buildTreeIn, if_neg hS]
  simp only [getD_read_freqTable]
  rw [treeBuilder, hcounts, List.length_map, ← firstLeaves, hloop]
  rfl

/-! ### What the merges keep -/

theorem TreeNode.indices_leaf (a w q : Nat) : (TreeNode.leaf a w q).indices = [q] := rfl

theorem TreeNode.indices_internal (w q : Nat) (l r : TreeNode) :
    (TreeNode.internal w q l r).indices = l.indices ++ r.indices ++ [q] := by
  rw [TreeNode.indices, TreeNode.nodes, List.map_append, List.map_append]
  rfl

/-- The queue of the TreeBuilder on `S` when `seq` is the next insertion number. -/
structure Forest (order S : List Symbol) (seq : Nat) (q : List TreeNode) : Prop where
  symbols : (q.flatMap TreeNode.symbols).Perm order
  indices : (q.flatMap TreeNode.indices).Perm (List.range seq)
  weightsAdd : ∀ t ∈ q, t.WeightsAdd
  weight : (q.map TreeNode.weight).sum = (order.map S.count).sum
  leaves : ∀ t ∈ q, ∀ a w i, .leaf a w i ∈ t.nodes → w = S.count a ∧ order[i]? = some a
  newest : ∃ t ∈ q, t.seq + 1 = seq

/-- What a join does to a list read off the queue node by node. -/
theorem TwoFirst.flatMap_join {α : Type} {f : TreeNode → List α} {q rest : List TreeNode} {a b j : TreeNode} {new : List α}
    (h : TwoFirst q a b rest) (hj : f j = f a ++ f b ++ new) : ((rest ++ [j]).flatMap f).Perm (q.flatMap f ++ new) := by
  have hqueue : (q.flatMap f).Perm (f a ++ f b ++ rest.flatMap f) := by simpa using h.perm.flatMap_right f
  rw [List.flatMap_append, List.flatMap_singleton, hj, ← List.append_assoc]
  exact (List.perm_append_comm.trans hqueue.symm).append_right new

theorem Forest.join {order S : List Symbol} {seq : Nat} {q : List TreeNode} {a b : TreeNode} {rest : List TreeNode}
    (h : Forest order S seq q) (htwo : TwoFirst q a b rest) : Forest order S (seq + 1) (rest ++ [joined seq a b]) := by
  have hmem : ∀ {t}, t = a ∨ t = b ∨ t ∈ rest → t ∈ q := fun ht => htwo.perm.mem_iff.mpr (by simpa using ht)
  refine ⟨?symbols, ?indices, ?weightsAdd, ?weight, ?leaves, joined seq a b, by simp, rfl⟩
  case symbols =>
    have hjoined : (joined seq a b).symbols = a.symbols ++ b.symbols ++ [] := by
      rw [joined, TreeNode.symbols_internal, List.append_nil]
    exact (htwo.flatMap_join hjoined).trans (by simpa using h.symbols)
  case indices =>
    rw [List.range_succ]
    exact (htwo.flatMap_join (TreeNode.indices_internal ..)).trans (h.indices.append_right [seq])
  case weightsAdd =>
    intro t ht
    obtain ht | rfl : t ∈ rest ∨ t = joined seq a b := by simpa using ht
    · exact h.weightsAdd t (hmem (.inr (.inr ht)))
    · exact ⟨rfl, h.weightsAdd a (hmem (.inl rfl)), h.weightsAdd b (hmem (.inr (.inl rfl)))⟩
  case weight =>
    rw [← h.weight, (htwo.perm.map TreeNode.weight).sum_eq]
    simp only [List.map_append, List.sum_append, List.map_cons, List.sum_cons, List.map_nil, List.sum_nil, joined, TreeNode.weight]
    omega
  case leaves =>
    intro t ht s w i hleaf
    obtain ht | rfl : t ∈ rest ∨ t = joined seq a b := by simpa using ht
    · exact h.leaves t (hmem (.inr (.inr ht))) s w i hleaf
    · obtain hleaf | hleaf : .leaf s w i ∈ a.nodes ∨ .leaf s w i ∈ b.nodes := by simpa [joined, TreeNode.nodes] using hleaf
      · exact h.leaves a (hmem (.inl rfl)) s w i hleaf
      · exact h.leaves b (hmem (.inr (.inl rfl))) s w i hleaf

theorem firstLeaves_eq (order S : List Symbol) :
    firstLeaves order S = order.zipIdx.map fun e => .leaf e.1 (S.count e.1) e.2 := by
  rw [firstLeaves, leavesFrom_eq, List.zipIdx_map, List.map_map]
  rfl

theorem map_weight_firstLeaves (order S : List Symbol) : (firstLeaves order S).map TreeNode.weight = order.map S.count := by
  conv_rhs => rw [← List.zipIdx_map_fst 0 order]
  rw [firstLeaves_eq, List.map_map, List.map_map]
  rfl

/-- The first leaves are the symbols of the order, numbered by their place in it (R69). -/
theorem mem_firstLeaves {order S : List Symbol} {t : TreeNode} :
    t ∈ firstLeaves order S ↔ ∃ a i, order[i]? = some a ∧ t = .leaf a (S.count a) i := by
  simp only [firstLeaves_eq, List.mem_map, List.mem_zipIdx_iff_getElem?, Prod.exists, eq_comm]

theorem Forest.start {order S : List Symbol} (h : order ≠ []) : Forest order S order.length (firstLeaves order S) := by
  have hleaf : ∀ t ∈ firstLeaves order S, ∃ a i, order[i]? = some a ∧ t = .leaf a (S.count a) i := fun _ => mem_firstLeaves.mp
  refine ⟨?symbols, ?indices, ?weightsAdd, ?weight, ?leaves, ?newest⟩
  case symbols =>
    rw [firstLeaves_eq, List.flatMap_map]
    simp only [TreeNode.symbols_leaf, ← List.map_eq_flatMap, List.zipIdx_map_fst]
    exact .refl order
  case indices =>
    rw [firstLeaves_eq, List.flatMap_map]
    simp only [TreeNode.indices_leaf, ← List.map_eq_flatMap, List.zipIdx_map_snd, List.range_eq_range']
    exact .refl _
  case weightsAdd =>
    intro t ht
    obtain ⟨a, i, -, rfl⟩ := hleaf t ht
    trivial
  case weight =>
    rw [map_weight_firstLeaves]
  case leaves =>
    intro t ht a w i hmem
    obtain ⟨s, j, hs, rfl⟩ := hleaf t ht
    obtain ⟨rfl, rfl, rfl⟩ : a = s ∧ w = S.count s ∧ i = j := by simpa [TreeNode.nodes] using hmem
    exact ⟨rfl, hs⟩
  case newest =>
    have hpos := List.length_pos_of_ne_nil h
    refine ⟨_, mem_firstLeaves.mpr ⟨order[order.length - 1], _, List.getElem?_eq_getElem (by omega), rfl⟩, ?_⟩
    rw [TreeNode.seq]
    omega

/-- A LEAF_ORDER lists what the frequency table does (R65, R69). -/
theorem IsLeafOrder.freqTable_perm {order S : List Symbol} (h : IsLeafOrder order S) :
    (freqTable S).Perm (order.map fun a => (a, S.count a)) := by
  obtain ⟨hnodup, hmem⟩ := h
  have hkeys : ((order.map fun a => (a, S.count a)).map (·.1)).Nodup := by simpa [List.map_map, Function.comp_def] using hnodup
  have hfreq : (freqTable S).Nodup := .of_map _ (Memory.nodup_indices (freqTable_wf S))
  refine (List.perm_ext_iff_of_nodup hfreq (.of_map _ hkeys)).mpr fun ⟨a, n⟩ => ?_
  rw [← Memory.read_eq_some_iff (freqTable_wf S), read_freqTable]
  by_cases ha : a ∈ S <;> simp [ha, hmem]

/-- The counts sum to the length (R65). -/
theorem IsLeafOrder.sum_count {order S : List Symbol} (h : IsLeafOrder order S) : (order.map S.count).sum = S.length := by
  rw [← sum_freqTable, (h.freqTable_perm.map (·.2)).sum_eq, List.map_map]
  rfl

/-- What the TreeBuilder answers for `S` and the LEAF_ORDER `order`. -/
structure IsTreeOf (order S : List Symbol) (t : TreeNode) : Prop where
  symbols : t.symbols.Perm order
  indices : t.indices.Perm (List.range (2 * order.length - 1))
  seq : t.seq = 2 * order.length - 2
  weightsAdd : t.WeightsAdd
  weight : t.weight = S.length
  leaves : ∀ a w i, .leaf a w i ∈ t.nodes → w = S.count a ∧ order[i]? = some a

theorem buildTreeIn_isTreeOf {order S : List Symbol} (horder : IsLeafOrder order S) (hS : S ≠ []) :
    ∃ t, buildTreeIn order S = .ok t ∧ IsTreeOf order S t := by
  obtain ⟨t, ht, hforest⟩ := buildTreeIn_induct (fun _ _ _ _ _ h htwo => Forest.join h htwo) horder hS (.start (horder.ne_nil hS))
  obtain ⟨hsymbols, hindices, hadd, hweight, hleaves, hnewest⟩ := hforest
  have hself : t ∈ [t] := List.mem_singleton_self t
  obtain ⟨t', ht', hseq⟩ := hnewest
  obtain rfl := List.mem_singleton.mp ht'
  exact ⟨t', ht, by simpa using hsymbols, by simpa using hindices, by omega, hadd t' hself,
    by simpa [horder.sum_count] using hweight, hleaves t' hself⟩

theorem buildTreeIn_nil (order : List Symbol) : buildTreeIn order [] = .error .emptyInput := rfl

/-- Settles O54: by induction over the queue. -/
theorem removeMinTakesFirst : Obligations.RemoveMinTakesFirst := by
  refine ⟨rfl, fun q hq => ?_⟩
  obtain ⟨m, rest, h⟩ := exists_removeMin hq
  exact ⟨m, rest, h, removeMin_spec h⟩

/-- Settles O55: two nodes are taken from the queue and joined; the tree by the induction over the merges. -/
theorem buildTreeGivesHuffmanTree : Obligations.BuildTreeGivesHuffmanTree := by
  refine ⟨fun _ _ _ => rfl, fun fuel seq q hq => ?merge, buildTreeIn_nil, fun order S horder hS => ?tree⟩
  case merge =>
    obtain ⟨a, b, rest, ⟨hperm, hsub, hfirst, hsecond⟩, hloop⟩ := mergeLoop_join fuel seq hq
    exact ⟨a, b, rest, hperm, hsub, hfirst, hsecond, hloop⟩
  case tree =>
    obtain ⟨t, ht, hsymbols, hindices, hseq, hadd, hweight, hleaves⟩ := buildTreeIn_isTreeOf horder hS
    exact ⟨t, ht, hsymbols, hindices, hseq, hadd, hweight, hleaves⟩

end Sys2Proof.Machine
end

section
/-! PROOFS. The properties of what the procedures build (40_table_construction.md R78, R79): the round trip, the optimality of the code
and the consistency of the images. -/

namespace Sys2Proof.Machine

/-- For a non-empty sequence the tree and its mapping exist. -/
theorem exists_tree_and_mapping {order S : List Symbol} (horder : IsLeafOrder order S) (hS : S ≠ []) :
    ∃ t M, buildTreeIn order S = .ok t ∧ IsTreeOf order S t ∧ buildCodeMapping (some t) = .ok M ∧ IsMappingOf t M := by
  obtain ⟨t, ht, htree⟩ := buildTreeIn_isTreeOf horder hS
  obtain ⟨M, hM, hmap⟩ := buildCodeMapping_isMappingOf (htree.symbols.nodup_iff.mpr horder.1)
  exact ⟨t, M, ht, htree, hM, hmap⟩

theorem IsTreeOf.mem_symbols_iff {order S : List Symbol} {t : TreeNode} (horder : IsLeafOrder order S) (h : IsTreeOf order S t)
    (a : Symbol) : a ∈ t.symbols ↔ a ∈ S := h.symbols.mem_iff.trans (horder.2 a)

/-- Every symbol of the sequence has the Code of its leaf's path. -/
theorem IsTreeOf.exists_path {order S : List Symbol} {t : TreeNode} (horder : IsLeafOrder order S) (h : IsTreeOf order S t) {a : Symbol}
    (ha : a ∈ S) : ∃ path, (a, path) ∈ t.paths := by
  obtain ⟨⟨_, path⟩, hpath, rfl⟩ := List.mem_map.mp ((h.mem_symbols_iff horder a).mpr ha)
  exact ⟨path, hpath⟩

/-- The sequence is encoded, and the encoding decodes to it. -/
theorem exists_encoding {order S : List Symbol} {t : TreeNode} {M : Memory BitString} (horder : IsLeafOrder order S)
    (htree : IsTreeOf order S t) (hmap : IsMappingOf t M) : ∃ x, refEncode M S = .ok x ∧ refDecode x (some t) = .ok S :=
  refDecode_refEncode fun _ ha =>
    have ⟨path, hpath⟩ := htree.exists_path horder ha
    ⟨path, hpath, hmap.read_leaf _ hpath⟩

/-- Settles O58: every symbol has its leaf's Code, so the reference encoder and decoder are inverse. -/
theorem referenceRoundTrip : Obligations.ReferenceRoundTrip := by
  intro order S horder hS
  obtain ⟨t, M, ht, htree, hM, hmap⟩ := exists_tree_and_mapping horder hS
  obtain ⟨x, hx, hback⟩ := exists_encoding horder htree hmap
  exact ⟨t, M, x, ht, hM, hx, hback⟩

/-! ### Encoded lengths -/

/-- The Code a mapping gives a symbol, none being the empty one. -/
def codeOf (C : Memory BitString) (a : Symbol) : BitString := (C.read a).getD []

theorem codeOf_of_read {C : Memory BitString} {a : Symbol} {c : BitString} (h : C.read a = some c) : codeOf C a = c := by
  rw [codeOf, h, Option.getD_some]

/-- The total encoded length, summed over the LEAF_ORDER. -/
theorem encodedLength_freqTable {order S : List Symbol} (h : IsLeafOrder order S) (C : Memory BitString) :
    encodedLength (freqTable S) C = (order.map fun a => S.count a * (codeOf C a).length).sum := by
  rw [encodedLength, (h.freqTable_perm.map _).sum_eq, List.map_map]
  rfl

/-- The length of an encoding is the sum of its Codes' lengths. -/
theorem length_of_refEncode {M : Memory BitString} {S : List Symbol} {x : BitString} (h : refEncode M S = .ok x) :
    x.length = (S.map fun a => (codeOf M a).length).sum := by
  induction S generalizing x with
  | nil =>
    obtain rfl : [] = x := Except.ok.inj h
    rfl
  | cons a S ih =>
    obtain ⟨c, y, hc, hy, rfl⟩ := refEncode_cons_ok_iff.mp h
    rw [List.map_cons, List.sum_cons, codeOf_of_read hc, List.length_append, ih hy]

/-- A sum over a sequence counts each symbol of the LEAF_ORDER as often as it occurs. -/
theorem sum_map_eq_sum_count {order S : List Symbol} (h : IsLeafOrder order S) (f : Symbol → Nat) :
    (S.map f).sum = (order.map fun a => S.count a * f a).sum := by
  obtain ⟨hnodup, hmem⟩ := h
  have hset : S.toFinset = order.toFinset := Finset.ext fun a => by simp [hmem]
  rw [Finset.sum_list_map_count, hset, List.sum_toFinset _ hnodup]
  rfl

/-- The encoded message has the total encoded length of the code (R79). -/
theorem length_eq_encodedLength {order S : List Symbol} (h : IsLeafOrder order S) {M : Memory BitString} {x : BitString}
    (hx : refEncode M S = .ok x) : x.length = encodedLength (freqTable S) M := by
  rw [length_of_refEncode hx, sum_map_eq_sum_count h, encodedLength_freqTable h]

/-! ### Optimality -/

theorem mem_keys_freqTable {S : List Symbol} {a : Symbol} : a ∈ (freqTable S).map (·.1) ↔ a ∈ S := by
  constructor
  · intro h
    obtain ⟨⟨_, n⟩, he, rfl⟩ := List.mem_map.mp h
    have hread := Memory.read_of_mem (freqTable_wf S) he
    rw [read_freqTable] at hread
    by_contra hnot
    simp [hnot] at hread
  · intro h
    have hread : (freqTable S).read a = some (S.count a) := by rw [read_freqTable, if_pos h]
    exact List.mem_map_of_mem (f := (·.1)) (Memory.mem_of_read hread)

/-- What `IsCodeFor` asks of a code, said of the symbols of the sequence. -/
theorem isCodeFor_freqTable_iff {S : List Symbol} {C : Memory BitString} :
    IsCodeFor (freqTable S) C ↔
      (∀ a ∈ S, ∃ c, C.read a = some c ∧ c ≠ []) ∧
      ∀ a ∈ S, ∀ b ∈ S, a ≠ b → ∀ c d, C.read a = some c → C.read b = some d → ¬ c <+: d := by
  have hkeys : ∀ P : Symbol → Prop, (∀ e ∈ freqTable S, P e.1) ↔ ∀ a ∈ S, P a := fun P =>
    List.forall_mem_map.symm.trans (forall_congr' fun a => imp_congr_left mem_keys_freqTable)
  unfold IsCodeFor
  rw [hkeys fun a => ∃ c, C.read a = some c ∧ c ≠ [],
    hkeys fun a => ∀ f ∈ freqTable S, a ≠ f.1 → ∀ c d, C.read a = some c → C.read f.1 = some d → ¬ c <+: d]
  exact and_congr_right fun _ => forall₂_congr fun a _ =>
    hkeys fun b => a ≠ b → ∀ c d, C.read a = some c → C.read b = some d → ¬ c <+: d

/-- The mapping of the tree is a code for the sequence: its Codes are not empty and none begins another (R46, R72). -/
theorem isCodeFor_mapping {order S : List Symbol} {t : TreeNode} {M : Memory BitString} (horder : IsLeafOrder order S)
    (htree : IsTreeOf order S t) (hmap : IsMappingOf t M) : IsCodeFor (freqTable S) M := by
  refine isCodeFor_freqTable_iff.mpr ⟨fun a ha => ?_, fun a _ b _ hne c d => hmap.code_not_isPrefix hne⟩
  obtain ⟨path, hpath⟩ := htree.exists_path horder ha
  exact ⟨codeOfPath path, hmap.read_leaf _ hpath, codeOfPath_ne_nil path⟩

theorem NotBehind.weight_le {m n : TreeNode} (h : NotBehind m n) : m.weight ≤ n.weight := by
  unfold NotBehind at h
  omega

/-- The nodes of the queue can be given code lengths that, with what the joins so far cost, cost no more than `cost`. -/
def CanCost (cost : Nat) (q : List TreeNode) : Prop :=
  ∃ P : List (Nat × Nat), q.map TreeNode.weight = P.map Prod.fst ∧ kraft (P.map Prod.snd) ≤ 1 ∧
    (q.map TreeNode.innerWeight).sum + codeCost P ≤ cost

theorem codeCost_perm {P P' : List (Nat × Nat)} (h : P.Perm P') : codeCost P = codeCost P' := (h.map _).sum_eq

theorem codeCost_append (P P' : List (Nat × Nat)) : codeCost (P ++ P') = codeCost P + codeCost P' := by
  simp [codeCost]

/-- A join costs nothing more: the two first are given the longest codes, which end in one bit. -/
theorem CanCost.join {cost seq : Nat} {q rest : List TreeNode} {a b : TreeNode} (h : CanCost cost q) (htwo : TwoFirst q a b rest) :
    CanCost cost (rest ++ [joined seq a b]) := by
  obtain ⟨P₀, hweights₀, hkraft₀, hcost₀⟩ := h
  have hweights : ((a :: b :: rest).map TreeNode.weight).Perm (P₀.map Prod.fst) :=
    hweights₀ ▸ htwo.perm.symm.map TreeNode.weight
  obtain ⟨P, hP, hperm⟩ := (congrFun₂ (List.eq_map_comp_perm Prod.fst) _ P₀).mpr hweights
  obtain ⟨⟨_, la⟩, P', rfl, rfl, hP'⟩ := List.map_eq_cons_iff.mp hP.symm
  obtain ⟨⟨_, lb⟩, R, rfl, rfl, hR⟩ := List.map_eq_cons_iff.mp hP'
  have hab : a.weight ≤ b.weight := htwo.first.weight_le
  have hleast : ∀ e ∈ R, b.weight ≤ e.1 := by
    intro e he
    obtain ⟨n, hn, hweight⟩ := List.mem_map.mp (hR ▸ List.mem_map_of_mem (f := Prod.fst) he)
    exact hweight ▸ (htwo.second n hn).weight_le
  have hkraft : kraft (la :: lb :: R.map Prod.snd) ≤ 1 := (kraft_perm (hperm.map Prod.snd)).trans_le hkraft₀
  obtain ⟨l, R', hfst, hkraft', hcost⟩ := merge_least hab hleast hkraft
  refine ⟨R' ++ [(a.weight + b.weight, l)], ?weights, ?kraft, ?cost⟩
  case weights => simp [joined, TreeNode.weight, hfst, hR]
  case kraft => simpa [add_comm] using hkraft'
  case cost =>
    have hinner : (q.map TreeNode.innerWeight).sum = a.innerWeight + (b.innerWeight + (rest.map TreeNode.innerWeight).sum) :=
      (htwo.perm.map _).sum_eq
    have hcosts := codeCost_perm hperm
    simp only [codeCost_cons] at hcosts
    simp only [List.map_append, List.sum_append, List.map_cons, List.map_nil, List.sum_cons, List.sum_nil, joined, TreeNode.innerWeight,
      codeCost_append, codeCost_cons, codeCost_nil]
    rw [Nat.mul_add] at hcost
    omega

/-- The first leaves can be given the lengths of any code. -/
theorem CanCost.start {order S : List Symbol} {C : Memory BitString} (horder : IsLeafOrder order S) (hC : IsCodeFor (freqTable S) C) :
    CanCost (encodedLength (freqTable S) C) (firstLeaves order S) := by
  obtain ⟨hread, hfree⟩ := isCodeFor_freqTable_iff.mp hC
  refine ⟨order.map fun a => (S.count a, (codeOf C a).length), ?weights, ?kraft, ?cost⟩
  case weights =>
    rw [map_weight_firstLeaves, List.map_map]
    rfl
  case kraft =>
    have hincomparable : (order.map (codeOf C)).Pairwise Incomparable := by
      refine List.pairwise_map.mpr (horder.1.imp_of_mem fun {a b} ha hb hne => ?_)
      have haS := (horder.2 a).mp ha
      have hbS := (horder.2 b).mp hb
      obtain ⟨c, hc, -⟩ := hread a haS
      obtain ⟨d, hd, -⟩ := hread b hbS
      rw [codeOf_of_read hc, codeOf_of_read hd]
      exact ⟨hfree a haS b hbS hne c d hc hd, hfree b hbS a haS hne.symm d c hd hc⟩
    have hle := kraft_le_one hincomparable
    rwa [List.map_map] at hle ⊢
  case cost =>
    have hzero : ((firstLeaves order S).map TreeNode.innerWeight).sum = 0 := by
      refine List.sum_eq_zero fun n hn => ?_
      obtain ⟨t, ht, rfl⟩ := List.mem_map.mp hn
      obtain ⟨a, i, -, rfl⟩ := mem_firstLeaves.mp ht
      rfl
    rw [hzero, Nat.zero_add, encodedLength_freqTable horder, codeCost, List.map_map]
    rfl

/-- The Internal weights of the tree sum to no more than the total length of any code. -/
theorem innerWeight_le_encodedLength {order S : List Symbol} {t : TreeNode} {C : Memory BitString} (horder : IsLeafOrder order S)
    (hS : S ≠ []) (ht : buildTreeIn order S = .ok t) (hC : IsCodeFor (freqTable S) C) :
    t.innerWeight ≤ encodedLength (freqTable S) C := by
  obtain ⟨t', ht', P, -, -, hcost⟩ :=
    buildTreeIn_induct (P := fun _ => CanCost _) (fun _ _ _ _ _ h htwo => h.join htwo) horder hS (.start horder hC)
  obtain rfl := Except.ok.inj (ht.symm.trans ht')
  exact le_trans (by simp) hcost

/-- The total length of the tree's own code, leaf by leaf. -/
theorem encodedLength_mapping {order S : List Symbol} {t : TreeNode} {M : Memory BitString} (horder : IsLeafOrder order S)
    (htree : IsTreeOf order S t) (hmap : IsMappingOf t M) :
    encodedLength (freqTable S) M = (t.paths.map fun e => S.count e.1 * (codeOfPath e.2).length).sum := by
  rw [encodedLength_freqTable horder, ← (htree.symbols.map _).sum_eq, TreeNode.symbols, List.map_map]
  refine congrArg List.sum (List.map_congr_left fun e he => ?_)
  rw [Function.comp_apply, codeOf_of_read (hmap.read_leaf e he)]

/-- No code for the sequence is shorter in total than the tree's. -/
theorem encodedLength_mapping_le {order S : List Symbol} {t : TreeNode} {M C : Memory BitString} (horder : IsLeafOrder order S)
    (hS : S ≠ []) (ht : buildTreeIn order S = .ok t) (htree : IsTreeOf order S t) (hmap : IsMappingOf t M)
    (hC : IsCodeFor (freqTable S) C) : encodedLength (freqTable S) M ≤ encodedLength (freqTable S) C := by
  rw [encodedLength_mapping horder htree hmap]
  cases t with
  | leaf a w q =>
    obtain rfl : order = [a] := List.perm_singleton.mp htree.symbols.symm
    obtain ⟨hread, -⟩ := isCodeFor_freqTable_iff.mp hC
    obtain ⟨c, hc, hne⟩ := hread a ((horder.2 a).mp (List.mem_singleton_self a))
    rw [encodedLength_freqTable horder]
    simp only [TreeNode.paths, List.map_cons, List.map_nil, List.sum_singleton, codeOf_of_read hc]
    exact Nat.mul_le_mul_left _ (List.length_pos_of_ne_nil hne)
  | internal w q l r =>
    have hlengths : ∀ e ∈ (TreeNode.internal w q l r).paths, S.count e.1 * (codeOfPath e.2).length = S.count e.1 * e.2.length :=
      fun e he => by rw [codeOfPath_of_internal he]
    have hinner := innerWeight_eq_paths S.count htree.weightsAdd fun a w q h => (htree.leaves a w q h).1
    rw [List.map_congr_left hlengths, hinner.2]
    exact innerWeight_le_encodedLength horder hS ht hC

/-- Settles O59: the joins of the TreeBuilder cost no code anything, and the known example by evaluation. -/
theorem huffmanCodeIsOptimal : Obligations.HuffmanCodeIsOptimal := by
  refine ⟨fun order S horder hS => ?optimal, ?known⟩
  case optimal =>
    obtain ⟨t, M, ht, htree, hM, hmap⟩ := exists_tree_and_mapping horder hS
    obtain ⟨x, hx, -⟩ := exists_encoding horder htree hmap
    exact ⟨t, M, x, ht, hM, hx, length_eq_encodedLength horder hx, ⟨M, isCodeFor_mapping horder htree hmap, rfl⟩,
      fun C hC => encodedLength_mapping_le horder hS ht htree hmap hC⟩
  case known => exact ⟨_, _, _, rfl, rfl, rfl, rfl, rfl, by decide⟩

/-! ### Consistency -/

/-- The Codes of the tree have lengths CT can hold (R76). -/
theorem IsTreeOf.length_code_le {order S : List Symbol} {t : TreeNode} {M : Memory BitString} {n : Nat} (htree : IsTreeOf order S t)
    (hmap : IsMappingOf t M) (hpos : 1 ≤ n) (hn : order.length ≤ n + 1) {e : Symbol × BitString} (he : e ∈ M) :
    1 ≤ e.2.length ∧ e.2.length ≤ n := by
  obtain ⟨path, hpath, hcode⟩ := hmap.exists_path (Memory.read_of_mem hmap.wf he)
  rw [hcode]
  refine ⟨List.length_pos_of_ne_nil (codeOfPath_ne_nil path), ?_⟩
  have hlt := TreeNode.length_path_lt hpath
  rw [htree.symbols.length_eq] at hlt
  unfold codeOfPath
  split
  · exact hpos
  · simp only at hlt
    omega

/-- A state that holds the images of the tree and its mapping is CONSISTENT with the tree (R78). -/
theorem consistentAs_of_images {order S : List Symbol} {t : TreeNode} {M : Memory BitString} {s : State} (horder : IsLeafOrder order S)
    (htree : IsTreeOf order S t) (hmap : IsMappingOf t M) (hct : ctImage s.params M = some s.ct) (htm : s.tm = tmImage t)
    (hv : s.rootV = true) (hidx : s.rootIdx = t.seq) : ConsistentAs s t := by
  have hindices : t.indices.Nodup := htree.indices.nodup_iff.mpr List.nodup_range
  have hread : ∀ a, (s.ct.read a).map CtEntry.bits = M.read a := fun a => by rw [← read_mappingOf, mappingOf_ctImage hct]
  obtain ⟨hlen, htable⟩ := ctImage_eq_some_iff.mp hct
  have hentry : ∀ e ∈ s.ct, M.read e.1 = some e.2.bits := by
    intro e he
    rw [← hread, Memory.read_of_mem (htable ▸ wf_map hmap.wf _) he, Option.map_some]
  refine ⟨⟨hv, hidx, htm ▸ heldBy_tmImage hindices, hindices, htree.symbols.nodup_iff.mpr horder.1⟩, ⟨?lengths, .inr ?free⟩, ?syms,
    ?codes⟩
  case lengths =>
    intro e he
    rw [htable] at he
    obtain ⟨e', he', rfl⟩ := List.mem_map.mp he
    exact hlen e' he'
  case free => exact fun a ha b hb hne => hmap.code_not_isPrefix hne (hentry a ha) (hentry b hb)
  case syms =>
    intro a
    rw [← hmap.isSome_read_iff, ← hread, Option.isSome_map]
  case codes =>
    intro e he c hc
    have hcode := hread e.1
    rw [hc, hmap.read_leaf e he] at hcode
    exact Option.some.inj hcode

/-- Settles O60: the Codes fit CT, and the images hold the tree and its mapping. -/
theorem builtImagesAreConsistent : Obligations.BuiltImagesAreConsistent := by
  intro order S t M p horder hS ht hM
  obtain ⟨t', M', ht', htree, hM', hmap⟩ := exists_tree_and_mapping horder hS
  obtain rfl := Except.ok.inj (ht.symm.trans ht')
  obtain rfl := Except.ok.inj (hM.symm.trans hM')
  refine ⟨fun hpos hn => ?exist, fun s ct hp himage hct htm hv hidx => ?consistent⟩
  case exist => exact ⟨_, ctImage_eq_some_iff.mpr ⟨fun e he => htree.length_code_le hmap hpos hn he, rfl⟩⟩
  case consistent => exact consistentAs_of_images horder htree hmap (by rw [hp, himage, hct]) htm hv hidx

end Sys2Proof.Machine
end

section
/-! PROOFS. What an op can do to the units (10_state.md R21, 60_exceptions.md R130, R135): the CLR ops, the fault codes, the states of a
unit, the events. -/

namespace Sys2Proof.Machine

/-- The only op that takes a unit out of FAULTED is its CLR op (R135). -/
theorem eq_clrOp_of_leaves_faulted {i : Instr} {s t : State} (u : BlockUnit) (h : exec i s = .next t) (hs : s.err u ≠ none)
    (ht : t.err u = none) : i = clrOp u ∧ t = clearUnit u .clr s := by
  obtain hkept | ⟨f, hnone, -⟩ | hclr := exec_err_cases u h
  · exact absurd (hkept ▸ ht) hs
  · contradiction
  · exact hclr

/-- Settles O9: the encoder's reset state from every state, and R135 for the encoder. -/
theorem clrencClearsEncoder : Obligations.ClrencClearsEncoder := by
  refine ⟨fun s => ?_, fun i s t h hs ht => (eq_clrOp_of_leaves_faulted .enc h hs ht).1⟩
  have hreset : EncoderReset (clearUnit .enc .clr s) := unitReset_clearUnit .enc .clr s
  exact ⟨rfl, _, rfl, rfl, history_append_clr s.ebLog, hreset.encStat_eq_zero, hreset.read_ct, hreset⟩

/-- Settles O12: the decoder's reset state from every state, and R135 for the decoder. -/
theorem clrdecClearsDecoder : Obligations.ClrdecClearsDecoder := by
  refine ⟨fun s => ?_, fun i s t h hs ht => (eq_clrOp_of_leaves_faulted .dec h hs ht).1⟩
  have hreset : DecoderReset (clearUnit .dec .clr s) := unitReset_clearUnit .dec .clr s
  exact ⟨rfl, _, rfl, rfl, history_append_clr s.dsLog, hreset.decStat_eq_zero, rfl, hreset.read_tm, hreset⟩

/-! ### Fault codes -/

/-- A fault an op newly raises in a unit is one of those raised in it (R130). -/
theorem raisedIn_of_newly_raised {i : Instr} {s t : State} {f : FaultCode} (u : BlockUnit) (h : exec i s = .next t)
    (hs : s.err u = none) (ht : t.err u = some f) : f.raisedIn u = true := by
  cases exec_effect h <;> cases u
  case encFault.enc g hg hi he => exact Option.some.inj ht ▸ hg
  case decFault.dec g hg hi he => exact Option.some.inj ht ▸ hg
  case clrenc.enc | clrdec.dec => exact absurd ht (Option.some_ne_none f).symm
  all_goals exact absurd (hs.symm.trans ht) (Option.some_ne_none f).symm

theorem raisedIn_enc_iff {f : FaultCode} :
    f.raisedIn .enc = true ↔ f = .argument ∨ f = .unknownSymbol ∨ f = .tableBusy ∨ f = .illegalOp := by
  cases f <;> decide

theorem raisedIn_dec_iff {f : FaultCode} : f.raisedIn .dec = true ↔ f = .argument ∨ f = .malformed ∨ f = .tableBusy := by
  cases f <;> decide

/-- Settles O23: the codes by definition, and the faults each unit raises. -/
theorem faultCodesAreNumbered : Obligations.FaultCodesAreNumbered :=
  ⟨rfl, rfl, rfl, rfl, rfl, rfl, fun _ _ _ _ h hs ht => raisedIn_enc_iff.mp (raisedIn_of_newly_raised .enc h hs ht),
    fun _ _ _ _ h hs ht => raisedIn_dec_iff.mp (raisedIn_of_newly_raised .dec h hs ht)⟩

/-! ### The states of a unit -/

/-- A unit's ACTIVE bit. -/
def State.active (s : State) : BlockUnit → Bool
  | .enc => s.encActive
  | .dec => s.decActive

theorem State.unitState_eq (s : State) (u : BlockUnit) : s.unitState u = unitStateOf (s.err u) (s.active u) := by
  cases u <;> rfl

/-- A unit's End op. -/
def endOp : BlockUnit → Instr
  | .enc => .encend
  | .dec => .decend

/-- The ops that open a message: an ENCSYM whose symbol has an entry, and a DECBIT. -/
def Opens (s : State) : BlockUnit → Instr → Prop
  | .enc, i => ∃ sym e, i = .encsym sym ∧ s.ct.read sym = some e
  | .dec, i => ∃ b, i = .decbit b

theorem opens_of_activates {i : Instr} {s t : State} (u : BlockUnit) (h : exec i s = .next t) (hs : s.active u = false)
    (ht : t.active u = true) : Opens s u i := by
  cases exec_effect h <;> cases u
  case encsym.enc sym e hc he hr => exact ⟨sym, e, rfl, hr⟩
  case decbitSingleton.dec b sym he hv hr => exact ⟨b, rfl⟩
  case decbitToLeaf.dec b l r left right sym he hv hr hp hn => exact ⟨b, rfl⟩
  case decbitToInternal.dec b l r left right l' r' he hv hr hp hn => exact ⟨b, rfl⟩
  all_goals simp_all [State.active]

theorem closes_of_deactivates {i : Instr} {s t : State} (u : BlockUnit) (h : exec i s = .next t) (hs : s.active u = true)
    (ht : t.active u = false) : i = endOp u ∨ i = clrOp u := by
  cases exec_effect h <;> cases u
  case encend.enc | decend.dec => exact .inl rfl
  case clrenc.enc | clrdec.dec => exact .inr rfl
  all_goals simp_all [State.active]

/-- A FAULTED unit's ACTIVE bit is as it was (R21). -/
theorem active_kept_of_faulted {i : Instr} {s t : State} (u : BlockUnit) (h : exec i s = .next t) (ht : t.err u ≠ none) :
    t.active u = s.active u := by
  cases exec_effect h <;> cases u <;> simp_all [State.active, State.err]

/-- How an op changes the state of a unit (R21). -/
theorem exec_unitState {i : Instr} {s t : State} (u : BlockUnit) (h : exec i s = .next t) :
    (s.unitState u = .idle → t.unitState u = .active → Opens s u i) ∧
    (s.unitState u = .active → t.unitState u = .idle → i = endOp u ∨ i = clrOp u) ∧
    (s.unitState u = .faulted → t.unitState u ≠ .faulted → i = clrOp u ∧ t.unitState u = .idle) ∧
    (t.unitState u = .faulted → t.active u = s.active u) := by
  simp only [State.unitState_eq, unitStateOf_idle_iff, unitStateOf_active_iff, unitStateOf_faulted_iff, ne_eq, not_not]
  refine ⟨fun ⟨_, hs⟩ ⟨_, ht⟩ => opens_of_activates u h hs ht, fun ⟨_, hs⟩ ⟨_, ht⟩ => closes_of_deactivates u h hs ht,
    fun hs ht => ?_, active_kept_of_faulted u h⟩
  obtain ⟨hi, rfl⟩ := eq_clrOp_of_leaves_faulted u h hs ht
  exact ⟨hi, ht, by cases u <;> rfl⟩

/-- Settles O28: each clause for each unit. -/
theorem unitStatesChangeOnlyByNamedOps : Obligations.UnitStatesChangeOnlyByNamedOps := by
  intro i s t h
  obtain ⟨hopen, hclose, hleave, hkept⟩ := exec_unitState .enc h
  obtain ⟨hopen', hclose', hleave', hkept'⟩ := exec_unitState .dec h
  exact ⟨hopen, hclose, hleave, hkept, hopen', hclose', hleave', hkept'⟩

/-! ### Events -/

/-- An op emits nothing, or one event on its own unit's port (43_decoder.md R122). -/
theorem exec_events {i : Instr} {s t : State} (h : exec i s = .next t) :
    (t.ebHist = s.ebHist ∧ t.dsHist = s.dsHist) ∨
    (∃ e, i.unit = .enc ∧ t.ebHist = s.ebHist ++ [e] ∧ t.dsHist = s.dsHist) ∨
    (∃ e, i.unit = .dec ∧ t.dsHist = s.dsHist ++ [e] ∧ t.ebHist = s.ebHist) := by
  cases exec_effect h
  case clrenc => exact .inl ⟨history_append_clr _, rfl⟩
  case clrdec => exact .inl ⟨rfl, history_append_clr _⟩
  case encend => exact .inr (.inl ⟨.done, rfl, history_append_event _ _, rfl⟩)
  case decbitSingleton b sym he hv hr => exact .inr (.inr ⟨.sym sym, rfl, history_append_event _ _, rfl⟩)
  case decbitToLeaf b l r left right sym he hv hr hp hn => exact .inr (.inr ⟨.sym sym, rfl, history_append_event _ _, rfl⟩)
  case decend => exact .inr (.inr ⟨.done, rfl, history_append_event _ _, rfl⟩)
  all_goals exact .inl ⟨rfl, rfl⟩

/-- Settles O34: no meaning stops, and its effect emits one event at most. -/
theorem everyOpHasOneOutcome : Obligations.EveryOpHasOneOutcome := by
  intro i s
  obtain ⟨t, ht⟩ := exec_total i s
  exact ⟨t, ht, exec_events ht⟩

/-- With a Leaf at the root every DECBIT emits its symbol (43_decoder.md R119). -/
theorem execAll_decbits_of_leaf_root {s : State} {sym : Symbol} (B : BitString) (he : s.decErr = none) (hv : s.rootV = true)
    (hr : s.tm.read s.rootIdx = some (.leaf sym)) :
    execAll (B.map .decbit) s = .next { s with
      dsLog := s.dsLog ++ List.replicate B.length (.event (.sym sym)), decActive := s.decActive || !B.isEmpty } := by
  induction B generalizing s with
  | nil => simp
  | cons b B ih =>
    rw [List.map_cons, execAll_cons (i := .decbit b) (execDecbit_of_leaf_root b he hv hr),
      ih (s := { emitDs (.sym sym) s with decActive := true }) he hv hr]
    simp [List.replicate_succ]

/-- Settles O21: by induction over the bits. -/
theorem singletonDecodesEveryBit : Obligations.SingletonDecodesEveryBit := fun B _ _ he hv hr =>
  ⟨_, execAll_decbits_of_leaf_root B he hv hr, rfl⟩

end Sys2Proof.Machine
end

section
/-! PROOFS. The two units share no state (20_memory.md R41, 00_scope.md R6): what an op of one reads and writes is its own, so steps of
different units commute. -/

namespace Sys2Proof.Machine

theorem sameDecoder_shift (s : State) : SameDecoder s (shift s) := by simp [SameDecoder]

/-- Settles O37: the frame of each unit's ops, and of SHIFT. -/
theorem unitsShareNoState : Obligations.UnitsShareNoState := by
  refine ⟨fun i s t h => ?_, fun s => ⟨sameDecoder_shift s, shift_dsLog s⟩⟩
  obtain ⟨hparams, hcfg, hes, hdb, hsched⟩ := exec_keeps_host_side h
  exact ⟨fun hi => exec_enc_keeps_decoder hi h, fun hi => exec_dec_keeps_encoder hi h, hparams, hcfg, hes, hdb, hsched⟩

/-- The encoder, its port EB and the host's side of `e`, with the decoder and its port DS of `d`. -/
def withDecoderOf (e d : State) : State :=
  { e with
    tm := d.tm, rootV := d.rootV, rootIdx := d.rootIdx, decPtr := d.decPtr, decActive := d.decActive, decErr := d.decErr,
    dsLog := d.dsLog }

/-- An op of the encoder reads and writes no part of the decoder. -/
theorem exec_enc_withDecoderOf {i : Instr} {s t : State} (hi : i.unit = .enc) (h : exec i s = .next t) (d : State) :
    exec i (withDecoderOf s d) = .next (withDecoderOf t d) := by
  cases i
  case clrenc =>
    obtain rfl : clearUnit .enc .clr s = t := Host.Outcome.next.inj h
    rfl
  case ldcode sym len code =>
    obtain ⟨hf, rfl⟩ | ⟨he, ha, rfl⟩ | ⟨he, ha, hlen, rfl⟩ | ⟨he, ha, hpos, hmax, rfl⟩ := execLdcode_cases h
    · exact execLdcode_of_faulted sym len code hf
    · exact execLdcode_of_active sym len code he ha
    · exact execLdcode_of_bad_len sym code he ha hlen
    · exact execLdcode_of_good_len sym code he ha hpos hmax
  case reserved010 | reserved011 =>
    obtain ⟨hf, rfl⟩ | ⟨he, rfl⟩ := illegalOp_cases h
    · exact illegalOp_of_faulted hf
    · exact illegalOp_of_not_faulted he
  case encsym sym =>
    obtain ⟨hc | hf, rfl⟩ | ⟨hc, he, hr, rfl⟩ | ⟨e, hc, he, hr, rfl⟩ := execEncsym_cases h
    · exact execEncsym_of_pending sym hc
    · exact execEncsym_of_faulted sym hf
    · exact execEncsym_of_unknown hc he hr
    · exact execEncsym_of_entry hc he hr
  case encend =>
    obtain ⟨hc | hf, rfl⟩ | ⟨hc, he, rfl⟩ := execEncend_cases h
    · exact execEncend_of_pending hc
    · exact execEncend_of_faulted hf
    · exact execEncend_of_ready hc he
  all_goals contradiction

/-- A load of the decoder whose write is the decoder's reads and writes no part of the encoder. -/
theorem loadTree_withDecoderOf {write : State → State} {s t e : State} (h : loadTree write s = .next t)
    (hw : write (withDecoderOf e s) = withDecoderOf e (write s)) :
    loadTree write (withDecoderOf e s) = .next (withDecoderOf e t) := by
  obtain ⟨hf, rfl⟩ | ⟨he, ha, rfl⟩ | ⟨he, ha, rfl⟩ := loadTree_cases h
  · exact loadTree_of_faulted write hf
  · exact loadTree_of_active write he ha
  · rw [← hw]
    exact loadTree_of_idle write he ha

theorem walkEdge_withDecoderOf (b : Bool) (s e : State) : walkEdge b (withDecoderOf e s) = withDecoderOf e (walkEdge b s) := by
  cases hp : s.tm.read s.decPtr with
  | none =>
    rw [walkEdge_of_no_internal (s := s) b (.inl hp)]
    exact walkEdge_of_no_internal b (.inl hp)
  | some n =>
    cases n with
    | leaf sym =>
      rw [walkEdge_of_no_internal (s := s) b (.inr ⟨sym, hp⟩)]
      exact walkEdge_of_no_internal b (.inr ⟨sym, hp⟩)
    | internal left right =>
      cases hc : s.tm.read (childIdx b left right) with
      | none =>
        rw [walkEdge_of_no_child (s := s) hp hc]
        exact walkEdge_of_no_child hp hc
      | some child =>
        cases child with
        | leaf sym =>
          rw [walkEdge_to_leaf (s := s) hp hc]
          exact walkEdge_to_leaf hp hc
        | internal l r =>
          rw [walkEdge_to_internal (s := s) hp hc]
          exact walkEdge_to_internal hp hc

/-- An op of the decoder reads and writes no part of the encoder. -/
theorem exec_dec_withDecoderOf {i : Instr} {s t : State} (hi : i.unit = .dec) (h : exec i s = .next t) (e : State) :
    exec i (withDecoderOf e s) = .next (withDecoderOf e t) := by
  cases i
  case clrdec =>
    obtain rfl : clearUnit .dec .clr s = t := Host.Outcome.next.inj h
    rfl
  case ldleaf | ldint | setroot => exact loadTree_withDecoderOf h rfl
  case decbit b =>
    obtain ⟨hf, rfl⟩ | ⟨he, hn, rfl⟩ | ⟨sym, he, hn, hr, rfl⟩ | ⟨l, r, he, hn, hr, rfl⟩ := execDecbit_cases h
    · exact execDecbit_of_faulted b hf
    · exact execDecbit_of_null_root b he hn
    · exact execDecbit_of_leaf_root b he (rootNull_false_iff.mp hn).1 hr
    · rw [← walkEdge_withDecoderOf]
      exact execDecbit_of_internal_root b he (rootNull_false_iff.mp hn).1 hr
  case decend =>
    obtain ⟨hf, rfl⟩ | ⟨he, hn, rfl⟩ | ⟨he, hn, hp, rfl⟩ | ⟨he, hn, hp, rfl⟩ := execDecend_cases h
    · exact execDecend_of_faulted hf
    · exact execDecend_of_null_root he hn
    · exact execDecend_of_off_root he hn hp
    · exact execDecend_of_at_root he hn hp
  all_goals contradiction

theorem withDecoderOf_of_sameDecoder {s t : State} (h : SameDecoder s t) (hlog : t.dsLog = s.dsLog) : withDecoderOf t s = t := by
  obtain ⟨htm, hv, hidx, hptr, hactive, herr⟩ := h
  rw [withDecoderOf, ← htm, ← hv, ← hidx, ← hptr, ← hactive, ← herr, ← hlog]

/-- An op of the decoder leaves the encoder, EB and the host's side. -/
theorem withDecoderOf_exec_dec {i : Instr} {s t : State} (hi : i.unit = .dec) (h : exec i s = .next t) : withDecoderOf s t = t := by
  obtain ⟨⟨hct, hsr, hcnt, hactive, herr⟩, hlog⟩ := exec_dec_keeps_encoder hi h
  obtain ⟨hparams, hcfg, hes, hdb, hsched⟩ := exec_keeps_host_side h
  rw [withDecoderOf, ← hparams, ← hct, ← hsr, ← hcnt, ← hactive, ← herr, ← hlog, ← hcfg, ← hes, ← hdb, ← hsched]

/-- An op of the encoder and one of the decoder lead to the same state in either order: what each made of its own unit. -/
theorem exec_diamond {i j : Instr} {s t v : State} (hi : i.unit = .enc) (hj : j.unit = .dec) (ht : exec i s = .next t)
    (hv : exec j s = .next v) : exec j t = .next (withDecoderOf t v) ∧ exec i v = .next (withDecoderOf t v) := by
  obtain ⟨hdec, hlog⟩ := exec_enc_keeps_decoder hi ht
  constructor
  · conv_lhs => rw [← withDecoderOf_of_sameDecoder hdec hlog]
    exact exec_dec_withDecoderOf hj hv t
  · conv_lhs => rw [← withDecoderOf_exec_dec hj hv]
    exact exec_enc_withDecoderOf hi ht v

theorem shift_withDecoderOf (s d : State) : shift (withDecoderOf s d) = withDecoderOf (shift s) d := by
  by_cases hc : s.encCnt = 0
  · rw [show shift s = s from if_pos hc]
    exact if_pos hc
  · rw [shift_of_pending (s := s) hc]
    exact shift_of_pending hc

/-- SHIFT and an op of the decoder lead to the same state in either order. -/
theorem exec_shift_diamond {j : Instr} {s v : State} (hj : j.unit = .dec) (hv : exec j s = .next v) :
    exec j (shift s) = .next (withDecoderOf (shift s) v) ∧ shift v = withDecoderOf (shift s) v := by
  constructor
  · conv_lhs => rw [← withDecoderOf_of_sameDecoder (sameDecoder_shift s) (shift_dsLog s)]
    exact exec_dec_withDecoderOf hj hv (shift s)
  · conv_lhs => rw [← withDecoderOf_exec_dec hj hv]
    exact shift_withDecoderOf s v

/-- Settles O38: the two diamonds. -/
theorem stepsOfDifferentUnitsCommute : Obligations.StepsOfDifferentUnitsCommute := by
  refine ⟨fun i j s t u hne ht hu => ?ops, fun j s u hj hu => ?shift⟩
  case ops =>
    obtain ⟨v, hv⟩ := exec_total j s
    refine ⟨v, hv, ?_⟩
    cases hi : i.unit with
    | enc =>
      have hj : j.unit = .dec := by
        cases hj : j.unit with
        | enc => exact absurd (hi.trans hj.symm) hne
        | dec => rfl
      obtain ⟨hjt, hiv⟩ := exec_diamond hi hj ht hv
      rw [hiv, ← hjt, hu]
    | dec =>
      have hj : j.unit = .enc := by
        cases hj : j.unit with
        | enc => rfl
        | dec => exact absurd (hi.trans hj.symm) hne
      obtain ⟨hiv, hjt⟩ := exec_diamond hj hi hv ht
      rw [hiv, ← hjt, hu]
  case shift =>
    obtain ⟨v, hv⟩ := exec_total j s
    obtain ⟨hju, hshift⟩ := exec_shift_diamond hj hv
    exact ⟨v, hv, hshift.trans (Host.Outcome.next.inj (hju.symm.trans hu))⟩

end Sys2Proof.Machine
end

section
/-! PROOFS. One step (20_memory.md R37 to R40, 70_reset_and_hazards.md R155 to R160): what each turn does, what a step takes from the ports,
and what it leaves of the tables. -/

namespace Sys2Proof.Machine

/-! ### Turns -/

theorem step_of_turn {s : State} {u : Turn} {ts : List Turn} (h : s.sched = u :: ts) : step s = takeTurn u (s.withSched ts) := by
  rw [step, nextStep, h]

theorem step_of_default {s : State} {u : Turn} (hs : s.sched = []) (hu : defaultTurn s = some u) : step s = takeTurn u s := by
  rw [step, nextStep, hs]
  simp only [hu]

theorem step_of_rest {s : State} (hs : s.sched = []) (hu : defaultTurn s = none) : step s = .next s := by
  rw [step, nextStep, hs]
  simp only [hu]

theorem acceptFrom_of_accepted {s : State} {port : Port} {w : OpWord} {ws : List OpWord} {i : Instr} (hin : s.input port = w :: ws)
    (hi : decode s.params port w = .ok i) (hheld : held i s = false) : acceptFrom port s = exec i (s.withInput port ws) := by
  simp only [acceptFrom, hin, hi, hheld, Bool.false_eq_true, if_false]

theorem acceptFrom_of_held {s : State} {port : Port} {w : OpWord} {ws : List OpWord} {i : Instr} (hin : s.input port = w :: ws)
    (hi : decode s.params port w = .ok i) (hheld : held i s = true) : acceptFrom port s = .next s := by
  simp only [acceptFrom, hin, hi, hheld, if_true]

/-- A scheduled port accepts its head. -/
theorem step_accept {s : State} {port : Port} {w : OpWord} {ws : List OpWord} {i : Instr} {ts : List Turn}
    (hs : s.sched = .accept port :: ts) (hin : s.input port = w :: ws) (hi : decode s.params port w = .ok i) (hheld : held i s = false) :
    step s = exec i ((s.withSched ts).withInput port ws) := by
  rw [step_of_turn hs]
  exact acceptFrom_of_accepted ((input_withSched port ts s).trans hin) hi hheld

/-! ### The default turn (log 8) -/

theorem defaultTurn_cfg {s : State} (h : s.cfgIn ≠ []) : defaultTurn s = some (.accept .cfg) := if_pos h

theorem defaultTurn_es {s : State} (hcfg : s.cfgIn = []) (hes : s.esIn ≠ []) (hc : s.encCnt = 0) :
    defaultTurn s = some (.accept .es) := by
  simp [defaultTurn, hcfg, hes, hc]

theorem defaultTurn_db {s : State} (hcfg : s.cfgIn = []) (hes : s.esIn = [] ∨ s.encCnt ≠ 0) (hdb : s.dbIn ≠ []) :
    defaultTurn s = some (.accept .db) := by
  have hno : ¬(s.esIn ≠ [] ∧ s.encCnt = 0) := by tauto
  simp only [defaultTurn, hcfg, ne_eq, not_true_eq_false, if_false, hdb, not_false_eq_true, if_true, if_neg hno]

theorem defaultTurn_shift {s : State} (hcfg : s.cfgIn = []) (hdb : s.dbIn = []) (hc : s.encCnt ≠ 0) : defaultTurn s = some .shift := by
  simp [defaultTurn, hcfg, hdb, hc]

theorem runOver_iff {s : State} : s.runOver = true ↔ s.cfgIn = [] ∧ s.esIn = [] ∧ s.dbIn = [] ∧ s.encCnt = 0 := by
  simp [State.runOver, and_assoc]

/-- Unless the run is over the default turn accepts an op that is not held, or sends a bit. -/
theorem defaultTurn_cases (s : State) :
    (s.runOver = true ∧ defaultTurn s = none) ∨
    (∃ port w ws, s.input port = w :: ws ∧ (port = .es → s.encCnt = 0) ∧ defaultTurn s = some (.accept port)) ∨
    (s.encCnt ≠ 0 ∧ defaultTurn s = some .shift) := by
  cases hcfg : s.cfgIn with
  | cons w ws => exact .inr (.inl ⟨.cfg, w, ws, hcfg, nofun, defaultTurn_cfg (by simp [hcfg])⟩)
  | nil =>
    by_cases hes : s.esIn = [] ∨ s.encCnt ≠ 0
    · cases hdb : s.dbIn with
      | cons w ws => exact .inr (.inl ⟨.db, w, ws, hdb, nofun, defaultTurn_db hcfg hes (by simp [hdb])⟩)
      | nil =>
        by_cases hc : s.encCnt = 0
        · have hes' : s.esIn = [] := hes.resolve_right (not_not.mpr hc)
          exact .inl ⟨runOver_iff.mpr ⟨hcfg, hes', hdb, hc⟩, by simp [defaultTurn, hcfg, hes', hdb, hc]⟩
        · exact .inr (.inr ⟨hc, defaultTurn_shift hcfg hdb hc⟩)
    · rw [not_or, not_not] at hes
      obtain ⟨w, ws, hin⟩ := List.exists_cons_of_ne_nil hes.1
      exact .inr (.inl ⟨.es, w, ws, hin, fun _ => hes.2, defaultTurn_es hcfg hes.1 hes.2⟩)

/-- Settles O17: a SHIFT turn is `shift`. -/
theorem shiftSendsOneBit : Obligations.ShiftSendsOneBit := by
  intro s ts hs
  have hstep : step s = .next (shift (s.withSched ts)) := step_of_turn hs
  refine ⟨fun hc => hstep.trans (congrArg _ (if_pos hc)), fun hc => ⟨_, hstep, ?_⟩⟩
  obtain ⟨n, hn⟩ := Nat.exists_eq_succ_of_ne_zero hc
  have hshift : shift (s.withSched ts) = _ := shift_of_pending (s := s.withSched ts) hc
  rw [hshift]
  exact ⟨rfl, by simp [State.pending, hn, bitsOf_succ]⟩

/-- Settles O31: an accepted head is performed; the default turn by its cases. -/
theorem stepRunsDecodedOp : Obligations.StepRunsDecodedOp := by
  refine ⟨fun s port w ws i hin hi hheld => ⟨fun ts hs => step_accept hs hin hi hheld, fun hs => ?default⟩,
    fun s hs hcfg hdb => ⟨fun hc => step_of_default hs (defaultTurn_shift hcfg hdb hc), fun hc hes => ?rest⟩⟩
  case default =>
    have hwaits : s.input port ≠ [] := hin ▸ List.cons_ne_nil w ws
    have haccept : defaultTurn s = some (.accept port) → step s = exec i (s.withInput port ws) := fun hu =>
      (step_of_default hs hu).trans (acceptFrom_of_accepted hin hi hheld)
    refine ⟨?cfg, ?es, ?db⟩
    case cfg =>
      rintro rfl
      exact haccept (defaultTurn_cfg hwaits)
    case es =>
      rintro rfl hcfg
      exact haccept (defaultTurn_es hcfg hwaits (held_eq_false_iff.mp hheld (decode_port hi)))
    case db =>
      rintro rfl hcfg hes
      exact haccept (defaultTurn_db hcfg hes hwaits)
  case rest => exact step_of_rest hs (by simp [defaultTurn, hcfg, hes, hdb, hc])

/-- Settles O32: only an ES op is held, and a held head is left where it is. -/
theorem heldOpWaitsAtPort : Obligations.HeldOpWaitsAtPort := by
  intro s port w ws i ts hin hi hheld hs
  obtain ⟨hport, hc⟩ := held_iff.mp hheld
  refine ⟨(decode_port hi).symm.trans hport, hc, ?_⟩
  rw [step_of_turn hs]
  exact acceptFrom_of_held ((input_withSched port ts s).trans hin) hi hheld

theorem withFetchWord_eq (s : State) (nbits w : Nat) : s.withFetchWord nbits w =
    (s.withInput (tablePort nbits) (w :: s.input (tablePort nbits))).withSched (.accept (tablePort nbits) :: s.sched) := rfl

/-- Settles O33: the placed word is the head of the port whose acceptance is the next turn. -/
theorem tableWordRunsNext : Obligations.TableWordRunsNext := by
  intro s nbits w i hi hheld
  have hheld' : held i (s.withFetchWord nbits w) = false := by
    rw [held_eq_false_iff] at hheld ⊢
    simpa [withFetchWord_eq] using hheld
  have hin : (s.withFetchWord nbits w).input (tablePort nbits) = w :: s.input (tablePort nbits) := by simp [withFetchWord_eq]
  rw [step_accept (ts := s.sched) rfl hin (by simpa [withFetchWord_eq] using hi) hheld']
  simp [withFetchWord_eq, ← withInput_withSched]

/-! ### Reset -/

theorem State.abandon_ebMessages (s : State) : s.ebMessages.abandon = (frame EbEvent.item s.ebLog).abandon := by
  unfold State.ebMessages
  split <;> rfl

theorem State.abandon_dsMessages (s : State) : s.dsMessages.abandon = (frame DsEvent.item s.dsLog).abandon := by
  unfold State.dsMessages
  split <;> rfl

/-- Settles O29: a reset turn is `resetStep`, which marks both logs. -/
theorem resetStepResetsBlock : Obligations.ResetStepResetsBlock := by
  intro s ts hs
  refine ⟨_, step_of_turn hs, rfl, history_append_reset s.ebLog, history_append_reset s.dsLog, ?_, ?_⟩
  · rw [State.abandon_ebMessages, State.ebMessages_of_no_fault rfl]
    exact frame_append_mark ..
  · rw [State.abandon_dsMessages, State.dsMessages_of_no_fault rfl]
    exact frame_append_mark ..

/-! ### The ports -/

/-- What the turn of a port comes to: a next state, or the refusal of a number that is no word of the port. -/
theorem acceptFrom_outcome (port : Port) (s : State) :
    (∃ t, acceptFrom port s = .next t) ∨
    ∃ w ws, s.input port = w :: ws ∧ 2 ^ s.params.portWidth port ≤ w ∧ acceptFrom port s = .refused (.notAnOpWord port) := by
  cases hin : s.input port with
  | nil => exact .inl ⟨s, by simp only [acceptFrom, hin]⟩
  | cons w ws =>
    obtain hw | hw := Nat.lt_or_ge w (2 ^ s.params.portWidth port)
    · have hi := decode_of_lt hw
      cases hheld : held (decodeWord s.params port w) s with
      | false =>
        rw [acceptFrom_of_accepted hin hi hheld]
        exact .inl (exec_total _ _)
      | true => exact .inl ⟨s, acceptFrom_of_held hin hi hheld⟩
    · exact .inr ⟨w, ws, rfl, hw, by simp only [acceptFrom, hin, decode_of_le hw]⟩

theorem takeTurn_outcome (u : Turn) (s : State) :
    (∃ t, takeTurn u s = .next t) ∨
    ∃ port w ws, s.input port = w :: ws ∧ 2 ^ s.params.portWidth port ≤ w ∧ takeTurn u s = .refused (.notAnOpWord port) := by
  cases u with
  | accept port => exact (acceptFrom_outcome port s).imp_right fun h => ⟨port, h⟩
  | shift => exact .inl ⟨_, rfl⟩
  | rst => exact .inl ⟨_, rfl⟩

/-- Settles O35: a step is a turn or rests. -/
theorem stepStopsOnlyOnOverwideWords : Obligations.StepStopsOnlyOnOverwideWords := by
  intro s
  cases hs : s.sched with
  | cons u ts =>
    rw [step_of_turn hs]
    simpa using takeTurn_outcome u (s.withSched ts)
  | nil =>
    cases hu : defaultTurn s with
    | none => exact .inl ⟨s, step_of_rest hs hu⟩
    | some u =>
      rw [step_of_default hs hu]
      exact takeTurn_outcome u s

/-- One port lost its head between `s` and `t`, and no other port changed. -/
def TookHead (s t : State) : Prop := ∃ port w, s.input port = w :: t.input port ∧ ∀ q, q ≠ port → t.input q = s.input q

theorem tookHead_of_exec {s t : State} {port : Port} {w : OpWord} {ws : List OpWord} {i : Instr} (hin : s.input port = w :: ws)
    (h : exec i (s.withInput port ws) = .next t) : TookHead s t :=
  ⟨port, w, by rw [exec_input h, input_withInput_same, hin], fun q hq => by rw [exec_input h, input_withInput_other hq]⟩

/-- Settles O36: a step takes no word, or the head of one port. -/
theorem portsAreFifo : Obligations.PortsAreFifo := by
  intro s t h
  refine ⟨step_params h, ?_⟩
  obtain rfl | ⟨port, w, ws, i, hin, -, -, hx⟩ | ⟨-, rfl⟩ | ⟨-, rfl⟩ := step_cases h
  · exact .inl fun port => input_withSched port _ s
  · obtain ⟨q, v, hhead, hother⟩ := tookHead_of_exec ((input_withSched port _ s).trans hin) hx
    exact .inr ⟨q, v, by simpa using hhead, fun p hp => by simpa using hother p hp⟩
  · exact .inl fun port => by cases port <;> simp [State.input]
  · exact .inl fun port => by cases port <;> simp [State.input]

/-! ### The tables -/

/-- During a message no op changes CT but the one that clears the encoder (R160). -/
theorem exec_ct_frozen {i : Instr} {s t : State} (h : exec i s = .next t) (hs : s.encActive = true ∨ s.encErr ≠ none) :
    t.ct = s.ct ∨ EncoderReset t := by
  cases exec_effect h
  case clrenc => exact .inr (unitReset_clearUnit .enc .clr s)
  case ldcode sym len code h1 he ha h2 => simp [he, ha] at hs
  all_goals exact .inl rfl

/-- During a message no op changes TM or the root but the one that clears the decoder (R160). -/
theorem exec_tree_frozen {i : Instr} {s t : State} (h : exec i s = .next t) (hs : s.decActive = true ∨ s.decErr ≠ none) :
    SameTree s t ∨ DecoderReset t := by
  cases exec_effect h
  case clrdec => exact .inr (unitReset_clearUnit .dec .clr s)
  case ldleaf idx sym he ha => simp [he, ha] at hs
  case ldint idx left right he ha => simp [he, ha] at hs
  case setroot idx he ha => simp [he, ha] at hs
  all_goals exact .inl ⟨rfl, rfl, rfl⟩

/-- Settles O39: of the steps only an accepted op can touch a table. -/
theorem tablesFrozenDuringMessage : Obligations.TablesFrozenDuringMessage := by
  intro s t h
  obtain rfl | ⟨port, w, ws, i, -, -, -, hx⟩ | ⟨-, rfl⟩ | ⟨-, rfl⟩ := step_cases h
  · exact ⟨fun _ => .inl rfl, fun _ => .inl ⟨rfl, rfl, rfl⟩⟩
  · exact ⟨fun hs => by simpa using exec_ct_frozen hx (by simpa using hs),
      fun hs => by simpa [SameTree] using exec_tree_frozen hx (by simpa using hs)⟩
  · exact ⟨fun _ => .inl (by simp), fun _ => .inl (by simp)⟩
  · exact ⟨fun _ => .inr (unitReset_resetStep .enc _), fun _ => .inr (unitReset_resetStep .dec _)⟩

/-! ### SHIFT against CLRENC -/

/-- `k` scheduled SHIFTs send the first `k` pending bits (R40, 42_encoder.md R102). -/
theorem run_shifts {s : State} {k : Nat} {ts : List Turn} (hs : s.sched = List.replicate k .shift ++ ts) (hk : k ≤ s.encCnt) :
    run k s = .next { s with
      sched := ts, encCnt := s.encCnt - k, ebLog := s.ebLog ++ (s.pending.take k).map fun b => .event (.bit b) } := by
  induction k generalizing s with
  | zero =>
    obtain rfl : s.sched = ts := hs
    simp
  | succ k ih =>
    obtain ⟨n, hn⟩ : ∃ n, s.encCnt = n + 1 := Nat.exists_eq_succ_of_ne_zero (by omega)
    have hstep : step s = .next (shift (s.withSched (List.replicate k .shift ++ ts))) := step_of_turn hs
    have hshift := shift_of_pending (s := s.withSched (List.replicate k .shift ++ ts)) (by simp [hn])
    rw [run_succ hstep, ih (by simp) (by simp [hshift, hn]; omega), hshift]
    simp [State.pending, hn, bitsOf_succ, State.withSched]

/-- A CLRENC that waits alone at CFG is accepted. -/
theorem run_accept_clrenc {s : State} {ts : List Turn} (hs : s.sched = .accept .cfg :: ts) (hin : s.cfgIn = [encode s.params .clrenc]) :
    run 1 s = .next (clearUnit .enc .clr ((s.withSched ts).withInput .cfg [])) := by
  have hclr : decode s.params .cfg (encode s.params .clrenc) = .ok .clrenc := decodeEncodeAgree s.params .clrenc rfl
  rw [run_succ ((step_accept hs hin hclr rfl).trans rfl), run_zero]

/-- Settles O40: the SHIFTs first, and then the CLRENC. -/
theorem anyNumberOfBitsBeforeClear : Obligations.AnyNumberOfBitsBeforeClear := by
  intro s k hk
  have hshifts := run_shifts (s := { s with
    sched := List.replicate k .shift ++ [.accept .cfg], cfgIn := [encode s.params .clrenc] }) rfl hk
  exact ⟨_, (run_add hshifts 1).trans (run_accept_clrenc rfl rfl), rfl, unitReset_clearUnit .enc .clr _, .refl s, rfl⟩

/-! ### The end of a run -/

/-- With no turn scheduled and the run not over, a step takes the head of a port or sends a bit. -/
theorem step_of_empty_schedule {s t : State} (hs : s.sched = []) (h : step s = .next t) :
    (s.runOver = true ∧ t = s) ∨ TookHead s t ∨ (s.encCnt ≠ 0 ∧ t = shift s) := by
  obtain ⟨hover, hu⟩ | ⟨port, w, ws, hin, hes, hu⟩ | ⟨hc, hu⟩ := defaultTurn_cases s
  · exact .inl ⟨hover, (Host.Outcome.next.inj ((step_of_rest hs hu).symm.trans h)).symm⟩
  · right; left
    rw [step_of_default hs hu, takeTurn] at h
    obtain hw | hw := Nat.lt_or_ge w (2 ^ s.params.portWidth port)
    · have hheld : held (decodeWord s.params port w) s = false :=
        held_eq_false_iff.mpr fun hport => hes ((decodeWord_port s.params port w).symm.trans hport)
      rw [acceptFrom_of_accepted hin (decode_of_lt hw) hheld] at h
      exact tookHead_of_exec hin h
    · simp [acceptFrom, hin, decode_of_le hw] at h
  · exact .inr (.inr ⟨hc, (Host.Outcome.next.inj ((step_of_default hs hu).symm.trans h)).symm⟩)

theorem not_tookHead_self (s : State) : ¬TookHead s s := fun ⟨port, w, hin, _⟩ => by
  simpa using congrArg List.length hin

/-- Settles O52: a step that takes a word or sends a bit changes the state. -/
theorem finishedRunRests : Obligations.FinishedRunRests := by
  intro s hs
  constructor
  · intro hover
    obtain ⟨hcfg, hes, hdb, hc⟩ := runOver_iff.mp hover
    exact step_of_rest hs (by simp [defaultTurn, hcfg, hes, hdb, hc])
  · intro h
    obtain ⟨hover, -⟩ | htook | ⟨hc, hshift⟩ := step_of_empty_schedule hs h
    · exact hover
    · exact absurd htook (not_tookHead_self s)
    · have hcnt : s.encCnt = s.encCnt - 1 := by
        conv_lhs => rw [hshift, shift_of_pending hc]
      omega

/-- Every word that waits is a word of its port. -/
def WordsFit (s : State) : Prop := ∀ port, ∀ w ∈ s.input port, w < 2 ^ s.params.portWidth port

theorem WordsFit.exists_step {s : State} (h : WordsFit s) : ∃ t, step s = .next t := by
  obtain hnext | ⟨port, w, ws, hin, hw, -⟩ := stepStopsOnlyOnOverwideWords s
  · exact hnext
  · exact absurd (h port w (hin ▸ List.mem_cons_self)) (Nat.not_lt.mpr hw)

theorem WordsFit.step {s t : State} (h : WordsFit s) (hx : Machine.step s = .next t) : WordsFit t := fun port w hw =>
  step_params hx ▸ h port w ((step_input_suffix hx port).mem hw)

/-- How many words wait. -/
def State.waiting (s : State) : Nat := (s.input .cfg).length + (s.input .es).length + (s.input .db).length

theorem TookHead.waiting {s t : State} (h : TookHead s t) : s.waiting = t.waiting + 1 := by
  obtain ⟨port, w, hin, hother⟩ := h
  have hlength : ∀ q, (s.input q).length = (t.input q).length + if q = port then 1 else 0 := by
    intro q
    by_cases hq : q = port
    · subst hq
      rw [hin, if_pos rfl, List.length_cons]
    · rw [hother q hq, if_neg hq, Nat.add_zero]
  simp only [State.waiting, hlength]
  cases port <;> simp <;> omega

/-- What every step makes less until the end: the turns scheduled, then the words waiting, then the bits pending. -/
def State.left (s : State) : Nat × Nat × Nat := (s.sched.length, s.waiting, s.encCnt)

theorem step_left_lt {s t : State} (h : step s = .next t) (hend : ¬(s.runOver = true ∧ s.sched = [])) :
    Prod.Lex (· < ·) (Prod.Lex (· < ·) (· < ·)) t.left s.left := by
  have hsched := step_sched h
  cases hs : s.sched with
  | cons u ts => exact .left _ _ (by simp [hsched, hs])
  | nil =>
    have hempty : t.sched.length = s.sched.length := by rw [hsched, hs]; rfl
    rw [State.left, State.left, hempty]
    refine .right _ ?_
    obtain ⟨hover, -⟩ | htook | ⟨hc, rfl⟩ := step_of_empty_schedule hs h
    · exact absurd ⟨hover, hs⟩ hend
    · exact .left _ _ (by rw [htook.waiting]; omega)
    · have hwaiting : (shift s).waiting = s.waiting := by simp [State.waiting, State.input]
      rw [hwaiting]
      refine .right _ ?_
      rw [shift_of_pending hc]
      exact Nat.sub_one_lt hc

/-- When every word fits, the run comes to its end. -/
theorem WordsFit.run_to_end (s : State) (h : WordsFit s) : ∃ k t, run k s = .next t ∧ t.runOver = true ∧ t.sched = [] := by
  by_cases hend : s.runOver = true ∧ s.sched = []
  · exact ⟨0, s, rfl, hend⟩
  · obtain ⟨t, ht⟩ := h.exists_step
    have hless := step_left_lt ht hend
    obtain ⟨k, u, hu, hover⟩ := WordsFit.run_to_end t (h.step ht)
    exact ⟨k + 1, u, (run_succ ht k).trans hu, hover⟩
termination_by s.left
decreasing_by exact hless

/-- Settles O51: every step brings the run nearer to its end. -/
theorem everyPresentedOpIsAccepted : Obligations.EveryPresentedOpIsAccepted := fun s h => WordsFit.run_to_end s h

end Sys2Proof.Machine
end

section
/-! PROOFS. The steps of an encoder that works alone (42_encoder.md R107). -/

namespace Sys2Proof.Machine

/-- Nothing but the symbols `rest` and the ENCEND behind them waits, no turn is scheduled, every symbol has an entry, and `n` steps are
to come before the ENCEND: one for each symbol and one for each bit. -/
structure EncodesAlone (n : Nat) (s : State) : Prop where
  no_turn : s.sched = []
  no_cfg : s.cfgIn = []
  no_db : s.dbIn = []
  no_fault : s.encErr = none
  encodes : ∃ rest x, s.esIn = (encodeOps rest).map (encode s.params) ∧ (∀ a ∈ rest, a < 2 ^ s.params.symW) ∧
    refEncode (mappingOf s.ct) rest = .ok x ∧ n = s.encCnt + rest.length + x.length

theorem EncodesAlone.not_over {n : Nat} {s : State} (h : EncodesAlone n s) : s.runOver = false := by
  obtain ⟨rest, x, hes, -⟩ := h.encodes
  rw [← Bool.not_eq_true, runOver_iff]
  intro ⟨_, hempty, _⟩
  simp [encodeOps, hes] at hempty

/-- The op at the head of ES is performed when no bit is pending. -/
theorem EncodesAlone.step_es {n : Nat} {s : State} {w : OpWord} {ws : List OpWord} {i : Instr} (h : EncodesAlone n s)
    (hc : s.encCnt = 0) (hin : s.esIn = w :: ws) (hi : decode s.params .es w = .ok i) : step s = exec i (s.withInput .es ws) :=
  (step_of_default h.no_turn (defaultTurn_es h.no_cfg (hin ▸ List.cons_ne_nil w ws) hc)).trans
    (acceptFrom_of_accepted hin hi (held_eq_false_iff.mpr fun _ => hc))

/-- The step of a pending bit. -/
theorem EncodesAlone.step_shift {n : Nat} {s : State} (h : EncodesAlone (n + 1) s) (hc : s.encCnt ≠ 0) :
    step s = .next (shift s) ∧ EncodesAlone n (shift s) := by
  obtain ⟨rest, x, hes, hfits, hx, hn⟩ := h.encodes
  refine ⟨step_of_default h.no_turn (defaultTurn_shift h.no_cfg h.no_db hc), by simpa using h.no_turn, by simpa using h.no_cfg,
    by simpa using h.no_db, by simpa using h.no_fault, rest, x, by simpa using hes, by simpa using hfits, by simpa using hx, ?_⟩
  have hcnt : (shift s).encCnt = s.encCnt - 1 := by rw [shift_of_pending hc]
  omega

/-- The step of a symbol. -/
theorem EncodesAlone.step_encsym {n : Nat} {s : State} (h : EncodesAlone (n + 1) s) (hc : s.encCnt = 0) :
    ∃ t, step s = .next t ∧ EncodesAlone n t := by
  obtain ⟨rest, x, hes, hfits, hx, hn⟩ := h.encodes
  cases rest with
  | nil =>
    obtain rfl : [] = x := Except.ok.inj hx
    simp [hc] at hn
  | cons a rest =>
    obtain ⟨c, y, hcode, hy, rfl⟩ := refEncode_cons_ok_iff.mp hx
    rw [read_mappingOf] at hcode
    obtain ⟨e, he, rfl⟩ := Option.map_eq_some_iff.mp hcode
    obtain ⟨ha, hrest⟩ := List.forall_mem_cons.mp hfits
    have hstep := h.step_es hc hes (decode_encode_encsym ha)
    refine ⟨_, hstep.trans (execEncsym_of_entry (s := s.withInput .es _) hc h.no_fault he), h.no_turn, h.no_cfg, h.no_db, h.no_fault,
      rest, y, rfl, hrest, hy, ?_⟩
    have hlength : e.bits.length = e.len := length_bitsOf ..
    simp only [List.length_cons, List.length_append, hlength] at hn
    simp only
    omega

theorem EncodesAlone.step {n : Nat} {s : State} (h : EncodesAlone (n + 1) s) : ∃ t, Machine.step s = .next t ∧ EncodesAlone n t := by
  by_cases hc : s.encCnt = 0
  · exact h.step_encsym hc
  · exact ⟨_, h.step_shift hc⟩

/-- The step of the ENCEND ends the run. -/
theorem EncodesAlone.step_encend {s : State} (h : EncodesAlone 0 s) : ∃ t, Machine.step s = .next t ∧ t.runOver = true := by
  obtain ⟨rest, x, hes, -, -, hn⟩ := h.encodes
  obtain rfl : rest = [] := List.length_eq_zero_iff.mp (by omega)
  have hc : s.encCnt = 0 := by omega
  refine ⟨_, (h.step_es hc hes (decode_encode_encend s.params)).trans (execEncend_of_ready (s := s.withInput .es []) hc h.no_fault), ?_⟩
  exact runOver_iff.mpr ⟨h.no_cfg, rfl, h.no_db, hc⟩

/-- The run is over after the counted steps and the ENCEND. -/
theorem EncodesAlone.run_over {n : Nat} {s : State} (h : EncodesAlone n s) : ∃ t, run (n + 1) s = .next t ∧ t.runOver = true := by
  induction n generalizing s with
  | zero =>
    obtain ⟨t, ht, hover⟩ := h.step_encend
    exact ⟨t, by rw [run_succ ht, run_zero], hover⟩
  | succ n ih =>
    obtain ⟨t, ht, halone⟩ := h.step
    obtain ⟨u, hu, hover⟩ := ih halone
    exact ⟨u, (run_succ ht _).trans hu, hover⟩

/-- The run is not over before. -/
theorem EncodesAlone.run_not_over {n k : Nat} {s t : State} (h : EncodesAlone n s) (hk : k ≤ n) (hrun : run k s = .next t) :
    t.runOver = false := by
  induction k generalizing n s with
  | zero =>
    obtain rfl : s = t := by simpa using hrun
    exact h.not_over
  | succ k ih =>
    obtain ⟨m, rfl⟩ : ∃ m, n = m + 1 := Nat.exists_eq_succ_of_ne_zero (by omega)
    obtain ⟨u, hu, halone⟩ := h.step
    exact ih halone (by omega) (by rwa [run_succ hu] at hrun)

/-- Settles O48: the steps are counted, and what EB then holds is O47's. -/
theorem encodedMessageStepCount : Obligations.EncodedMessageStepCount := by
  intro s S x he ha hc hes hfits hcfg hdb hsched hx
  have halone : EncodesAlone (S.length + x.length) s := ⟨hsched, hcfg, hdb, he, S, x, hes, hfits, hx, by omega⟩
  refine ⟨?_, fun k t hk hrun => halone.run_not_over (by omega) hrun⟩
  obtain ⟨t, hrun, hover⟩ := halone.run_over
  have ⟨_, hesT, _, _⟩ := runOver_iff.mp hover
  have hcfg' : ∀ b : Bool, ∀ w ∈ s.cfgIn, w.testBit 2 = b := by simp [hcfg]
  have hreset : .rst ∉ s.sched := by simp [hsched]
  obtain ⟨hencoded, -⟩ := encodedMessageIsExact s t S _ he ha hc hes hfits (hcfg' true) hreset hrun
  obtain ⟨y, -, hhist, -, heT, hctT, hfinal⟩ := hencoded x hx
  obtain ⟨rfl, haT, -, -⟩ := hfinal hesT
  have hrests : DecoderResting s t := .of_run ⟨hcfg' false, hreset⟩ hdb hrun
  exact ⟨t, hrun, hover, by rw [hhist, List.append_assoc], heT, haT, hctT, hrests.same, hrests.log_same⟩

end Sys2Proof.Machine
end

section
/-! PROOFS. The messages on the output ports (42_encoder.md R100, 43_decoder.md R115, 70_reset_and_hazards.md R164): what one step does to
a unit's log and ERR register, and what that makes of the messages. -/

namespace Sys2Proof.Machine

variable {ε α : Type}

/-- A log read as the messages of a unit with this ERR register: a fault abandons the unfinished one. -/
def messagesOf (item : ε → Option α) (err : Option FaultCode) (log : List (LogEntry ε)) : Framing α :=
  if err.isSome then (frame item log).abandon else frame item log

theorem messagesOf_of_no_fault {item : ε → Option α} {err : Option FaultCode} (h : err = none) (log : List (LogEntry ε)) :
    messagesOf item err log = frame item log := by
  rw [messagesOf, h]
  rfl

theorem messagesOf_of_fault {item : ε → Option α} {err : Option FaultCode} (h : err ≠ none) (log : List (LogEntry ε)) :
    messagesOf item err log = (frame item log).abandon := if_pos (Option.isSome_iff_ne_none.mpr h)

theorem abandon_messagesOf (item : ε → Option α) (err : Option FaultCode) (log : List (LogEntry ε)) :
    (messagesOf item err log).abandon = (frame item log).abandon := by
  unfold messagesOf
  split <;> rfl

theorem results_messagesOf (item : ε → Option α) (err : Option FaultCode) (log : List (LogEntry ε)) :
    (messagesOf item err log).results = (frame item log).results := by
  unfold messagesOf
  split <;> rfl

/-- What one step does to a unit's ERR register and to the log of its output port; `cleared` says that the unit then is in its reset
state. -/
inductive LogStep (cleared : Prop) (err err' : Option FaultCode) (log log' : List (LogEntry ε)) : Prop
  | kept (herr : err' = err) (hlog : log' = log)
  | faulted (f : FaultCode) (herr' : err' = some f) (hlog : log' = log)
  | emitted (e : ε) (herr : err = none) (herr' : err' = none) (hlog : log' = log ++ [.event e])
  | marked (m : Mark) (hcleared : cleared) (herr' : err' = none) (hlog : log' = log ++ [.mark m])

variable {cleared : Prop} {err err' : Option FaultCode} {log log' : List (LogEntry ε)}

/-- Nothing logged is retracted. -/
theorem LogStep.isPrefix (h : LogStep cleared err err' log log') : log <+: log' := by
  cases h with
  | kept herr hlog => rw [hlog]
  | faulted f herr' hlog => rw [hlog]
  | emitted e herr herr' hlog => exact hlog ▸ List.prefix_append ..
  | marked m hcleared herr' hlog => exact hlog ▸ List.prefix_append ..

/-- The log is kept with the results, or an event joins the messages, or the unit is cleared and its unfinished message abandoned. -/
theorem LogStep.cases_messages (h : LogStep cleared err err' log log') (item : ε → Option α) :
    (log' = log ∧ (messagesOf item err' log').results = (messagesOf item err log).results) ∨
    (∃ e, err = none ∧ log' = log ++ [.event e] ∧
      messagesOf item err' log' = frameEntry item (messagesOf item err log) (.event e)) ∨
    (∃ m, cleared ∧ log' = log ++ [.mark m] ∧ messagesOf item err' log' = (messagesOf item err log).abandon) := by
  cases h with
  | kept herr hlog => exact .inl ⟨hlog, by rw [herr, hlog]⟩
  | faulted f herr' hlog => exact .inl ⟨hlog, by rw [results_messagesOf, results_messagesOf, hlog]⟩
  | emitted e herr herr' hlog =>
    refine .inr (.inl ⟨e, herr, hlog, ?_⟩)
    rw [messagesOf_of_no_fault herr', messagesOf_of_no_fault herr, hlog, frame_append_singleton]
  | marked m hcleared herr' hlog =>
    refine .inr (.inr ⟨m, hcleared, hlog, ?_⟩)
    rw [messagesOf_of_no_fault herr', abandon_messagesOf, hlog, frame_append_mark]

/-- Without a fault and with nothing logged the messages stay. -/
theorem LogStep.messages_kept (item : ε → Option α) (herr : err = none) (herr' : err' = none) (hlog : log' = log) :
    messagesOf item err' log' = messagesOf item err log := by
  rw [herr, herr', hlog]

/-- A FAULTED unit has logged nothing, and its unfinished message is abandoned. -/
theorem LogStep.messages_of_fault (h : LogStep cleared err err' log log') (item : ε → Option α) (hf : err' ≠ none) :
    log' = log ∧ messagesOf item err' log' = (messagesOf item err log).abandon := by
  have hlog : log' = log := by
    cases h with
    | kept herr hlog => exact hlog
    | faulted f herr' hlog => exact hlog
    | emitted e herr herr' hlog => exact absurd herr' hf
    | marked m hcleared herr' hlog => exact absurd herr' hf
  exact ⟨hlog, by rw [messagesOf_of_fault hf, abandon_messagesOf, hlog]⟩

end Sys2Proof.Machine

namespace Sys2Proof.Machine

theorem exec_ebLogStep {i : Instr} {s t : State} (h : exec i s = .next t) :
    LogStep (EncoderReset t) s.encErr t.encErr s.ebLog t.ebLog := by
  cases exec_effect h
  case clrenc => exact .marked .clr (unitReset_clearUnit .enc .clr s) rfl rfl
  case encFault f hf hi he => exact .faulted f rfl rfl
  case encend hc he => exact .emitted .done he he rfl
  all_goals exact .kept rfl rfl

theorem exec_dsLogStep {i : Instr} {s t : State} (h : exec i s = .next t) :
    LogStep (DecoderReset t) s.decErr t.decErr s.dsLog t.dsLog := by
  cases exec_effect h
  case clrdec => exact .marked .clr (unitReset_clearUnit .dec .clr s) rfl rfl
  case decFault f hf hi he => exact .faulted f rfl rfl
  case decbitSingleton b sym he hv hr => exact .emitted (.sym sym) he he rfl
  case decbitToLeaf b l r left right sym he hv hr hp hn => exact .emitted (.sym sym) he he rfl
  case decend e he hv hr hp => exact .emitted .done he he rfl
  all_goals exact .kept rfl rfl

/-- One step and EB; a bit is sent only by a unit that is not FAULTED (10_state.md R22 (a)). -/
theorem step_ebLogStep {s t : State} (hpending : PendingOnlyWhileActive s) (h : step s = .next t) :
    LogStep (EncoderReset t) s.encErr t.encErr s.ebLog t.ebLog := by
  obtain rfl | ⟨port, w, ws, i, -, -, -, hx⟩ | ⟨hc, rfl⟩ | ⟨-, rfl⟩ := step_cases h
  · exact .kept rfl rfl
  · simpa using exec_ebLogStep hx
  · obtain ⟨he, -⟩ := hpending hc
    obtain ⟨b, hlog, -⟩ := shift_sends_first_pending (s := s.withSched s.sched.tail) hc
    exact .emitted (.bit b) he (by simpa using he) hlog
  · exact .marked .reset (unitReset_resetStep .enc _) rfl rfl

theorem step_dsLogStep {s t : State} (h : step s = .next t) : LogStep (DecoderReset t) s.decErr t.decErr s.dsLog t.dsLog := by
  obtain rfl | ⟨port, w, ws, i, -, -, -, hx⟩ | ⟨-, rfl⟩ | ⟨-, rfl⟩ := step_cases h
  · exact .kept rfl rfl
  · simpa using exec_dsLogStep hx
  · exact .kept (by simp) (by simp)
  · exact .marked .reset (unitReset_resetStep .dec _) rfl rfl

/-- Settles O46: for each unit what the step does to its log; an event of EB is a bit or End, one of DS a symbol or End. -/
theorem messagesEndOrAreAbandoned : Obligations.MessagesEndOrAreAbandoned := by
  intro s t hpending h
  have heb := step_ebLogStep hpending h
  have hds := step_dsLogStep h
  refine ⟨heb.isPrefix, hds.isPrefix, ?eb, fun hs ht hlog => LogStep.messages_kept EbEvent.item hs ht hlog,
    heb.messages_of_fault EbEvent.item, ?ds, fun hs ht hlog => LogStep.messages_kept DsEvent.item hs ht hlog,
    hds.messages_of_fault DsEvent.item⟩
  case eb =>
    obtain hkept | ⟨e, herr, hlog, hmsg⟩ | hmarked := heb.cases_messages EbEvent.item
    · exact .inl hkept
    · cases e with
      | bit b => exact .inr (.inl ⟨b, herr, hlog, hmsg⟩)
      | done => exact .inr (.inr (.inl ⟨herr, hlog, hmsg⟩))
    · exact .inr (.inr (.inr hmarked))
  case ds =>
    obtain hkept | ⟨e, herr, hlog, hmsg⟩ | hmarked := hds.cases_messages DsEvent.item
    · exact .inl hkept
    · cases e with
      | sym a => exact .inr (.inl ⟨a, herr, hlog, hmsg⟩)
      | done => exact .inr (.inr (.inl ⟨herr, hlog, hmsg⟩))
    · exact .inr (.inr (.inr hmarked))

end Sys2Proof.Machine
end

section
/-! PROOFS. The invariant of the block (10_state.md R22), unit by unit: each clause speaks of one unit, so that a step has to be followed in
the unit it touches alone. -/

namespace Sys2Proof.Machine

/-! ### The invariant of each unit -/

/-- What the invariant says of the encoder. -/
structure EncoderInv (s : State) : Prop where
  pending : PendingOnlyWhileActive s
  from_table : PendingFromTable s
  ct_wf : s.ct.wf
  lengths : CodeLengthsLegal s
  ct_fits : ∀ e ∈ s.ct, e.1 < s.params.ctN ∧ e.2.code < 2 ^ s.params.lenMax
  sr_fits : s.encSr < 2 ^ s.params.lenMax
  fault : ∀ f, s.encErr = some f → f.raisedIn .enc = true
  unfinished : s.encActive = false → s.ebMessages.unfinished = []

/-- What the invariant says of the decoder. -/
structure DecoderInv (s : State) : Prop where
  idle_at_root : IdleAtRoot s
  no_root : NoMessageWithoutRoot s
  on_tree : PointerOnTree s
  tm_wf : s.tm.wf
  tm_fits : ∀ e ∈ s.tm, e.1 < s.params.nodeN ∧ e.2.fits s.params
  root_fits : s.rootIdx < s.params.nodeN
  ptr_fits : s.decPtr < s.params.nodeN
  fault : ∀ f, s.decErr = some f → f.raisedIn .dec = true
  unfinished : s.decActive = false → s.dsMessages.unfinished = []

theorem inv_iff {s : State} : s.Inv ↔ EncoderInv s ∧ DecoderInv s := by
  constructor
  · intro h
    obtain ⟨hct, htm⟩ := h.tablesWf
    obtain ⟨hctFits, hsr, htmFits, hroot, hptr⟩ := h.widthsHold
    obtain ⟨hencFault, hdecFault⟩ := h.faultsInPlace
    obtain ⟨heb, hds⟩ := h.unfinishedOnlyWhileActive
    exact ⟨⟨h.pendingOnlyWhileActive, h.pendingFromTable, hct, h.codeLengthsLegal, hctFits, hsr, hencFault, heb⟩,
      ⟨h.idleAtRoot, h.noMessageWithoutRoot, h.pointerOnTree, htm, htmFits, hroot, hptr, hdecFault, hds⟩⟩
  · intro ⟨henc, hdec⟩
    exact ⟨henc.pending, henc.from_table, hdec.idle_at_root, hdec.no_root, hdec.on_tree, ⟨henc.ct_wf, hdec.tm_wf⟩, henc.lengths,
      ⟨henc.ct_fits, henc.sr_fits, hdec.tm_fits, hdec.root_fits, hdec.ptr_fits⟩, ⟨henc.fault, hdec.fault⟩,
      ⟨henc.unfinished, hdec.unfinished⟩⟩

/-! ### The encoder -/

theorem EncoderInv.congr {s t : State} (h : EncoderInv s) (henc : SameEncoder s t) (hlog : t.ebLog = s.ebLog)
    (hparams : t.params = s.params) : EncoderInv t := by
  obtain ⟨hct, hsr, hcnt, hactive, herr⟩ := henc
  have hmsg : t.ebMessages = s.ebMessages := by simp only [State.ebMessages, herr, hlog]
  constructor
  case pending => simpa only [PendingOnlyWhileActive, hcnt, herr, hactive] using h.pending
  case from_table => simpa only [PendingFromTable, hcnt, hparams, hct, hsr] using h.from_table
  case ct_wf => simpa only [hct] using h.ct_wf
  case lengths => simpa only [CodeLengthsLegal, hct, hparams] using h.lengths
  case ct_fits => simpa only [hct, hparams] using h.ct_fits
  case sr_fits => simpa only [hsr, hparams] using h.sr_fits
  case fault => simpa only [herr] using h.fault
  case unfinished => simpa only [hactive, hmsg] using h.unfinished

theorem EncoderInv.of_reset {s : State} (h : EncoderReset s) (hmsg : s.ebMessages.unfinished = []) : EncoderInv s := by
  obtain ⟨hct, hsr, hcnt, -, herr⟩ := h
  constructor
  case pending => exact fun hc => absurd hcnt hc
  case from_table => exact ⟨hcnt ▸ Nat.zero_le _, fun hc => absurd hcnt hc⟩
  case ct_wf => exact hct ▸ .nil
  case lengths => simp [CodeLengthsLegal, hct]
  case ct_fits => simp [hct]
  case sr_fits => exact hsr ▸ Nat.two_pow_pos _
  case fault => simp [herr]
  case unfinished => exact fun _ => hmsg

theorem EncoderInv.clear (m : Mark) (s : State) : EncoderInv (clearUnit .enc m s) := by
  refine .of_reset (unitReset_clearUnit .enc m s) ?_
  rw [State.ebMessages_of_no_fault rfl, clearUnit_enc_ebLog, frame_append_mark, Framing.abandon_unfinished]

theorem EncoderInv.takeFault {s : State} {f : FaultCode} (h : EncoderInv s) (hf : f.raisedIn .enc = true) :
    EncoderInv (Machine.takeFault .enc f s) := by
  constructor
  case pending => exact fun hc => absurd rfl hc
  case from_table => exact ⟨Nat.zero_le _, fun hc => absurd rfl hc⟩
  case ct_wf => exact h.ct_wf
  case lengths => exact h.lengths
  case ct_fits => exact h.ct_fits
  case sr_fits => exact h.sr_fits
  case fault => exact fun g hg => Option.some.inj hg ▸ hf
  case unfinished =>
    intro _
    rw [State.ebMessages_of_fault (by simp), Framing.abandon_unfinished]

/-- No bit is pending outside a message. -/
theorem EncoderInv.encCnt_of_idle {s : State} (h : EncoderInv s) (ha : s.encActive = false) : s.encCnt = 0 := by
  by_contra hc
  obtain ⟨-, hactive⟩ := h.pending hc
  simp [ha] at hactive

theorem EncoderInv.writeCode {s : State} {sym len code : Nat} (h : EncoderInv s) (ha : s.encActive = false) (hpos : 1 ≤ len)
    (hmax : len ≤ s.params.lenMax) (hsym : sym < s.params.ctN) (hcode : code < 2 ^ s.params.lenMax) :
    EncoderInv { s with ct := s.ct.write sym ⟨len, code⟩ } := by
  constructor
  case pending => exact h.pending
  case from_table => exact ⟨h.from_table.1, fun hc => absurd (h.encCnt_of_idle ha) hc⟩
  case ct_wf => exact Memory.wf_write h.ct_wf sym _
  case lengths =>
    intro e he
    obtain rfl | he := Memory.mem_write he
    · exact ⟨hpos, hmax⟩
    · exact h.lengths e he
  case ct_fits =>
    intro e he
    obtain rfl | he := Memory.mem_write he
    · exact ⟨hsym, hcode⟩
    · exact h.ct_fits e he
  case sr_fits => exact h.sr_fits
  case fault => exact h.fault
  case unfinished => exact h.unfinished

theorem EncoderInv.loadCode {s : State} {sym : Symbol} {e : CtEntry} (h : EncoderInv s) (he : s.encErr = none)
    (hr : s.ct.read sym = some e) : EncoderInv { s with encSr := e.code, encCnt := e.len, encActive := true } := by
  have hmem := Memory.mem_of_read hr
  constructor
  case pending => exact fun _ => ⟨he, rfl⟩
  case from_table => exact ⟨(h.lengths _ hmem).2, fun _ => ⟨sym, e, hr, rfl, le_refl _⟩⟩
  case ct_wf => exact h.ct_wf
  case lengths => exact h.lengths
  case ct_fits => exact h.ct_fits
  case sr_fits => exact (h.ct_fits _ hmem).2
  case fault => exact h.fault
  case unfinished => exact nofun

theorem EncoderInv.endMessage {s : State} (h : EncoderInv s) (hc : s.encCnt = 0) (he : s.encErr = none) :
    EncoderInv { emitEb .done s with encActive := false } := by
  constructor
  case pending => exact fun hc' => absurd hc hc'
  case from_table => exact h.from_table
  case ct_wf => exact h.ct_wf
  case lengths => exact h.lengths
  case ct_fits => exact h.ct_fits
  case sr_fits => exact h.sr_fits
  case fault => exact h.fault
  case unfinished =>
    intro _
    have hmsg := State.ebMessages_of_no_fault (s := { emitEb .done s with encActive := false }) he
    rw [hmsg]
    exact congrArg Framing.unfinished (frame_append_singleton ..)

theorem EncoderInv.shift {s : State} (h : EncoderInv s) (hc : s.encCnt ≠ 0) : EncoderInv (Machine.shift s) := by
  obtain ⟨he, ha⟩ := h.pending hc
  obtain ⟨hmax, hentry⟩ := h.from_table
  obtain ⟨sym, e, hr, hsr, hlen⟩ := hentry hc
  rw [shift_of_pending hc]
  constructor
  case pending => exact fun _ => ⟨he, ha⟩
  case from_table => exact ⟨(Nat.sub_le ..).trans hmax, fun _ => ⟨sym, e, hr, hsr, (Nat.sub_le ..).trans hlen⟩⟩
  case ct_wf => exact h.ct_wf
  case lengths => exact h.lengths
  case ct_fits => exact h.ct_fits
  case sr_fits => exact h.sr_fits
  case fault => exact h.fault
  case unfinished => exact fun hidle => nomatch ha.symm.trans hidle

/-- Every op with operands that fit keeps the encoder's invariant. -/
theorem EncoderInv.exec {i : Instr} {s t : State} (h : EncoderInv s) (hi : i.wellFormed s.params = true)
    (hx : Machine.exec i s = .next t) : EncoderInv t := by
  cases exec_effect hx
  case clrenc => exact .clear .clr s
  case encFault f hf _ _ => exact h.takeFault hf
  case ldcode sym len code hpos _ ha hmax =>
    obtain ⟨⟨hsym, -⟩, hcode⟩ : (sym < 2 ^ s.params.symW ∧ len < 2 ^ s.params.lenW) ∧ code < 2 ^ s.params.lenMax := by
      simpa [Instr.wellFormed, fits] using hi
    exact h.writeCode ha hpos hmax hsym hcode
  case encsym sym e hc he hr => exact h.loadCode he hr
  case encend hc he => exact h.endMessage hc he
  all_goals exact h.congr ⟨rfl, rfl, rfl, rfl, rfl⟩ rfl rfl

/-! ### The decoder -/

theorem DecoderInv.congr {s t : State} (h : DecoderInv s) (hdec : SameDecoder s t) (hlog : t.dsLog = s.dsLog)
    (hparams : t.params = s.params) : DecoderInv t := by
  obtain ⟨htm, hv, hidx, hptr, hactive, herr⟩ := hdec
  have hmsg : t.dsMessages = s.dsMessages := by simp only [State.dsMessages, herr, hlog]
  constructor
  case idle_at_root => simpa only [IdleAtRoot, hv, hactive, herr, hptr, hidx] using h.idle_at_root
  case no_root => simpa only [NoMessageWithoutRoot, hv, hactive, herr] using h.no_root
  case on_tree => simpa only [PointerOnTree, herr, hactive, htm, hidx, hptr] using h.on_tree
  case tm_wf => simpa only [htm] using h.tm_wf
  case tm_fits => simpa only [htm, hparams] using h.tm_fits
  case root_fits => simpa only [hidx, hparams] using h.root_fits
  case ptr_fits => simpa only [hptr, hparams] using h.ptr_fits
  case fault => simpa only [herr] using h.fault
  case unfinished => simpa only [hactive, hmsg] using h.unfinished

theorem DecoderInv.of_reset {s : State} (h : DecoderReset s) (hmsg : s.dsMessages.unfinished = []) : DecoderInv s := by
  obtain ⟨htm, hv, hidx, hptr, hactive, herr⟩ := h
  constructor
  case idle_at_root => exact fun _ => hptr.trans hidx.symm
  case no_root => exact fun _ => .inl hactive
  case on_tree => simp [PointerOnTree, hactive]
  case tm_wf => exact htm ▸ .nil
  case tm_fits => simp [htm]
  case root_fits => exact hidx ▸ Nat.two_pow_pos _
  case ptr_fits => exact hptr ▸ Nat.two_pow_pos _
  case fault => simp [herr]
  case unfinished => exact fun _ => hmsg

theorem DecoderInv.clear (m : Mark) (s : State) : DecoderInv (clearUnit .dec m s) := by
  refine .of_reset (unitReset_clearUnit .dec m s) ?_
  rw [State.dsMessages_of_no_fault rfl, clearUnit_dec_dsLog, frame_append_mark, Framing.abandon_unfinished]

theorem DecoderInv.takeFault {s : State} {f : FaultCode} (h : DecoderInv s) (hf : f.raisedIn .dec = true) :
    DecoderInv (Machine.takeFault .dec f s) := by
  constructor
  case idle_at_root => simp [IdleAtRoot]
  case no_root => simp [NoMessageWithoutRoot]
  case on_tree => simp [PointerOnTree]
  case tm_wf => exact h.tm_wf
  case tm_fits => exact h.tm_fits
  case root_fits => exact h.root_fits
  case ptr_fits => exact h.ptr_fits
  case fault => exact fun g hg => Option.some.inj hg ▸ hf
  case unfinished =>
    intro _
    rw [State.dsMessages_of_fault (by simp), Framing.abandon_unfinished]

theorem DecoderInv.writeNode {s : State} {idx : NodeIdx} {e : TmEntry} (h : DecoderInv s) (ha : s.decActive = false)
    (hidx : idx < s.params.nodeN) (he : e.fits s.params) : DecoderInv { s with tm := s.tm.write idx e } := by
  constructor
  case idle_at_root => exact h.idle_at_root
  case no_root => exact h.no_root
  case on_tree => simp [PointerOnTree, ha]
  case tm_wf => exact Memory.wf_write h.tm_wf idx e
  case tm_fits =>
    intro n hn
    obtain rfl | hn := Memory.mem_write hn
    · exact ⟨hidx, he⟩
    · exact h.tm_fits n hn
  case root_fits => exact h.root_fits
  case ptr_fits => exact h.ptr_fits
  case fault => exact h.fault
  case unfinished => exact h.unfinished

theorem DecoderInv.nameRoot {s : State} {idx : NodeIdx} (h : DecoderInv s) (ha : s.decActive = false) (hidx : idx < s.params.nodeN) :
    DecoderInv { s with rootV := true, rootIdx := idx, decPtr := idx } := by
  constructor
  case idle_at_root => exact fun _ => rfl
  case no_root => exact nofun
  case on_tree => simp [PointerOnTree, ha]
  case tm_wf => exact h.tm_wf
  case tm_fits => exact h.tm_fits
  case root_fits => exact hidx
  case ptr_fits => exact hidx
  case fault => exact h.fault
  case unfinished => exact h.unfinished

/-- With a Leaf at the root the pointer is at the root, in a message and between messages (43_decoder.md R119). -/
theorem DecoderInv.decPtr_of_leaf_root {s : State} {sym : Symbol} (h : DecoderInv s) (he : s.decErr = none) (hv : s.rootV = true)
    (hr : s.tm.read s.rootIdx = some (.leaf sym)) : s.decPtr = s.rootIdx := by
  cases ha : s.decActive with
  | false => exact h.idle_at_root ⟨hv, ha, he⟩
  | true =>
    obtain ⟨_, -, hptr⟩ | ⟨l, r, _, _, hr', -⟩ := h.on_tree ⟨he, ha⟩
    · exact hptr
    · simp [hr] at hr'

/-- A bit of a message moves the pointer to a place where it may rest (R22 (f)), and emits what it may. -/
theorem DecoderInv.moveTo {s : State} {p : NodeIdx} {log : List (LogEntry DsEvent)} (h : DecoderInv s) (hv : s.rootV = true)
    (hp : p < s.params.nodeN) (htree : PointerOnTree { s with decPtr := p, decActive := true }) :
    DecoderInv { s with decPtr := p, decActive := true, dsLog := log } := by
  constructor
  case idle_at_root => exact nofun
  case no_root => exact fun hnone => nomatch hv.symm.trans hnone
  case on_tree => exact htree
  case tm_wf => exact h.tm_wf
  case tm_fits => exact h.tm_fits
  case root_fits => exact h.root_fits
  case ptr_fits => exact hp
  case fault => exact h.fault
  case unfinished => exact nofun

theorem DecoderInv.endMessage {s : State} (h : DecoderInv s) (he : s.decErr = none) (hp : s.decPtr = s.rootIdx) :
    DecoderInv { emitDs .done s with decActive := false } := by
  constructor
  case idle_at_root => exact fun _ => hp
  case no_root => exact fun _ => .inl rfl
  case on_tree => simp [PointerOnTree]
  case tm_wf => exact h.tm_wf
  case tm_fits => exact h.tm_fits
  case root_fits => exact h.root_fits
  case ptr_fits => exact h.ptr_fits
  case fault => exact h.fault
  case unfinished =>
    intro _
    have hmsg := State.dsMessages_of_no_fault (s := { emitDs .done s with decActive := false }) he
    rw [hmsg]
    exact congrArg Framing.unfinished (frame_append_singleton ..)

/-- The child of a valid Internal entry is an index that fits. -/
theorem DecoderInv.childIdx_fits {s : State} {a left right : NodeIdx} (h : DecoderInv s) (hr : s.tm.read a = some (.internal left right))
    (b : Bool) : childIdx b left right < s.params.nodeN := by
  obtain ⟨-, hleft, hright⟩ := h.tm_fits _ (Memory.mem_of_read hr)
  cases b
  · exact hleft
  · exact hright

/-- Every op with operands that fit keeps the decoder's invariant. -/
theorem DecoderInv.exec {i : Instr} {s t : State} (h : DecoderInv s) (hi : i.wellFormed s.params = true)
    (hx : Machine.exec i s = .next t) : DecoderInv t := by
  cases exec_effect hx
  case clrdec => exact .clear .clr s
  case decFault f hf _ _ => exact h.takeFault hf
  case ldleaf idx sym _ ha =>
    obtain ⟨hidx, hsym⟩ : idx < 2 ^ s.params.nodeAw ∧ sym < 2 ^ s.params.symW := by simpa [Instr.wellFormed, fits] using hi
    exact h.writeNode ha hidx hsym
  case ldint idx left right _ ha =>
    obtain ⟨⟨hidx, hleft⟩, hright⟩ :
        (idx < 2 ^ s.params.nodeAw ∧ left < 2 ^ s.params.nodeAw) ∧ right < 2 ^ s.params.nodeAw := by
      simpa [Instr.wellFormed, fits] using hi
    exact h.writeNode ha hidx ⟨hleft, hright⟩
  case setroot idx _ ha =>
    have hidx : idx < 2 ^ s.params.nodeAw := by simpa [Instr.wellFormed, fits] using hi
    exact h.nameRoot ha hidx
  case decbitSingleton b sym he hv hr =>
    exact h.moveTo hv h.ptr_fits fun _ => .inl ⟨sym, hr, h.decPtr_of_leaf_root he hv hr⟩
  case decbitToLeaf b l r left right sym he hv hr hp hn => exact h.moveTo hv h.root_fits fun _ => .inr ⟨l, r, l, r, hr, hr⟩
  case decbitToInternal b l r left right l' r' he hv hr hp hn =>
    exact h.moveTo hv (h.childIdx_fits hp b) fun _ => .inr ⟨l, r, l', r', hr, hn⟩
  case decend e he hv hr hp => exact h.endMessage he hp
  all_goals exact h.congr ⟨rfl, rfl, rfl, rfl, rfl, rfl⟩ rfl rfl

/-- Settles O41: both units are in their reset state and nothing is logged. -/
theorem invariantHoldsAtReset : Obligations.InvariantHoldsAtReset :=
  inv_iff.mpr ⟨.of_reset encoderReset_reset rfl, .of_reset decoderReset_reset rfl⟩

/-- Settles O42: an accepted op has operands that fit, SHIFT touches the encoder alone, and a reset clears both units. -/
theorem everyStepKeepsInvariant : Obligations.EveryStepKeepsInvariant := by
  intro s t hs h
  obtain ⟨henc, hdec⟩ := inv_iff.mp hs
  refine inv_iff.mpr ?_
  have henc' : EncoderInv (s.withSched s.sched.tail) := henc.congr (.refl s) rfl rfl
  have hdec' : DecoderInv (s.withSched s.sched.tail) := hdec.congr (.refl s) rfl rfl
  obtain rfl | ⟨port, w, ws, i, -, hi, -, hx⟩ | ⟨hc, rfl⟩ | ⟨-, rfl⟩ := step_cases h
  case inl => exact ⟨henc', hdec'⟩
  case inr.inl =>
    obtain ⟨hwf, -⟩ := decodedOpsAreWellFormed _ _ _ _ hi
    have hbase : EncoderInv ((s.withSched s.sched.tail).withInput port ws) := henc'.congr (by simp [SameEncoder]) (by simp) (by simp)
    have hbase' : DecoderInv ((s.withSched s.sched.tail).withInput port ws) := hdec'.congr (by simp [SameDecoder]) (by simp) (by simp)
    exact ⟨hbase.exec (by simpa using hwf) hx, hbase'.exec (by simpa using hwf) hx⟩
  case inr.inr.inl => exact ⟨henc'.shift hc, hdec'.congr (sameDecoder_shift _) (shift_dsLog _) (shift_params _)⟩
  case inr.inr.inr =>
    exact ⟨(EncoderInv.clear .reset (s.withSched s.sched.tail)).congr (.refl _) rfl rfl, .clear .reset _⟩

end Sys2Proof.Machine
end
